-- ==== Sys2Proof/Word.lean ====
section
/-! DEFINITION. The word types of MMC: the 32-bit bus word (one digit), the 4096-bit register value, the 17-bit window
offset, and the two register classes (rules R9, R10, R13, R31, R34, R101). -/

namespace Sys2Proof

/-- One 32-bit bus word, which is also one digit of a value (R8, R10). -/
abbrev Word := BitVec 32

/-- The contents of a value register or of one point coordinate: 128 digits, digit 0 least significant (R13, R31). -/
abbrev Value := BitVec 4096

/-- A byte offset in MMC's 128 KiB window (R10, R71). -/
abbrev Offset := BitVec 17

/-- A V-class operand: the index of a value register V0..V31 (R31, R101). -/
abbrev VReg := Fin 32

/-- A P-class operand: the index of a point register PT0..PT7 (R34, R101). -/
abbrev PReg := Fin 8

end Sys2Proof
end

