-- ==== Sys2Proof/Syntax.lean ====
section
/-! DEFINITION. The command set of MMC: one constructor for each of the 24 rows of the opcode table (R103), and the command
errors of R301. -/

namespace Sys2Proof

/-- The error codes 1..8 of R301; code 0, E_NONE, is success and is no error. -/
inductive CmdError where
  /-- E_ILLEGAL: undefined opcode, nonzero unused field or nonzero reserved FN bit. -/
  | illegal
  /-- E_OPERAND: P-class index above 7, or a BINV range past V31. -/
  | operand
  /-- E_NOCTX: the command needs a context and CTX.VALID = 0. -/
  | noctx
  /-- E_PTSTATE: a point operand has the wrong AFF and MONT combination. -/
  | ptstate
  /-- E_RANGE: an operand or coordinate is not below the modulus, or SMUL's scalar is not below the order. -/
  | range
  /-- E_MODULUS: MCTX with an even modulus or one below 3, or MINV with a modulus below 2. -/
  | modulus
  /-- E_WIDTH: NAF width outside 2..6. -/
  | width
  /-- E_NOINV: no modular inverse exists. -/
  | noinv
  deriving DecidableEq, Repr

/-- A command. Operands stand in the order of the assembly syntax (R108): destination, sources, then FN subfields. -/
inductive Instr where
  /-- NOP (R130). -/
  | nop
  /-- MOV Vd, Va (R131). -/
  | mov (rd ra : VReg)
  /-- MADD Vd, Va, Vb (R132). -/
  | madd (rd ra rb : VReg)
  /-- MSUB Vd, Va, Vb (R133). -/
  | msub (rd ra rb : VReg)
  /-- MRED Vd, Va (R134). -/
  | mred (rd ra : VReg)
  /-- MINV Vd, Va, Vb: RB holds the modulus (R152). -/
  | minv (rd ra rb : VReg)
  /-- BINV Vd, Va, n, M, with `n1` = n − 1 as FN[4:0] holds it and `mont` = M, FN[5] (R102, R155). -/
  | binv (rd ra : VReg) (n1 : Fin 32) (mont : Bool)
  /-- MCTX Va (R170). -/
  | mctx (ra : VReg)
  /-- MMUL Vd, Va, Vb (R175). -/
  | mmul (rd ra rb : VReg)
  /-- MTOM Vd, Va (R176). -/
  | mtom (rd ra : VReg)
  /-- MFROM Vd, Va (R177). -/
  | mfrom (rd ra : VReg)
  /-- MEXP Vd, Va, Vb: RA is the base and RB the exponent (R179). -/
  | mexp (rd ra rb : VReg)
  /-- PMOV PTd, PTa (R212). -/
  | pmov (rd ra : PReg)
  /-- PDBL PTd, PTa (R213). -/
  | pdbl (rd ra : PReg)
  /-- PMADD PTd, PTa, PTb: RA is Jacobian and RB affine (R214). -/
  | pmadd (rd ra rb : PReg)
  /-- PMDADD PTd, PTa, PTb: RA is Jacobian and RB affine (R215). -/
  | pmdadd (rd ra rb : PReg)
  /-- PNEG PTd, PTa (R216). -/
  | pneg (rd ra : PReg)
  /-- PTOJ PTd, PTa (R217). -/
  | ptoj (rd ra : PReg)
  /-- PTOA PTd, PTa (R218). -/
  | ptoa (rd ra : PReg)
  /-- PTOM PTd, PTa (R219). -/
  | ptom (rd ra : PReg)
  /-- PFROM PTd, PTa (R220). -/
  | pfrom (rd ra : PReg)
  /-- NAF Va, w (R261). Every 4-bit width is syntax; the command rejects those outside 2..6 (R102). -/
  | naf (ra : VReg) (w : Fin 16)
  /-- PTAB PTa, w (R266). -/
  | ptab (ra : PReg) (w : Fin 16)
  /-- SMUL PTd, PTa, Vb, M: `mont` = M, FN[5], is the result's domain (R102, R271). -/
  | smul (rd ra : PReg) (rb : VReg) (mont : Bool)
  deriving DecidableEq, Repr

end Sys2Proof
end

