-- ==== Sys2Proof/WellFormed.lean ====
section
/-! DEFINITION. Which terms of `Instr` are commands that decode accepts. Register classes and field widths are in the types
of the operands; the one check left is BINV's two register ranges (R105). -/

namespace Sys2Proof

/-- A BINV range of `n1 + 1` registers from `first` stays within V0..V31 (R105). -/
def rangeFits (first : VReg) (n1 : Fin 32) : Bool := first.val + (n1.val + 1) ≤ 32

/-- The operand checks of R105 that a term of `Instr` can still fail. -/
def WellFormed : Instr → Bool
  | .nop => true
  | .mov _ _ => true
  | .madd _ _ _ => true
  | .msub _ _ _ => true
  | .mred _ _ => true
  | .minv _ _ _ => true
  | .binv rd ra n1 _ => rangeFits ra n1 && rangeFits rd n1
  | .mctx _ => true
  | .mmul _ _ _ => true
  | .mtom _ _ => true
  | .mfrom _ _ => true
  | .mexp _ _ _ => true
  | .pmov _ _ => true
  | .pdbl _ _ => true
  | .pmadd _ _ _ => true
  | .pmdadd _ _ _ => true
  | .pneg _ _ => true
  | .ptoj _ _ => true
  | .ptoa _ _ => true
  | .ptom _ _ => true
  | .pfrom _ _ => true
  | .naf _ _ => true
  | .ptab _ _ => true
  | .smul _ _ _ _ => true

end Sys2Proof
end

