-- ==== Sys2Proof/Decode.lean ====
section
/-! DEFINITION. From a command word to a command (R100–R105), and back (R106). Decoding is total: a word that is no command
is rejected with the error that R105 names for it. -/

namespace Sys2Proof

/-- The field of `width` bits of `w` whose lowest bit is bit `lo`, as an unsigned number (R12). -/
def bits (w : Word) (lo width : Nat) : Nat := w.toNat / 2 ^ lo % 2 ^ width

/-- The fields of the one command format, C (R100). -/
structure Fields where
  op : Nat
  rd : Nat
  ra : Nat
  rb : Nat
  fn : Nat
  deriving DecidableEq, Repr

/-- Format C: OP[31:26], RD[25:21], RA[20:16], RB[15:11], FN[10:0] (R100). -/
def fieldsOf (w : Word) : Fields :=
  { op := bits w 26 6, rd := bits w 21 5, ra := bits w 16 5, rb := bits w 11 5, fn := bits w 0 11 }

/-- A V-class field names the value register of its number: all 32 values are valid (R101). -/
def vreg (n : Nat) : VReg := ⟨n % 32, Nat.mod_lt n (by decide)⟩

/-- A P-class field: values 0..7 name a point register, and 8..31 raise E_OPERAND (R101). -/
def preg (n : Nat) : Except CmdError PReg := if h : n < 8 then .ok ⟨n, h⟩ else .error .operand

/-- A command with a P-class RD and RA. -/
def onPP (f : Fields) (k : PReg → PReg → Instr) : Except CmdError Instr :=
  match preg f.rd, preg f.ra with
  | .ok d, .ok a => .ok (k d a)
  | _, _ => .error .operand

/-- A command with a P-class RD, RA and RB. -/
def onPPP (f : Fields) (k : PReg → PReg → PReg → Instr) : Except CmdError Instr :=
  match preg f.rd, preg f.ra, preg f.rb with
  | .ok d, .ok a, .ok b => .ok (k d a b)
  | _, _, _ => .error .operand

/-- The encoding check of R105: where the unused fields and the reserved FN bits are not all 0, E_ILLEGAL. -/
def legal (ok : Bool) (k : Except CmdError Instr) : Except CmdError Instr := if ok then k else .error .illegal

/-- The command that the fields stand for, or the first error of R105: E_ILLEGAL for an undefined opcode (R104), E_ILLEGAL
for a nonzero unused field or reserved FN bit (R101, R102), then E_OPERAND. -/
def decodeFields (f : Fields) : Except CmdError Instr :=
  match f.op with
  | 0x00 => legal (f.rd == 0 && f.ra == 0 && f.rb == 0 && f.fn == 0) (.ok .nop)
  | 0x01 => legal (f.rb == 0 && f.fn == 0) (.ok (.mov (vreg f.rd) (vreg f.ra)))
  | 0x02 => legal (f.fn == 0) (.ok (.madd (vreg f.rd) (vreg f.ra) (vreg f.rb)))
  | 0x03 => legal (f.fn == 0) (.ok (.msub (vreg f.rd) (vreg f.ra) (vreg f.rb)))
  | 0x04 => legal (f.rb == 0 && f.fn == 0) (.ok (.mred (vreg f.rd) (vreg f.ra)))
  | 0x08 => legal (f.fn == 0) (.ok (.minv (vreg f.rd) (vreg f.ra) (vreg f.rb)))
  | 0x09 => legal (f.rb == 0 && f.fn / 64 == 0)
      (let i := Instr.binv (vreg f.rd) (vreg f.ra) (vreg (f.fn % 32)) (f.fn / 32 % 2 == 1)
       if WellFormed i then .ok i else .error .operand)
  | 0x10 => legal (f.rd == 0 && f.rb == 0 && f.fn == 0) (.ok (.mctx (vreg f.ra)))
  | 0x11 => legal (f.fn == 0) (.ok (.mmul (vreg f.rd) (vreg f.ra) (vreg f.rb)))
  | 0x12 => legal (f.rb == 0 && f.fn == 0) (.ok (.mtom (vreg f.rd) (vreg f.ra)))
  | 0x13 => legal (f.rb == 0 && f.fn == 0) (.ok (.mfrom (vreg f.rd) (vreg f.ra)))
  | 0x14 => legal (f.fn == 0) (.ok (.mexp (vreg f.rd) (vreg f.ra) (vreg f.rb)))
  | 0x20 => legal (f.rb == 0 && f.fn == 0) (onPP f .pmov)
  | 0x21 => legal (f.rb == 0 && f.fn == 0) (onPP f .pdbl)
  | 0x22 => legal (f.fn == 0) (onPPP f .pmadd)
  | 0x23 => legal (f.fn == 0) (onPPP f .pmdadd)
  | 0x24 => legal (f.rb == 0 && f.fn == 0) (onPP f .pneg)
  | 0x25 => legal (f.rb == 0 && f.fn == 0) (onPP f .ptoj)
  | 0x26 => legal (f.rb == 0 && f.fn == 0) (onPP f .ptoa)
  | 0x27 => legal (f.rb == 0 && f.fn == 0) (onPP f .ptom)
  | 0x28 => legal (f.rb == 0 && f.fn == 0) (onPP f .pfrom)
  | 0x30 => legal (f.rd == 0 && f.rb == 0 && f.fn / 16 == 0)
      (.ok (.naf (vreg f.ra) (Fin.ofNat 16 f.fn)))
  | 0x31 => legal (f.rd == 0 && f.rb == 0 && f.fn / 16 == 0)
      (match preg f.ra with
       | .ok a => .ok (.ptab a (Fin.ofNat 16 f.fn))
       | .error e => .error e)
  | 0x32 => legal (f.fn % 32 == 0 && f.fn / 64 == 0)
      (match preg f.rd, preg f.ra with
       | .ok d, .ok a => .ok (.smul d a (vreg f.rb) (f.fn / 32 % 2 == 1))
       | _, _ => .error .operand)
  | _ => .error .illegal

/-- Decode of a command word (R105). -/
def decode (w : Word) : Except CmdError Instr := decodeFields (fieldsOf w)

/-! ### Encoding -/

/-- The encoding function of R106 on fields. -/
def enc (f : Fields) : Word :=
  BitVec.ofNat 32 (f.op * 2 ^ 26 + f.rd * 2 ^ 21 + f.ra * 2 ^ 16 + f.rb * 2 ^ 11 + f.fn)

/-- The opcode of each command (R103). -/
def opcode : Instr → Nat
  | .nop => 0x00
  | .mov _ _ => 0x01
  | .madd _ _ _ => 0x02
  | .msub _ _ _ => 0x03
  | .mred _ _ => 0x04
  | .minv _ _ _ => 0x08
  | .binv _ _ _ _ => 0x09
  | .mctx _ => 0x10
  | .mmul _ _ _ => 0x11
  | .mtom _ _ => 0x12
  | .mfrom _ _ => 0x13
  | .mexp _ _ _ => 0x14
  | .pmov _ _ => 0x20
  | .pdbl _ _ => 0x21
  | .pmadd _ _ _ => 0x22
  | .pmdadd _ _ _ => 0x23
  | .pneg _ _ => 0x24
  | .ptoj _ _ => 0x25
  | .ptoa _ _ => 0x26
  | .ptom _ _ => 0x27
  | .pfrom _ _ => 0x28
  | .naf _ _ => 0x30
  | .ptab _ _ => 0x31
  | .smul _ _ _ _ => 0x32

/-- The domain flag M at FN[5] (R102). -/
def domainBit (mont : Bool) : Nat := if mont then 32 else 0

/-- The fields of a command, unused ones 0 (R101–R103). -/
def fieldsFor (i : Instr) : Fields :=
  match i with
  | .nop => ⟨opcode i, 0, 0, 0, 0⟩
  | .mov rd ra => ⟨opcode i, rd, ra, 0, 0⟩
  | .madd rd ra rb => ⟨opcode i, rd, ra, rb, 0⟩
  | .msub rd ra rb => ⟨opcode i, rd, ra, rb, 0⟩
  | .mred rd ra => ⟨opcode i, rd, ra, 0, 0⟩
  | .minv rd ra rb => ⟨opcode i, rd, ra, rb, 0⟩
  | .binv rd ra n1 mont => ⟨opcode i, rd, ra, 0, domainBit mont + n1⟩
  | .mctx ra => ⟨opcode i, 0, ra, 0, 0⟩
  | .mmul rd ra rb => ⟨opcode i, rd, ra, rb, 0⟩
  | .mtom rd ra => ⟨opcode i, rd, ra, 0, 0⟩
  | .mfrom rd ra => ⟨opcode i, rd, ra, 0, 0⟩
  | .mexp rd ra rb => ⟨opcode i, rd, ra, rb, 0⟩
  | .pmov rd ra => ⟨opcode i, rd, ra, 0, 0⟩
  | .pdbl rd ra => ⟨opcode i, rd, ra, 0, 0⟩
  | .pmadd rd ra rb => ⟨opcode i, rd, ra, rb, 0⟩
  | .pmdadd rd ra rb => ⟨opcode i, rd, ra, rb, 0⟩
  | .pneg rd ra => ⟨opcode i, rd, ra, 0, 0⟩
  | .ptoj rd ra => ⟨opcode i, rd, ra, 0, 0⟩
  | .ptoa rd ra => ⟨opcode i, rd, ra, 0, 0⟩
  | .ptom rd ra => ⟨opcode i, rd, ra, 0, 0⟩
  | .pfrom rd ra => ⟨opcode i, rd, ra, 0, 0⟩
  | .naf ra w => ⟨opcode i, 0, ra, 0, w⟩
  | .ptab ra w => ⟨opcode i, 0, ra, 0, w⟩
  | .smul rd ra rb mont => ⟨opcode i, rd, ra, rb, domainBit mont⟩

/-- The command word of a command (R106). -/
def encode (i : Instr) : Word := enc (fieldsFor i)

/-! ### The opcode map as a table -/

/-- One row of the opcode map: a word `w` is of the row when `w AND mask = pattern` (R103). -/
structure Row where
  mnemonic : String
  pattern : Word
  mask : Word
  deriving DecidableEq, Repr

/-- The 24 rows of R103, with the match and mask columns as they stand there. -/
def opcodeMap : List Row :=
  [⟨"NOP", 0x00000000, 0xFFFFFFFF⟩, ⟨"MOV", 0x04000000, 0xFC00FFFF⟩, ⟨"MADD", 0x08000000, 0xFC0007FF⟩,
   ⟨"MSUB", 0x0C000000, 0xFC0007FF⟩, ⟨"MRED", 0x10000000, 0xFC00FFFF⟩, ⟨"MINV", 0x20000000, 0xFC0007FF⟩,
   ⟨"BINV", 0x24000000, 0xFC00FFC0⟩, ⟨"MCTX", 0x40000000, 0xFFE0FFFF⟩, ⟨"MMUL", 0x44000000, 0xFC0007FF⟩,
   ⟨"MTOM", 0x48000000, 0xFC00FFFF⟩, ⟨"MFROM", 0x4C000000, 0xFC00FFFF⟩, ⟨"MEXP", 0x50000000, 0xFC0007FF⟩] ++
  [⟨"PMOV", 0x80000000, 0xFC00FFFF⟩, ⟨"PDBL", 0x84000000, 0xFC00FFFF⟩, ⟨"PMADD", 0x88000000, 0xFC0007FF⟩,
   ⟨"PMDADD", 0x8C000000, 0xFC0007FF⟩, ⟨"PNEG", 0x90000000, 0xFC00FFFF⟩, ⟨"PTOJ", 0x94000000, 0xFC00FFFF⟩,
   ⟨"PTOA", 0x98000000, 0xFC00FFFF⟩, ⟨"PTOM", 0x9C000000, 0xFC00FFFF⟩, ⟨"PFROM", 0xA0000000, 0xFC00FFFF⟩,
   ⟨"NAF", 0xC0000000, 0xFFE0FFF0⟩, ⟨"PTAB", 0xC4000000, 0xFFE0FFF0⟩, ⟨"SMUL", 0xC8000000, 0xFC0007DF⟩]

/-- Membership of a word in a row (R103). -/
def Row.admits (r : Row) (w : Word) : Bool := w &&& r.mask == r.pattern

/-- The mnemonic of a command, as the opcode table spells it (R103). -/
def mnemonic : Instr → String
  | .nop => "NOP"
  | .mov _ _ => "MOV"
  | .madd _ _ _ => "MADD"
  | .msub _ _ _ => "MSUB"
  | .mred _ _ => "MRED"
  | .minv _ _ _ => "MINV"
  | .binv _ _ _ _ => "BINV"
  | .mctx _ => "MCTX"
  | .mmul _ _ _ => "MMUL"
  | .mtom _ _ => "MTOM"
  | .mfrom _ _ => "MFROM"
  | .mexp _ _ _ => "MEXP"
  | .pmov _ _ => "PMOV"
  | .pdbl _ _ => "PDBL"
  | .pmadd _ _ _ => "PMADD"
  | .pmdadd _ _ _ => "PMDADD"
  | .pneg _ _ => "PNEG"
  | .ptoj _ _ => "PTOJ"
  | .ptoa _ _ => "PTOA"
  | .ptom _ _ => "PTOM"
  | .pfrom _ _ => "PFROM"
  | .naf _ _ => "NAF"
  | .ptab _ _ => "PTAB"
  | .smul _ _ _ _ => "SMUL"

/-- The reading of a command word given as the number that the opcode table numbers: its low `nbits` bits, all above them 0.
MMC's command is one 32-bit bus word taken as a number (R77), so no byte order enters. -/
def decodeTableWord (nbits w : Nat) : Option Instr :=
  match decode (BitVec.ofNat 32 (w % 2 ^ nbits)) with
  | .ok i => some i
  | .error _ => none

end Sys2Proof
end

