-- ==== Sys2Proof/Config.lean ====
section
/-! DEFINITION. What is fixed for one MMC: the sizes of R9, the identity values of R42 and R43, and the free values, which
no rule fixes (93_implementation_defined.md U1, U3, U6). A free value is an opaque constant: no proof can see what it is. -/

namespace Sys2Proof

namespace Config

/-- MAXD: digits per value register (R9). -/
abbrev maxd : Nat := 128
/-- NV: value registers (R9). -/
abbrev nv : Nat := 32
/-- NP: point registers (R9). -/
abbrev np : Nat := 8
/-- NT: precomputation-table entries (R9). -/
abbrev nt : Nat := 16
/-- NAFMAX: entries of the NAF buffer (R9). -/
abbrev nafMax : Nat := 4097
/-- WMIN: the smallest supported NAF window width (R9). -/
abbrev wMin : Nat := 2
/-- WMAX: the largest supported NAF window width (R9). -/
abbrev wMax : Nat := 6
/-- NB_MAX: the largest batch of BINV (R9). -/
abbrev nbMax : Nat := 32

/-- The ID register's value, ASCII "MMC1" (R42). -/
def idValue : Word := 0x4D4D4331

/-- The HWCFG register's value, put together from its fields [15:0] MAXD, [23:16] NV and [31:24] NP (R43). -/
def hwcfgValue : Word := BitVec.ofNat 32 (np * 2 ^ 24 + nv * 2 ^ 16 + maxd)

/-- The places whose content a rule leaves unspecified: the data words after a reset (R57, U1) and the word that a
busy-time read returns (R350, U3). -/
inductive FreeSlot where
  | vReg (i : VReg)
  | ptX (i : PReg) | ptY (i : PReg) | ptZ (i : PReg) | ptFlags (i : PReg)
  | tblX (j : Fin 16) | tblY (j : Fin 16) | tblFlags (j : Fin 16)
  | nafDigit (j : Fin 4097)
  | ctxM | ctxS | ctxMP | ctxR1 | ctxR2 | ctxR3
  | busRead
  deriving DecidableEq, Repr

/-- FREE VALUE (assumption log 3): the unspecified content of `width` bits drawn for `slot` at draw number `draw`. It has
no definition that a proof could use, so a claim holds whatever it is. -/
opaque unspecified (width draw : Nat) (slot : FreeSlot) : BitVec width

/-- MMC_BASE, the platform's base address of MMC's window (R322, U6): a parameter with no value here. -/
opaque mmcBase : Nat

/-- The address at which the host's own address space shows the window's offset `o` (R322). -/
def hostAddress (o : Offset) : Nat := mmcBase + o.toNat

end Config

end Sys2Proof
end

