-- ==== Sys2Proof/Machine/State.lean ====
section
/-! DEFINITION. The state of MMC as plain data (R30), its reset value (R57), and the reasons for which a step can stop. -/

namespace Sys2Proof.Machine

/-- A point register: three coordinates and the three FLAGS bits (R34). Reserved FLAGS bits read 0 and hold nothing. -/
structure Point where
  x : Value
  y : Value
  z : Value
  inf : Bool
  aff : Bool
  mont : Bool
  deriving DecidableEq, Repr

/-- A precomputation-table entry: an affine point without a Z word (R38). -/
structure TblEntry where
  x : Value
  y : Value
  inf : Bool
  aff : Bool
  mont : Bool
  deriving DecidableEq, Repr

/-- The Montgomery context CTX, field for field (R40). -/
structure Ctx where
  valid : Bool
  m : Value
  s : BitVec 8
  mp : Word
  r1 : Value
  r2 : Value
  r3 : Value
  deriving DecidableEq, Repr

/-- The kind of a bus transaction (R70). -/
inductive AccessKind where
  | read
  | write
  deriving DecidableEq, Repr

/-- The size of a bus transaction: 1, 2 or 4 bytes (R70). -/
inductive AccessSize where
  | one
  | two
  | four
  deriving DecidableEq, Repr

/-- A bus transaction `(kind, addr[16:0], size, wdata[31:0])` (R70). -/
structure Transaction where
  kind : AccessKind
  addr : Offset
  size : AccessSize
  wdata : Word
  deriving DecidableEq, Repr

/-- What can happen next at MMC (R305): the order of these events is the environment's, and the latency of a command is
the number of events that stand before its completion (R360, U5; assumption log 1). -/
inductive Event where
  /-- A bus transaction arrives. -/
  | bus (t : Transaction)
  /-- The engine reaches the end of its in-flight command, if it has one (R119). -/
  | completes
  /-- `rst_n` falls: MMC is held in reset (R340). -/
  | resetFalls
  /-- `rst_n` rises (R340). -/
  | resetRises
  deriving DecidableEq, Repr

/-- The response port of the bus, holding the response to the last transaction (R70). An ERROR carries no data, since its
rdata is meaningless (R81). -/
inductive Response where
  /-- No transaction yet. -/
  | quiet
  /-- OKAY to a read, with rdata. -/
  | okayRead (rdata : Word)
  /-- OKAY to a write. -/
  | okayWrite
  /-- ERROR (R80). -/
  | error
  deriving DecidableEq, Repr

/-- The state of MMC. The first part is the architectural state of R30: every register under its own name, stored once,
with STATUS, CTRL and CURVE held as the fields that are not reserved. STATUS.BUSY is `inFlight.isSome` (R110, R116,
R119), IRQ is derived (R55), and ID and HWCFG are constants of `Config`. The second part belongs to the model: the pin
`rst_n`, the events to come, the bus response port and the counter of free values (assumption log 1, 3). -/
structure State where
  /-- Value registers V[0..31] (R31). -/
  v : Vector Value 32
  /-- Point registers PT[0..7] (R34). -/
  pt : Vector Point 8
  /-- Precomputation table TBL[0..15] (R38). -/
  tbl : Vector TblEntry 16
  /-- NAF buffer NAF[0..4096], each a 32-bit two's-complement word (R39). -/
  naf : Vector Word 4097
  /-- NAFLEN, the 13 bits of R51. -/
  nafLen : BitVec 13
  /-- The Montgomery context (R40). -/
  ctx : Ctx
  /-- CTRL.IE (R44). -/
  ie : Bool
  /-- STATUS.DONE (R45). -/
  done : Bool
  /-- STATUS.ERR (R45). -/
  err : Bool
  /-- STATUS.HAZ (R45). -/
  haz : Bool
  /-- STATUS.ERRCODE (R45). -/
  errCode : BitVec 4
  /-- CURVE.AZERO (R48). -/
  azero : Bool
  /-- CURVE.ORD (R48). -/
  ord : VReg
  /-- INFLIGHT: the command word of the in-flight command (R53, R116); its operand values are the registers themselves,
  which nothing changes while it is in flight (assumption log 2). -/
  inFlight : Option Word
  /-- The input `rst_n`: true is high, false is low, held in reset (R70, R340). -/
  rstN : Bool
  /-- The events to come, the next one first (assumption log 1). -/
  schedule : List Event
  /-- The bus response port (R70). -/
  response : Response
  /-- How many free values have been drawn (assumption log 3). -/
  draws : Nat
  deriving DecidableEq, Repr

/-- Reasons for a fault. MMC has none: a command error is a completion (R300, R307), and a bus error is a response (R306). -/
inductive Fault where
  deriving DecidableEq, Repr

/-- Reasons for a refusal. -/
inductive Refusal where
  /-- An instruction without a meaning yet, raised by an arm of `exec`; safe. No arm raises it. -/
  | notModelled (mnemonic : String)
  /-- A bus transaction while `rst_n` is low, raised by `busAccess`: no response is defined (R340, U4); safe. -/
  | busInReset
  deriving DecidableEq, Repr

/-- The point of all-zero words, which a point register holds after reset in this model (assumption log 4). -/
def Point.zero : Point := { x := 0, y := 0, z := 0, inf := false, aff := false, mont := false }

/-- The table entry of all-zero words (assumption log 4). -/
def TblEntry.zero : TblEntry := { x := 0, y := 0, inf := false, aff := false, mont := false }

/-- The context right after reset: VALID = 0 as R57 says; the other fields, unspecified there, are 0 (assumption log 4). -/
def Ctx.cleared : Ctx := { valid := false, m := 0, s := 0, mp := 0, r1 := 0, r2 := 0, r3 := 0 }

/-- The machine right after hardware reset (R57, R340). V, PT, TBL, NAF and the CTX data fields, which R57 leaves
unspecified, hold 0 (assumption log 4, DESIGN CHOICE). -/
def State.reset : State :=
  { v := Vector.replicate 32 0, pt := Vector.replicate 8 Point.zero, tbl := Vector.replicate 16 TblEntry.zero,
    naf := Vector.replicate 4097 0, nafLen := 0, ctx := Ctx.cleared,
    ie := false, done := false, err := false, haz := false, errCode := 0, azero := false, ord := 0,
    inFlight := none, rstN := true, schedule := [], response := .quiet, draws := 0 }

end Sys2Proof.Machine
end

