-- ==== Sys2Proof/Machine/Arith.lean ====
section
/-! DEFINITION. The arithmetic the commands share, on unbounded natural numbers (R11): digits, bit lengths, the modular
inverse (R16, R150, R151), the constants of a context (R170, R171), Montgomery multiplication (R172), exponentiation by
2-bit windows (R178) and the width-w NAF (R260). -/

namespace Sys2Proof.Machine

/-! ### Digits and lengths -/

/-- `bitlen(0) = 0`, and otherwise `floor(log2 x) + 1` (R11). -/
def bitLen (x : Nat) : Nat := if x = 0 then 0 else Nat.log2 x + 1

/-- `S(x) = max(1, ceil(bitlen(x) / 32))`, the number of digits of a modulus (R8). -/
def digitCount (x : Nat) : Nat := max 1 ((bitLen x + 31) / 32)

/-- `digit(x, j) = (x div 2^(32·j)) mod 2^32` (R13). -/
def digit (x : Value) (j : Nat) : Word := BitVec.ofNat 32 (x.toNat / 2 ^ (32 * j))

/-- `x` with digit `j` replaced by `d` and every other digit kept (R72). -/
def setDigit (x : Value) (j : Nat) (d : Word) : Value :=
  BitVec.ofNat 4096
    (x.toNat / 2 ^ (32 * (j + 1)) * 2 ^ (32 * (j + 1)) + d.toNat * 2 ^ (32 * j) + x.toNat % 2 ^ (32 * j))

/-- The Montgomery radix R = 2^(32·s) of a context of `s` digits (R8, R172). -/
def radix (s : Nat) : Nat := 2 ^ (32 * s)

/-! ### The modular inverse -/

/-- The loop of the reference EEA: `(u1, u3, odd)` when v3 has reached 0 (R151). `fuel` bounds the number of rounds. -/
def eeaLoop : (fuel u1 u3 v1 v3 : Nat) → (odd : Bool) → Nat × Nat × Bool
  | 0, u1, u3, _, _, odd => (u1, u3, odd)
  | fuel + 1, u1, u3, v1, v3, odd =>
    if v3 = 0 then (u1, u3, odd) else eeaLoop fuel v1 v3 (u1 + u3 / v3 * v1) (u3 % v3) (!odd)

/-- `eea_inv(a, n)`, for a < n and n ≥ 2: the inverse of a modulo n, and none (the ⊥ of R151) when gcd(a, n) ≠ 1. The
remainder at least halves in two rounds, so twice the bit length of n, and one round more, are enough. -/
def eeaInv (a n : Nat) : Option Nat :=
  match eeaLoop (2 * bitLen n + 2) 1 a 0 n false with
  | (u1, u3, odd) => if u3 ≠ 1 then none else some (if odd then n - u1 else u1)

/-- `inv(a, n)` of R16 as the EEA gives it (R150, R151); no rule uses it where gcd(a, n) ≠ 1. -/
def inv (a n : Nat) : Nat := (eeaInv a n).getD 0

/-! ### The constants of a context -/

/-- The recurrence for y = m0⁻¹ mod 2^i, one step for each i from `i` on (R171). -/
def mPrimeLoop (m0 : Nat) : (steps i y : Nat) → Nat
  | 0, _, y => y
  | steps + 1, i, y => mPrimeLoop m0 steps (i + 1) (if m0 * y % 2 ^ i = 1 then y else y + 2 ^ (i - 1))

/-- m′ = (−m⁻¹) mod 2^32 of an odd m, by the recurrence of R171 for i = 2..32. -/
def mPrime (m : Nat) : Nat := (2 ^ 32 - mPrimeLoop (m % 2 ^ 32) 31 2 1) % 2 ^ 32

/-- The context that MCTX loads for the modulus `m` (R170). -/
def contextFor (m : Value) : Ctx :=
  let n := m.toNat
  let r := radix (digitCount n)
  { valid := true, m := m, s := BitVec.ofNat 8 (digitCount n), mp := BitVec.ofNat 32 (mPrime n),
    r1 := BitVec.ofNat 4096 (r % n), r2 := BitVec.ofNat 4096 (r ^ 2 % n), r3 := BitVec.ofNat 4096 (r ^ 3 % n) }

/-! ### Arithmetic modulo CTX.M -/

/-- What the arithmetic of a command needs of the context and of CURVE, as numbers: p = CTX.M, R⁻¹ mod p, the three powers
of R mod p, and CURVE.AZERO (R16, R200, R205). -/
structure FieldCtx where
  p : Nat
  rInv : Nat
  r1 : Nat
  r2 : Nat
  r3 : Nat
  azero : Bool
  deriving DecidableEq, Repr

/-- The numbers of a context; R⁻¹ is the inverse of R = 2^(32·CTX.S) modulo CTX.M (R172). -/
def Ctx.field (c : Ctx) (azero : Bool) : FieldCtx :=
  let p := c.m.toNat
  { p := p, rInv := inv (radix c.s.toNat % p) p, r1 := c.r1.toNat, r2 := c.r2.toNat, r3 := c.r3.toNat, azero := azero }

/-- `MontMul(a, b) = a · b · R⁻¹ mod m` (R16, R172). -/
def montMul (f : FieldCtx) (a b : Nat) : Nat := a * b * f.rInv % f.p

/-- `fadd(a, b) = (a + b) mod p` (R200). -/
def fadd (f : FieldCtx) (a b : Nat) : Nat := (a + b) % f.p

/-- `fsub(a, b) = (a − b) mod p`, the least non-negative residue (R11, R200). -/
def fsub (f : FieldCtx) (a b : Nat) : Nat := (a + (f.p - b % f.p)) % f.p

/-- `k·x = (k · x) mod p` for a small constant k (R200). -/
def fscale (f : FieldCtx) (k x : Nat) : Nat := k * x % f.p

/-- `fmul_D(a, b)`: MontMul when D = 1, and (a · b) mod p when D = 0 (R200). -/
def fmul (f : FieldCtx) (mont : Bool) (a b : Nat) : Nat := if mont then montMul f a b else a * b % f.p

/-- `one_D`: CTX.R1 when D = 1, and 1 when D = 0 (R200). -/
def fone (f : FieldCtx) (mont : Bool) : Nat := if mont then f.r1 else 1

/-! ### Exponentiation -/

/-- The window loop of R178 for the windows below `i`, most significant first; `tab` is base^0..base^3. -/
def mexpLoop (f : FieldCtx) (tab : Nat × Nat × Nat × Nat) (e : Nat) : (i acc : Nat) → Nat
  | 0, acc => acc
  | i + 1, acc =>
    let acc2 := montMul f acc acc
    let acc4 := montMul f acc2 acc2
    let entry := match e / 4 ^ i % 4 with
      | 0 => tab.1
      | 1 => tab.2.1
      | 2 => tab.2.2.1
      | _ => tab.2.2.2
    mexpLoop f tab e i (montMul f acc4 entry)

/-- b^e mod m by the fixed 2-bit windows of R178, for b < m. -/
def mexp (f : FieldCtx) (b e : Nat) : Nat :=
  let bM := montMul f b f.r2
  let sq := montMul f bM bM
  montMul f (mexpLoop f (f.r1, bM, sq, montMul f sq bM) e ((bitLen e + 1) / 2) f.r1) 1

/-! ### The width-w NAF -/

/-- The digits of `wNAF(k, w)`, least significant first (R260). `fuel` bounds their number. -/
def wnafLoop (w : Nat) : (fuel k : Nat) → List Int
  | 0, _ => []
  | fuel + 1, k =>
    if k = 0 then []
    else if k % 2 = 1 then
      let d := k % 2 ^ w
      if 2 ^ (w - 1) ≤ d then ((d : Int) - 2 ^ w) :: wnafLoop w fuel ((k + (2 ^ w - d)) / 2)
      else (d : Int) :: wnafLoop w fuel ((k - d) / 2)
    else 0 :: wnafLoop w fuel (k / 2)

/-- `wNAF(k, w)` (R260): at most bitlen(k) + 1 digits for w ≥ 2 (R263). -/
def wnaf (k w : Nat) : List Int := wnafLoop w (bitLen k + 1) k

end Sys2Proof.Machine
end

