-- ==== Sys2Proof/Machine/Ops.lean ====
section
/-! DEFINITION. The named operations over the state: reading and writing each register file, the issue and the completion of
a command (R116, R119), the ending of a command with an error, which is what MMC has in place of an exception (R300, R307),
and reset (R340, R341). -/

namespace Sys2Proof.Machine

/-! ### Registers -/

/-- The contents of value register `i` (R31). -/
def State.getV (s : State) (i : VReg) : Value := s.v[i.val]

/-- The number value register `i` holds: all 128 digits count (R33). -/
def State.valV (s : State) (i : VReg) : Nat := (s.getV i).toNat

/-- `V[i] <- x` with the register's contents given (R14). -/
def State.putV (s : State) (i : VReg) (x : Value) : State := { s with v := s.v.set i.val x }

/-- `V[i] <- n` with a number given; every number a command writes is below 2^4096 (R137). -/
def State.setV (s : State) (i : VReg) (n : Nat) : State := s.putV i (BitVec.ofNat 4096 n)

/-- The register `k` places after `first`, as BINV counts them (R155). It is taken modulo 32, which decode never makes use
of: a range past V31 is E_OPERAND (R105). -/
def regPlus (first : VReg) (k : Nat) : VReg := ⟨(first.val + k) % 32, Nat.mod_lt _ (by decide)⟩

/-- The numbers in the `n` registers from `first` (R155). -/
def State.valRange (s : State) (first : VReg) : (n : Nat) → List Nat
  | 0 => []
  | n + 1 => s.valRange first n ++ [s.valV (regPlus first n)]

/-- The registers from `first + k` on, written with `ys` in order (R155). -/
def State.setRange (s : State) (first : VReg) : (k : Nat) → (ys : List Nat) → State
  | _, [] => s
  | k, y :: ys => (s.setV (regPlus first k) y).setRange first (k + 1) ys

/-- The record in point register `i` (R14, R34). -/
def State.getPT (s : State) (i : PReg) : Point := s.pt[i.val]

/-- `PT[i] <- P`, every field (R14). -/
def State.setPT (s : State) (i : PReg) (p : Point) : State := { s with pt := s.pt.set i.val p }

/-- `TBL[j]` (R14, R38). -/
def State.getTbl (s : State) (j : Fin 16) : TblEntry := s.tbl[j.val]

/-- `NAF[j]` (R14, R39). -/
def State.getNaf (s : State) (j : Fin 4097) : Word := s.naf[j.val]

/-- The vector `old` with its first entries replaced by `new`, as far as there is room. -/
def overwrite {α : Type} {n : Nat} (old : Vector α n) (new : List α) : Vector α n :=
  ⟨((new ++ old.toList.drop new.length).take n).toArray, by simp; omega⟩

/-- `TBL[0..] <- T`: the entries past the list's end are left unchanged (R266, R274). -/
def State.setTbl (s : State) (t : List TblEntry) : State := { s with tbl := overwrite s.tbl t }

/-- The NAF buffer's new contents: `NAF[j] <- sext_32(d_j)` for the digits, `NAFLEN <- L`, and the entries from L on left
unchanged (R262). -/
def State.setNaf (s : State) (ds : List Int) : State :=
  { s with naf := overwrite s.naf (ds.map (BitVec.ofInt 32)), nafLen := BitVec.ofNat 13 ds.length }

/-- `CTX <- c` (R170). -/
def State.setCtx (s : State) (c : Ctx) : State := { s with ctx := c }

/-- The numbers of the context and of CURVE.AZERO for the arithmetic of a command (R200, R205). -/
def State.field (s : State) : FieldCtx := s.ctx.field s.azero

/-- p = CTX.M as a number (R200). -/
def State.modulus (s : State) : Nat := s.ctx.m.toNat

/-! ### The life of a command -/

/-- STATUS.BUSY: a command is in flight (R45, R110). -/
def State.busy (s : State) : Bool := s.inFlight.isSome

/-- Issue of the word `c`: INFLIGHT holds it, BUSY is 1, and DONE, ERR and ERRCODE are cleared (R116). HAZ and CTRL stay. -/
def State.issue (s : State) (c : Word) : State :=
  { s with inFlight := some c, done := false, err := false, errCode := 0 }

/-- The completion step of a command that succeeded, its writes already made: ERRCODE is 0, DONE is 1, BUSY is 0 (R119). -/
def State.completeOk (s : State) : State := { s with errCode := 0, done := true, inFlight := none }

/-- The code of an error in STATUS.ERRCODE (R301). -/
def CmdError.code : CmdError → BitVec 4
  | .illegal => 1
  | .operand => 2
  | .noctx => 3
  | .ptstate => 4
  | .range => 5
  | .modulus => 6
  | .width => 7
  | .noinv => 8

/-- The completion step of a command that raised `e`: ERR is 1, ERRCODE is its code, DONE is 1, BUSY is 0, and nothing else
changes (R119, R300). -/
def State.completeErr (s : State) (e : CmdError) : State :=
  { s with err := true, errCode := CmdError.code e, done := true, inFlight := none }

/-- A command that succeeds with its writes made in `s`. -/
def succeed (s : State) : Host.Outcome State Fault Refusal := .next s.completeOk

/-- `raise E_X`: the one way a command ends with an error (R15, R300). MMC takes no trap: nothing is saved and there is no
handler address (R307). -/
def raise (e : CmdError) (s : State) : Host.Outcome State Fault Refusal := .next (s.completeErr e)

/-! ### Acknowledgement: what MMC has in place of a return (R308) -/

/-- A write of `w` to STATUS: a 1 in bit 1 clears DONE, a 1 in bit 2 clears ERR and ERRCODE, a 1 in bit 3 clears HAZ, and
every other bit is ignored (R46). -/
def State.ackStatus (s : State) (w : Word) : State :=
  { s with
    done := s.done && !w.getLsbD 1
    err := s.err && !w.getLsbD 2
    errCode := if w.getLsbD 2 then 0 else s.errCode
    haz := s.haz && !w.getLsbD 3 }

/-! ### Reset -/

/-- A point register after a reset: every word unspecified (R57). -/
def freePoint (n : Nat) (i : PReg) : Point :=
  let flags := Config.unspecified 3 n (.ptFlags i)
  { x := Config.unspecified 4096 n (.ptX i), y := Config.unspecified 4096 n (.ptY i),
    z := Config.unspecified 4096 n (.ptZ i),
    inf := flags.getLsbD 0, aff := flags.getLsbD 1, mont := flags.getLsbD 2 }

/-- A table entry after a reset: every word unspecified (R57). -/
def freeTblEntry (n : Nat) (j : Fin 16) : TblEntry :=
  let flags := Config.unspecified 3 n (.tblFlags j)
  { x := Config.unspecified 4096 n (.tblX j), y := Config.unspecified 4096 n (.tblY j),
    inf := flags.getLsbD 0, aff := flags.getLsbD 1, mont := flags.getLsbD 2 }

/-- The context after a reset: VALID = 0 and the other fields unspecified (R57, R342). -/
def freeCtx (n : Nat) : Ctx :=
  { valid := false, m := Config.unspecified 4096 n .ctxM, s := Config.unspecified 8 n .ctxS,
    mp := Config.unspecified 32 n .ctxMP, r1 := Config.unspecified 4096 n .ctxR1,
    r2 := Config.unspecified 4096 n .ctxR2, r3 := Config.unspecified 4096 n .ctxR3 }

/-- The vector of the values of `g`. -/
def tabulate {α : Type} {n : Nat} (g : Fin n → α) : Vector α n := ⟨(List.ofFn g).toArray, by simp⟩

/-- The state change of both resets (R57, R340, R341): the control state takes the values of R57, no command is in flight,
and every data word takes an unspecified value, one fixed value per word until something writes it (R58, R342). -/
def State.applyReset (s : State) : State :=
  { s with
    v := tabulate fun i => Config.unspecified 4096 s.draws (.vReg i)
    pt := tabulate (freePoint s.draws)
    tbl := tabulate (freeTblEntry s.draws)
    naf := tabulate fun j => Config.unspecified 32 s.draws (.nafDigit j)
    nafLen := 0
    ctx := freeCtx s.draws
    ie := false
    done := false
    err := false
    haz := false
    errCode := 0
    azero := false
    ord := 0
    inFlight := none
    draws := s.draws + 1 }

end Sys2Proof.Machine
end

