-- ==== Sys2Proof/Machine/Flags.lean ====
section
/-! DEFINITION. The flags and status words: the FLAGS word of a point (R34, R73), the words that CTRL, STATUS, CURVE,
CTXSTAT, CTXMP and NAFLEN read as (R44–R51), and the interrupt output (R55). MMC has no condition codes (R54). -/

namespace Sys2Proof.Machine

/-- A bit as a number. -/
def bitNat (b : Bool) : Nat := if b then 1 else 0

/-- The FLAGS word `{29'b0, MONT, AFF, INF}` (R73, R74). -/
def flagsWord (inf aff mont : Bool) : Word := BitVec.ofNat 32 (bitNat inf + 2 * bitNat aff + 4 * bitNat mont)

/-- A point after a write of `w` to its FLAGS word: INF = w[0], AFF = w[1], MONT = w[2], the rest ignored (R73). -/
def Point.withFlags (p : Point) (w : Word) : Point :=
  { p with inf := w.getLsbD 0, aff := w.getLsbD 1, mont := w.getLsbD 2 }

/-- The word CTRL reads as: IE at bit 0; SRST reads 0 (R44). -/
def State.ctrlWord (s : State) : Word := BitVec.ofNat 32 (bitNat s.ie)

/-- The word STATUS reads as: BUSY, DONE, ERR and HAZ at bits 0..3, ERRCODE at bits 11..8, the rest 0 (R45). -/
def State.statusWord (s : State) : Word :=
  BitVec.ofNat 32
    (bitNat s.busy + 2 * bitNat s.done + 4 * bitNat s.err + 8 * bitNat s.haz + 2 ^ 8 * s.errCode.toNat)

/-- The word CURVE reads as: AZERO at bit 0, ORD at bits 12..8 (R48). -/
def State.curveWord (s : State) : Word := BitVec.ofNat 32 (bitNat s.azero + 2 ^ 8 * s.ord.val)

/-- CURVE after a write of `w`: AZERO = w[0], ORD = w[12:8], the rest ignored (R48). -/
def State.setCurve (s : State) (w : Word) : State :=
  { s with azero := w.getLsbD 0, ord := ⟨w.toNat / 2 ^ 8 % 32, Nat.mod_lt _ (by decide)⟩ }

/-- The word CTXSTAT reads as: VALID at bit 0, and S at bits 15..8 when VALID = 1 (R49). -/
def State.ctxStatWord (s : State) : Word :=
  if s.ctx.valid then BitVec.ofNat 32 (1 + 2 ^ 8 * s.ctx.s.toNat) else 0

/-- The word CTXMP reads as: MP when VALID = 1, and 0 otherwise (R50). -/
def State.ctxMpWord (s : State) : Word := if s.ctx.valid then s.ctx.mp else 0

/-- The word NAFLEN reads as: NAFLEN at bits 12..0 (R51). -/
def State.nafLenWord (s : State) : Word := BitVec.ofNat 32 s.nafLen.toNat

/-- The interrupt output: CTRL.IE AND STATUS.DONE, a level (R55, R310). -/
def State.irq (s : State) : Bool := s.ie && s.done

end Sys2Proof.Machine
end

