-- ==== Sys2Proof/Machine/Bus.lean ====
section
/-! DEFINITION. The host's window on MMC: the address map (R71), the bus errors (R78–R81), reads and writes of a location
(R72–R75, R82, R83), and the busy-time rules (R350). Every location is a view of a register that State holds once; MMC has
no memory beside them. -/

namespace Sys2Proof.Machine

/-- The context fields that the context window shows (R71). -/
inductive CtxField where
  | m
  | r1
  | r2
  | r3
  deriving DecidableEq, Repr

/-- The coordinates of a point register (R34). -/
inductive Coord where
  | x
  | y
  | z
  deriving DecidableEq, Repr

/-- The coordinates of a table entry (R38). -/
inductive TblCoord where
  | x
  | y
  deriving DecidableEq, Repr

/-- The locations of the window, one for each row of R71 and each index it ranges over. -/
inductive Loc where
  | id
  | hwcfg
  | ctrl
  | status
  | cmd
  | curve
  | ctxStat
  | ctxMp
  | nafLen
  | ctxDigit (f : CtxField) (j : Fin 128)
  | vDigit (i : VReg) (j : Fin 128)
  | ptDigit (i : PReg) (c : Coord) (j : Fin 128)
  | ptFlags (i : PReg)
  | tblDigit (i : Fin 16) (c : TblCoord) (j : Fin 128)
  | tblFlags (i : Fin 16)
  | nafDigit (j : Fin 4097)
  deriving DecidableEq, Repr

/-! ### The address map -/

/-- The digit index of an aligned offset inside a 0x200-byte block (R71). -/
def digitIndex (a : Nat) : Fin 128 := Fin.ofNat 128 (a / 4)

/-- The control and status registers, by word offset (R71). -/
def csrAt (a : Nat) : Option Loc :=
  match a / 4 with
  | 0 => some .id
  | 1 => some .hwcfg
  | 2 => some .ctrl
  | 3 => some .status
  | 4 => some .cmd
  | 5 => some .curve
  | 6 => some .ctxStat
  | 7 => some .ctxMp
  | 8 => some .nafLen
  | _ => none

/-- The context window: four blocks of 128 digits from 0x00800 (R71). -/
def ctxAt (a : Nat) : Loc :=
  match (a - 0x800) / 0x200 with
  | 0 => .ctxDigit .m (digitIndex a)
  | 1 => .ctxDigit .r1 (digitIndex a)
  | 2 => .ctxDigit .r2 (digitIndex a)
  | _ => .ctxDigit .r3 (digitIndex a)

/-- The PT window: a 0x800-byte block for each register, with X, Y, Z and the FLAGS word (R71). -/
def ptAt (a : Nat) : Option Loc :=
  let i : PReg := Fin.ofNat 8 ((a - 0x5000) / 0x800)
  let r := (a - 0x5000) % 0x800
  if r < 0x200 then some (.ptDigit i .x (digitIndex r))
  else if r < 0x400 then some (.ptDigit i .y (digitIndex r))
  else if r < 0x600 then some (.ptDigit i .z (digitIndex r))
  else if r < 0x604 then some (.ptFlags i)
  else none

/-- The TBL window: a 0x800-byte block for each entry, with X, Y and the FLAGS word (R71). -/
def tblAt (a : Nat) : Option Loc :=
  let i : Fin 16 := Fin.ofNat 16 ((a - 0x9000) / 0x800)
  let r := (a - 0x9000) % 0x800
  if r < 0x200 then some (.tblDigit i .x (digitIndex r))
  else if r < 0x400 then some (.tblDigit i .y (digitIndex r))
  else if r < 0x404 then some (.tblFlags i)
  else none

/-- The location at the aligned offset `a`; none where R71 lists nothing: the offset is reserved. -/
def Loc.ofOffset (a : Nat) : Option Loc :=
  if a < 0x24 then csrAt a
  else if a < 0x800 then none
  else if a < 0x1000 then some (ctxAt a)
  else if a < 0x5000 then some (.vDigit (Fin.ofNat 32 ((a - 0x1000) / 0x200)) (digitIndex a))
  else if a < 0x9000 then ptAt a
  else if a < 0x11000 then tblAt a
  else if a < 0x18000 then none
  else if a < 0x1C004 then some (.nafDigit (Fin.ofNat 4097 ((a - 0x18000) / 4)))
  else none

/-- The offset of a context field's block within the context window (R71). -/
def CtxField.block : CtxField → Nat
  | .m => 0x000
  | .r1 => 0x200
  | .r2 => 0x400
  | .r3 => 0x600

/-- The offset of a coordinate's block within a point register's (R71). -/
def Coord.block : Coord → Nat
  | .x => 0x000
  | .y => 0x200
  | .z => 0x400

/-- The offset of a coordinate's block within a table entry's (R71). -/
def TblCoord.block : TblCoord → Nat
  | .x => 0x000
  | .y => 0x200

/-- The offset of each location, as the rows of R71 give it. -/
def Loc.offset : Loc → Nat
  | .id => 0x00000
  | .hwcfg => 0x00004
  | .ctrl => 0x00008
  | .status => 0x0000C
  | .cmd => 0x00010
  | .curve => 0x00014
  | .ctxStat => 0x00018
  | .ctxMp => 0x0001C
  | .nafLen => 0x00020
  | .ctxDigit f j => 0x00800 + f.block + 4 * j.val
  | .vDigit i j => 0x01000 + 0x200 * i.val + 4 * j.val
  | .ptDigit i c j => 0x05000 + 0x800 * i.val + c.block + 4 * j.val
  | .ptFlags i => 0x05000 + 0x800 * i.val + 0x600
  | .tblDigit i c j => 0x09000 + 0x800 * i.val + c.block + 4 * j.val
  | .tblFlags i => 0x09000 + 0x800 * i.val + 0x400
  | .nafDigit j => 0x18000 + 4 * j.val

/-! ### Bus errors -/

/-- The reasons of R80 for an ERROR response, in its order. -/
inductive BusError where
  | size
  | misaligned
  | reserved
  | readOnly
  deriving DecidableEq, Repr

/-- The read-only locations of R80, item 4. -/
def Loc.readOnly : Loc → Bool
  | .id => true
  | .hwcfg => true
  | .ctrl => false
  | .status => false
  | .cmd => false
  | .curve => false
  | .ctxStat => true
  | .ctxMp => true
  | .nafLen => true
  | .ctxDigit _ _ => true
  | .vDigit _ _ => false
  | .ptDigit _ _ _ => false
  | .ptFlags _ => false
  | .tblDigit _ _ _ => true
  | .tblFlags _ => true
  | .nafDigit _ => true

/-- The location a transaction reaches, or the first reason of R80 for an ERROR response. -/
def busCheck (t : Transaction) : Except BusError Loc :=
  if t.size ≠ .four then .error .size
  else if t.addr.toNat % 4 ≠ 0 then .error .misaligned
  else
    match Loc.ofOffset t.addr.toNat with
    | none => .error .reserved
    | some l => if t.kind = .write ∧ l.readOnly then .error .readOnly else .ok l

/-! ### Reads -/

/-- The contents of a context field (R40). -/
def Ctx.get (c : Ctx) : CtxField → Value
  | .m => c.m
  | .r1 => c.r1
  | .r2 => c.r2
  | .r3 => c.r3

/-- The contents of a coordinate (R34). -/
def Point.get (p : Point) : Coord → Value
  | .x => p.x
  | .y => p.y
  | .z => p.z

/-- The contents of a table entry's coordinate (R38). -/
def TblEntry.get (e : TblEntry) : TblCoord → Value
  | .x => e.x
  | .y => e.y

/-- The word that a location reads as while idle (R42–R51, R72–R75). -/
def State.readLoc (s : State) : Loc → Word
  | .id => Config.idValue
  | .hwcfg => Config.hwcfgValue
  | .ctrl => s.ctrlWord
  | .status => s.statusWord
  | .cmd => 0
  | .curve => s.curveWord
  | .ctxStat => s.ctxStatWord
  | .ctxMp => s.ctxMpWord
  | .nafLen => s.nafLenWord
  | .ctxDigit f j => if s.ctx.valid then digit (s.ctx.get f) j.val else 0
  | .vDigit i j => digit (s.getV i) j.val
  | .ptDigit i c j => digit ((s.getPT i).get c) j.val
  | .ptFlags i => flagsWord (s.getPT i).inf (s.getPT i).aff (s.getPT i).mont
  | .tblDigit i c j => digit ((s.getTbl i).get c) j.val
  | .tblFlags i => flagsWord (s.getTbl i).inf (s.getTbl i).aff (s.getTbl i).mont
  | .nafDigit j => s.getNaf j

/-- The locations that read exactly also while busy (R350). -/
def Loc.readableBusy : Loc → Bool
  | .id => true
  | .hwcfg => true
  | .ctrl => true
  | .status => true
  | .cmd => true
  | .curve => true
  | .ctxStat => false
  | .ctxMp => false
  | .nafLen => false
  | .ctxDigit _ _ => false
  | .vDigit _ _ => false
  | .ptDigit _ _ _ => false
  | .ptFlags _ => false
  | .tblDigit _ _ _ => false
  | .tblFlags _ => false
  | .nafDigit _ => false

/-- An accepted read: the location's word, with no side effect (R82); while busy, a data or context location returns an
unspecified word and sets HAZ (R350, U3). -/
def State.busRead (s : State) (l : Loc) : State :=
  if s.busy && !l.readableBusy then
    { s with haz := true, response := .okayRead (Config.unspecified 32 s.draws .busRead), draws := s.draws + 1 }
  else { s with response := .okayRead (s.readLoc l) }

/-! ### Writes -/

/-- A point with digit `j` of a coordinate replaced (R73). -/
def Point.setCoordDigit (p : Point) (c : Coord) (j : Nat) (w : Word) : Point :=
  match c with
  | .x => { p with x := setDigit p.x j w }
  | .y => { p with y := setDigit p.y j w }
  | .z => { p with z := setDigit p.z j w }

/-- A write to CTRL: with bit 1 (SRST) set a soft reset, all other bits ignored (R341); otherwise IE = bit 0 (R44). -/
def State.writeCtrl (s : State) (w : Word) : State :=
  if w.getLsbD 1 then s.applyReset else { s with ie := w.getLsbD 0 }

/-- The effect of an accepted write of `w` while idle (R44, R46–R48, R72, R73, R83). A read-only location, which R80 has
already turned away, keeps its value. -/
def State.writeLoc (s : State) (w : Word) : Loc → State
  | .id => s
  | .hwcfg => s
  | .ctrl => s.writeCtrl w
  | .status => s.ackStatus w
  | .cmd => s.issue w
  | .curve => s.setCurve w
  | .ctxStat => s
  | .ctxMp => s
  | .nafLen => s
  | .ctxDigit _ _ => s
  | .vDigit i j => s.putV i (setDigit (s.getV i) j.val w)
  | .ptDigit i c j => s.setPT i ((s.getPT i).setCoordDigit c j.val w)
  | .ptFlags i => s.setPT i ((s.getPT i).withFlags w)
  | .tblDigit _ _ _ => s
  | .tblFlags _ => s
  | .nafDigit _ => s

/-- The locations whose write is dropped while busy: CMD, CURVE and the V and PT windows (R350). -/
def Loc.droppedBusy : Loc → Bool
  | .id => false
  | .hwcfg => false
  | .ctrl => false
  | .status => false
  | .cmd => true
  | .curve => true
  | .ctxStat => false
  | .ctxMp => false
  | .nafLen => false
  | .ctxDigit _ _ => false
  | .vDigit _ _ => true
  | .ptDigit _ _ _ => true
  | .ptFlags _ => true
  | .tblDigit _ _ _ => false
  | .tblFlags _ => false
  | .nafDigit _ => false

/-- An accepted write: its effect (R83), or, while busy and to a location of R350, only HAZ. The response is OKAY: a dropped
write is no bus error (R80, R350). -/
def State.busWrite (s : State) (l : Loc) (w : Word) : State :=
  if s.busy && l.droppedBusy then { s with haz := true, response := .okayWrite }
  else { s.writeLoc w l with response := .okayWrite }

/-! ### Transactions -/

/-- A bus transaction (R70). An ERROR changes nothing but the response (R81); while `rst_n` is low no response is defined
(R340, U4). -/
def busAccess (t : Transaction) (s : State) : Host.Outcome State Fault Refusal :=
  if !s.rstN then .refused .busInReset
  else
    match busCheck t with
    | .error _ => .next { s with response := .error }
    | .ok l =>
      match t.kind with
      | .read => .next (s.busRead l)
      | .write => .next (s.busWrite l t.wdata)

end Sys2Proof.Machine
end

