-- ==== Sys2Proof/Machine/Operands.lean ====
section
/-! DEFINITION. The operand checks that commands share, each in the order of R304: a valid context (R135, R174), reduced
value operands (R136, R174), and the state and range checks of point operands (R202, R302). -/

namespace Sys2Proof.Machine

/-- E_NOCTX when CTX.VALID = 0, and `k` otherwise (R135, R174, R202). -/
def needCtx (s : State) (k : Host.Outcome State Fault Refusal) : Host.Outcome State Fault Refusal :=
  if s.ctx.valid then k else raise .noctx s

/-- A context, then E_RANGE unless `a` is below CTX.M; `k` otherwise (R174). -/
def needBelow (s : State) (a : Nat) (k : Host.Outcome State Fault Refusal) : Host.Outcome State Fault Refusal :=
  needCtx s (if s.modulus ≤ a then raise .range s else k)

/-- A context, then E_RANGE unless both `a` and `b` are below CTX.M; `k` otherwise (R136, R174). -/
def needBothBelow (s : State) (a b : Nat) (k : Host.Outcome State Fault Refusal) : Host.Outcome State Fault Refusal :=
  needCtx s (if s.modulus ≤ a ∨ s.modulus ≤ b then raise .range s else k)

/-- A requirement on a point operand's AFF and MONT; none where R302 asks nothing. -/
structure PointNeed where
  aff : Option Bool
  mont : Option Bool
  deriving DecidableEq, Repr

/-- No state requirement (PNEG, R302). -/
def PointNeed.any : PointNeed := { aff := none, mont := none }
/-- Jacobian and Montgomery (R302). -/
def PointNeed.jacobianMont : PointNeed := { aff := some false, mont := some true }
/-- Affine and Montgomery (R302). -/
def PointNeed.affineMont : PointNeed := { aff := some true, mont := some true }
/-- Affine, in either domain (R302). -/
def PointNeed.affine : PointNeed := { aff := some true, mont := none }
/-- Jacobian, in either domain (R302). -/
def PointNeed.jacobian : PointNeed := { aff := some false, mont := none }
/-- In the standard domain, affine or Jacobian (R302). -/
def PointNeed.standard : PointNeed := { aff := none, mont := some false }
/-- In the Montgomery domain, affine or Jacobian (R302). -/
def PointNeed.montgomery : PointNeed := { aff := none, mont := some true }

/-- The operand has the flags that the requirement asks; INF plays no part (R302). -/
def PointNeed.metBy (n : PointNeed) (p : Point) : Bool :=
  (match n.aff with | none => true | some b => p.aff == b) && (match n.mont with | none => true | some b => p.mont == b)

/-- The range check of R202: a finite operand has X and Y below p, and Z too when it is Jacobian. -/
def Point.inRange (p : Point) (m : Nat) : Bool :=
  p.inf || (decide (p.x.toNat < m) && decide (p.y.toNat < m) && (p.aff || decide (p.z.toNat < m)))

/-- The common checks of a command with one point operand, in the order of R202: E_NOCTX, E_PTSTATE, E_RANGE. -/
def needPoint (s : State) (need : PointNeed) (p : Point) (k : Host.Outcome State Fault Refusal) :
    Host.Outcome State Fault Refusal :=
  needCtx s
    (if !need.metBy p then raise .ptstate s
     else if !p.inRange s.modulus then raise .range s
     else k)

/-- The common checks of a command with two point operands: E_NOCTX, E_PTSTATE of either, E_RANGE of either (R202). RA is
checked before RB, which no host can tell apart: both raise the same code. -/
def needTwoPoints (s : State) (needA : PointNeed) (a : Point) (needB : PointNeed) (b : Point)
    (k : Host.Outcome State Fault Refusal) : Host.Outcome State Fault Refusal :=
  needCtx s
    (if !needA.metBy a then raise .ptstate s
     else if !needB.metBy b then raise .ptstate s
     else if !a.inRange s.modulus then raise .range s
     else if !b.inRange s.modulus then raise .range s
     else k)

end Sys2Proof.Machine
end

