-- ==== Sys2Proof/Machine/Inverse.lean ====
section
/-! DEFINITION. The inverse commands: MINV and BINV (41_inverse.md). -/

namespace Sys2Proof.Machine

/-- MINV: `V[rd] <- inv(a mod n, n)` with n = V[rb]; E_MODULUS for n < 2, then E_NOINV for gcd ≠ 1 (R152). CTX is not
used. -/
def execMinv (rd ra rb : VReg) (s : State) : Host.Outcome State Fault Refusal :=
  let n := s.valV rb
  if n < 2 then raise .modulus s
  else if Nat.gcd (s.valV ra % n) n ≠ 1 then raise .noinv s
  else succeed (s.setV rd (inv (s.valV ra % n) n))

/-- One output of BINV: the inverse for M = 0, and the inverse times R2 for M = 1 (R155). -/
def binvElement (f : FieldCtx) (mont : Bool) (x : Nat) : Nat :=
  if mont then inv x f.p * f.r2 % f.p else inv x f.p

/-- BINV: the inverses of V[ra..ra+n−1] modulo CTX.M into V[rd..rd+n−1], n = n1 + 1, all or none (R155). A range past V31,
which decode already rejects, is E_OPERAND (R105). -/
def execBinv (rd ra : VReg) (n1 : Fin 32) (mont : Bool) (s : State) : Host.Outcome State Fault Refusal :=
  let xs := s.valRange ra (n1.val + 1)
  if !(rangeFits ra n1 && rangeFits rd n1) then raise .operand s
  else needCtx s
    (if xs.any (fun x => decide (s.modulus ≤ x)) then raise .range s
     else if xs.any (fun x => Nat.gcd x s.modulus != 1) then raise .noinv s
     else succeed (s.setRange rd 0 (xs.map (binvElement s.field mont))))

end Sys2Proof.Machine
end

