-- ==== Sys2Proof/Machine/Modular.lean ====
section
/-! DEFINITION. The basic and modular commands: NOP, MOV, MADD, MSUB, MRED (40_modular.md). Each is execution and completion
of a command in flight (R117–R119). -/

namespace Sys2Proof.Machine

/-- NOP (R130). -/
def execNop (s : State) : Host.Outcome State Fault Refusal := succeed s

/-- MOV: `V[rd] <- V[ra]`, all 128 digits; no context is needed (R131, R135). -/
def execMov (rd ra : VReg) (s : State) : Host.Outcome State Fault Refusal := succeed (s.putV rd (s.getV ra))

/-- MADD: `V[rd] <- (a + b) mod m`, for a, b < m (R132). -/
def execMadd (rd ra rb : VReg) (s : State) : Host.Outcome State Fault Refusal :=
  needBothBelow s (s.valV ra) (s.valV rb) (succeed (s.setV rd ((s.valV ra + s.valV rb) % s.modulus)))

/-- MSUB: `V[rd] <- (a − b) mod m`, for a, b < m (R133). -/
def execMsub (rd ra rb : VReg) (s : State) : Host.Outcome State Fault Refusal :=
  needBothBelow s (s.valV ra) (s.valV rb) (succeed (s.setV rd ((s.valV ra + (s.modulus - s.valV rb)) % s.modulus)))

/-- MRED: `V[rd] <- V[ra] mod CTX.M`, for any value (R134). -/
def execMred (rd ra : VReg) (s : State) : Host.Outcome State Fault Refusal :=
  needCtx s (succeed (s.setV rd (s.valV ra % s.modulus)))

end Sys2Proof.Machine
end

