-- ==== Sys2Proof/Machine/Montgomery.lean ====
section
/-! DEFINITION. The Montgomery engine's commands: MCTX, MMUL, MTOM, MFROM, MEXP (42_montgomery.md). -/

namespace Sys2Proof.Machine

/-- MCTX: load the context of the modulus V[ra]; E_MODULUS when it is below 3 or even (R170). -/
def execMctx (ra : VReg) (s : State) : Host.Outcome State Fault Refusal :=
  if s.valV ra < 3 ∨ s.valV ra % 2 = 0 then raise .modulus s
  else succeed (s.setCtx (contextFor (s.getV ra)))

/-- MMUL: `V[rd] <- MontMul(a, b)`, for a, b < m (R175). -/
def execMmul (rd ra rb : VReg) (s : State) : Host.Outcome State Fault Refusal :=
  needBothBelow s (s.valV ra) (s.valV rb) (succeed (s.setV rd (montMul s.field (s.valV ra) (s.valV rb))))

/-- MTOM: `V[rd] <- MontMul(a, CTX.R2)`, for a < m (R176). -/
def execMtom (rd ra : VReg) (s : State) : Host.Outcome State Fault Refusal :=
  needBelow s (s.valV ra) (succeed (s.setV rd (montMul s.field (s.valV ra) s.field.r2)))

/-- MFROM: `V[rd] <- MontMul(a, 1)`, for a < m (R177). -/
def execMfrom (rd ra : VReg) (s : State) : Host.Outcome State Fault Refusal :=
  needBelow s (s.valV ra) (succeed (s.setV rd (montMul s.field (s.valV ra) 1)))

/-- MEXP: `V[rd] <- b'^e mod CTX.M` with b' = V[ra] mod CTX.M and e = V[rb], computed as R178 does (R179). -/
def execMexp (rd ra rb : VReg) (s : State) : Host.Outcome State Fault Refusal :=
  needCtx s (succeed (s.setV rd (mexp s.field (s.valV ra % s.modulus) (s.valV rb))))

end Sys2Proof.Machine
end

