-- ==== Sys2Proof/Machine/Curve.lean ====
section
/-! DEFINITION. The point helpers that the point and scalar commands share (R200–R211, R219, R220): each gives the exact
record of its rule (R204). -/

namespace Sys2Proof.Machine

/-- `INF_(a, d)`: the point at infinity with AFF = a and MONT = d (R201). -/
def infPoint (aff mont : Bool) : Point := { x := 0, y := 0, z := 0, inf := true, aff := aff, mont := mont }

/-- `J_d(X, Y, Z)`: a finite Jacobian record (R201). -/
def jacobian (mont : Bool) (x y z : Nat) : Point :=
  { x := BitVec.ofNat 4096 x, y := BitVec.ofNat 4096 y, z := BitVec.ofNat 4096 z, inf := false, aff := false, mont := mont }

/-- `A_d(x, y)`: a finite affine record, Z = 0 (R201). -/
def affine (mont : Bool) (x y : Nat) : Point :=
  { x := BitVec.ofNat 4096 x, y := BitVec.ofNat 4096 y, z := 0, inf := false, aff := true, mont := mont }

/-- `Mv` of the doubling formula: 3X² for a = 0, and 3(X − Z²)(X + Z²) for a = −3 (R205). -/
def dblSlope (f : FieldCtx) (x z : Nat) : Nat :=
  if f.azero then fscale f 3 (montMul f x x)
  else
    let zz := montMul f z z
    fscale f 3 (montMul f (fsub f x zz) (fadd f x zz))

/-- `DBL(Q)`: Jacobian doubling in the Montgomery domain (R205). -/
def dbl (f : FieldCtx) (q : Point) : Point :=
  if q.inf then infPoint false true
  else
    let x := q.x.toNat
    let y := q.y.toNat
    let z := q.z.toNat
    let mv := dblSlope f x z
    let yy := montMul f y y
    let s := fscale f 4 (montMul f x yy)
    let x3 := fsub f (montMul f mv mv) (fscale f 2 s)
    let y3 := fsub f (montMul f mv (fsub f s x3)) (fscale f 8 (montMul f yy yy))
    let z3 := fscale f 2 (montMul f y z)
    jacobian true x3 y3 z3

/-- `toJ(A)`: affine to Jacobian, in the domain of A (R206). -/
def toJ (f : FieldCtx) (a : Point) : Point :=
  if a.inf then infPoint false a.mont else jacobian a.mont a.x.toNat a.y.toNat (fone f a.mont)

/-- The common last part of the two addition formulas, from U1, S1, the product of the Zs, H and r (R207, R208). -/
def addFinish (f : FieldCtx) (u1 s1 zz h r : Nat) : Point :=
  let hh := montMul f h h
  let hhh := montMul f h hh
  let v := montMul f u1 hh
  let x3 := fsub f (fsub f (montMul f r r) hhh) (fscale f 2 v)
  let y3 := fsub f (montMul f r (fsub f v x3)) (montMul f s1 hhh)
  let z3 := montMul f zz h
  jacobian true x3 y3 z3

/-- `MADD_(Q, A)`: mixed Jacobian and affine addition (R207). -/
def mixedAdd (f : FieldCtx) (q a : Point) : Point :=
  if q.inf then toJ f a
  else if a.inf then q
  else
    let z1 := q.z.toNat
    let z1z1 := montMul f z1 z1
    let u2 := montMul f a.x.toNat z1z1
    let s2 := montMul f a.y.toNat (montMul f z1 z1z1)
    let h := fsub f u2 q.x.toNat
    let r := fsub f s2 q.y.toNat
    if h = 0 then if r = 0 then dbl f q else infPoint false true
    else addFinish f q.x.toNat q.y.toNat z1 h r

/-- `JADD(P1, P2)`: full Jacobian addition (R208). -/
def jacAdd (f : FieldCtx) (p1 p2 : Point) : Point :=
  if p1.inf then p2
  else if p2.inf then p1
  else
    let za := p1.z.toNat
    let zb := p2.z.toNat
    let z1z1 := montMul f za za
    let z2z2 := montMul f zb zb
    let u1 := montMul f p1.x.toNat z2z2
    let u2 := montMul f p2.x.toNat z1z1
    let s1 := montMul f p1.y.toNat (montMul f zb z2z2)
    let s2 := montMul f p2.y.toNat (montMul f za z1z1)
    let h := fsub f u2 u1
    let r := fsub f s2 s1
    if h = 0 then if r = 0 then dbl f p1 else infPoint false true
    else addFinish f u1 s1 (montMul f za zb) h r

/-- `MDADD(Q, A)` = 2Q + A, as (Q + A) + Q (R209). -/
def mixedDoubleAdd (f : FieldCtx) (q a : Point) : Point :=
  if q.inf then toJ f a
  else if a.inf then dbl f q
  else jacAdd f (mixedAdd f q a) q

/-- `NEG(P)`: Y becomes (p − Y) mod p, in any state (R210). -/
def negPoint (f : FieldCtx) (p : Point) : Point :=
  if p.inf then infPoint p.aff p.mont else { p with y := BitVec.ofNat 4096 ((f.p - p.y.toNat) % f.p) }

/-- A command's result in the canonical form of R37 and R203: an INF result has X = Y = Z = 0, an affine one has Z = 0. -/
def Point.canonical (p : Point) : Point :=
  if p.inf then { p with x := 0, y := 0, z := 0 } else if p.aff then { p with z := 0 } else p

/-- `toA(Q)`: Jacobian to affine, in the domain of Q; none stands for E_NOINV (R211). -/
def toA (f : FieldCtx) (q : Point) : Option Point :=
  if q.inf then some (infPoint true q.mont)
  else if Nat.gcd q.z.toNat f.p ≠ 1 then none
  else
    let zi0 := inv q.z.toNat f.p
    let zi := if q.mont then montMul f zi0 f.r3 else zi0
    let zi2 := fmul f q.mont zi zi
    let zi3 := fmul f q.mont zi2 zi
    some (affine q.mont (fmul f q.mont q.x.toNat zi2) (fmul f q.mont q.y.toNat zi3))

/-- A point with each coordinate it holds multiplied by `k` with MontMul, and MONT set to `mont`: the common part of `tom`
and `fromm` (R219, R220). -/
def convert (f : FieldCtx) (k : Nat) (mont : Bool) (p : Point) : Point :=
  if p.inf then infPoint p.aff mont
  else
    { x := BitVec.ofNat 4096 (montMul f p.x.toNat k), y := BitVec.ofNat 4096 (montMul f p.y.toNat k),
      z := if p.aff then 0 else BitVec.ofNat 4096 (montMul f p.z.toNat k),
      inf := false, aff := p.aff, mont := mont }

/-- `tom(P)`: to the Montgomery domain (R219). -/
def tom (f : FieldCtx) (p : Point) : Point := convert f f.r2 true p

/-- `fromm(P)`: to the standard domain (R220). -/
def fromm (f : FieldCtx) (p : Point) : Point := convert f 1 false p

end Sys2Proof.Machine
end

