-- ==== Sys2Proof/Machine/PointUnit.lean ====
section
/-! DEFINITION. The point commands: PMOV, PDBL, PMADD, PMDADD, PNEG, PTOJ, PTOA, PTOM, PFROM (43_point.md). -/

namespace Sys2Proof.Machine

/-- A point command's success: `PT[rd]` gets the result in canonical form (R203). -/
def succeedPoint (s : State) (rd : PReg) (p : Point) : Host.Outcome State Fault Refusal :=
  succeed (s.setPT rd p.canonical)

/-- PMOV: every word copied verbatim; no context, state or range is checked (R212). -/
def execPmov (rd ra : PReg) (s : State) : Host.Outcome State Fault Refusal := succeed (s.setPT rd (s.getPT ra))

/-- PDBL: `PT[rd] <- DBL(PT[ra])` (R213). -/
def execPdbl (rd ra : PReg) (s : State) : Host.Outcome State Fault Refusal :=
  needPoint s .jacobianMont (s.getPT ra) (succeedPoint s rd (dbl s.field (s.getPT ra)))

/-- PMADD: `PT[rd] <- MADD_(PT[ra], PT[rb])` (R214). -/
def execPmadd (rd ra rb : PReg) (s : State) : Host.Outcome State Fault Refusal :=
  needTwoPoints s .jacobianMont (s.getPT ra) .affineMont (s.getPT rb)
    (succeedPoint s rd (mixedAdd s.field (s.getPT ra) (s.getPT rb)))

/-- PMDADD: `PT[rd] <- MDADD(PT[ra], PT[rb])` (R215). -/
def execPmdadd (rd ra rb : PReg) (s : State) : Host.Outcome State Fault Refusal :=
  needTwoPoints s .jacobianMont (s.getPT ra) .affineMont (s.getPT rb)
    (succeedPoint s rd (mixedDoubleAdd s.field (s.getPT ra) (s.getPT rb)))

/-- PNEG: `PT[rd] <- NEG(PT[ra])`, in any state (R216). -/
def execPneg (rd ra : PReg) (s : State) : Host.Outcome State Fault Refusal :=
  needPoint s .any (s.getPT ra) (succeedPoint s rd (negPoint s.field (s.getPT ra)))

/-- PTOJ: `PT[rd] <- toJ(PT[ra])` (R217). -/
def execPtoj (rd ra : PReg) (s : State) : Host.Outcome State Fault Refusal :=
  needPoint s .affine (s.getPT ra) (succeedPoint s rd (toJ s.field (s.getPT ra)))

/-- PTOA: `PT[rd] <- toA(PT[ra])`, or E_NOINV (R218). -/
def execPtoa (rd ra : PReg) (s : State) : Host.Outcome State Fault Refusal :=
  needPoint s .jacobian (s.getPT ra)
    (match toA s.field (s.getPT ra) with
     | none => raise .noinv s
     | some p => succeedPoint s rd p)

/-- PTOM: `PT[rd] <- tom(PT[ra])` (R219). -/
def execPtom (rd ra : PReg) (s : State) : Host.Outcome State Fault Refusal :=
  needPoint s .standard (s.getPT ra) (succeedPoint s rd (tom s.field (s.getPT ra)))

/-- PFROM: `PT[rd] <- fromm(PT[ra])` (R220). -/
def execPfrom (rd ra : PReg) (s : State) : Host.Outcome State Fault Refusal :=
  needPoint s .montgomery (s.getPT ra) (succeedPoint s rd (fromm s.field (s.getPT ra)))

end Sys2Proof.Machine
end

