-- ==== Sys2Proof/Machine/Scalar.lean ====
section
/-! DEFINITION. The scalar commands: NAF, PTAB, SMUL (44_scalar.md). -/

namespace Sys2Proof.Machine

/-- The supported window widths, 2..6 (R9, R261). -/
def widthOk (w : Nat) : Bool := decide (Config.wMin ≤ w) && decide (w ≤ Config.wMax)

/-- NAF: the digits of wNAF(V[ra], w) into the NAF buffer; E_WIDTH outside 2..6 (R261, R262). -/
def execNaf (ra : VReg) (w : Fin 16) (s : State) : Host.Outcome State Fault Refusal :=
  if !widthOk w.val then raise .width s else succeed (s.setNaf (wnaf (s.valV ra) w.val))

/-- The chain J[i] = JADD(J[i−1], D) for `n` entries from `j` on (R265). -/
def oddChain (f : FieldCtx) (d : Point) : (n : Nat) → (j : Point) → List Point
  | 0, _ => []
  | n + 1, j => j :: oddChain f d n (jacAdd f j d)

/-- `toA` of every point of a list; none (E_NOINV) if one of them has none (R265). -/
def toAAll (f : FieldCtx) : List Point → Option (List Point)
  | [] => some []
  | q :: qs =>
    match toA f q, toAAll f qs with
    | some p, some ps => some (p :: ps)
    | _, _ => none

/-- The entries 1..n−1 of `TABLE(P, w)` in Jacobian form, for a finite P: 3P, 5P, … (R265). -/
def tableChain (f : FieldCtx) (p : Point) (n : Nat) : List Point :=
  let j0 := toJ f p
  let d := dbl f j0
  oddChain f d (n - 1) (jacAdd f j0 d)

/-- `TABLE(P, w)`: the odd multiples P, 3P, …, in affine Montgomery form; none stands for E_NOINV (R265). -/
def table (f : FieldCtx) (p : Point) (w : Nat) : Option (List Point) :=
  let n := 2 ^ (w - 2)
  if p.inf then some (List.replicate n (infPoint true true))
  else
    match toAAll f (tableChain f p n) with
    | none => none
    | some ts => some (affine true p.x.toNat p.y.toNat :: ts)

/-- A table entry: X, Y and the three flags of an affine point (R38, R266). -/
def Point.toTblEntry (p : Point) : TblEntry := { x := p.x, y := p.y, inf := p.inf, aff := p.aff, mont := p.mont }

/-- PTAB: TABLE(PT[ra], w) into TBL[0..2^(w−2)−1]; the checks in the order of R304 (R266). -/
def execPtab (ra : PReg) (w : Fin 16) (s : State) : Host.Outcome State Fault Refusal :=
  needPoint s .affineMont (s.getPT ra)
    (if !widthOk w.val then raise .width s
     else
       match table s.field (s.getPT ra) w.val with
       | none => raise .noinv s
       | some t => succeed (s.setTbl (t.map Point.toTblEntry)))

/-- SMUL's window width: 5 if bitlen(CTX.M) ≤ 192, else 6 (R264). -/
def windowWidth (m : Nat) : Nat := if bitLen m ≤ 192 then 5 else 6

/-- The table entry that the digit magnitude `k` selects, T[k div 2] (R268). The default is never taken: a digit of
wNAF(k, w) is below 2^(w−1), and T has 2^(w−2) entries (R263). -/
def tableEntry (t : List Point) (k : Nat) : Point := t.getD (k / 2) (infPoint true true)

/-- One round of SCAN: Q becomes 2Q + d·P (R272). -/
def scanStep (f : FieldCtx) (t : List Point) (d : Int) (q : Point) : Point :=
  if d = 0 then dbl f q
  else if 0 < d then mixedDoubleAdd f q (tableEntry t d.toNat)
  else mixedDoubleAdd f q (negPoint f (tableEntry t (-d).toNat))

/-- `SCAN(T, d, L)`: the digits from the most significant, the last of the list, to the least (R272). -/
def scan (f : FieldCtx) (t : List Point) : (ds : List Int) → Point
  | [] => infPoint false true
  | d :: ds => scanStep f t d (scan f t ds)

/-- What a successful SMUL past its early result writes: the table, the NAF digits and the result (R271, R274). -/
structure SmulResult where
  tbl : List Point
  digits : List Int
  point : Point
  deriving DecidableEq, Repr

/-- The computation of SMUL from an affine, finite P and a scalar k > 0; none stands for E_NOINV (R271). -/
def smul (f : FieldCtx) (p : Point) (k : Nat) (mont : Bool) : Option SmulResult :=
  let w := windowWidth f.p
  match table f (if p.mont then p else tom f p) w with
  | none => none
  | some t =>
    let ds := wnaf k w
    match toA f (scan f t ds) with
    | none => none
    | some r => some { tbl := t, digits := ds, point := if mont then r else fromm f r }

/-- SMUL: the checks, the early result and the effects in the order of R270 (R271, R274). -/
def execSmul (rd ra : PReg) (rb : VReg) (mont : Bool) (s : State) : Host.Outcome State Fault Refusal :=
  needPoint s .affine (s.getPT ra)
    (if (s.getPT ra).inf ∨ s.valV rb = 0 then succeedPoint s rd (infPoint true mont)
     else if s.valV s.ord ≤ s.valV rb then raise .range s
     else
       match smul s.field (s.getPT ra) (s.valV rb) mont with
       | none => raise .noinv s
       | some r => succeedPoint ((s.setTbl (r.tbl.map Point.toTblEntry)).setNaf r.digits) rd r.point)

end Sys2Proof.Machine
end

