-- ==== Sys2Proof/Machine/Dispatch.lean ====
section
/-! DEFINITION. The execution and completion of a command: one meaning for each (R103, R117–R119). -/

namespace Sys2Proof.Machine

/-- Execution and completion of the command `i` from the state `s` in which it is in flight. -/
def exec (i : Instr) (s : State) : Host.Outcome State Fault Refusal :=
  match i with
  | .nop => Sys2Proof.Machine.execNop s
  | .mov rd ra => Sys2Proof.Machine.execMov rd ra s
  | .madd rd ra rb => Sys2Proof.Machine.execMadd rd ra rb s
  | .msub rd ra rb => Sys2Proof.Machine.execMsub rd ra rb s
  | .mred rd ra => Sys2Proof.Machine.execMred rd ra s
  | .minv rd ra rb => Sys2Proof.Machine.execMinv rd ra rb s
  | .binv rd ra n1 mont => Sys2Proof.Machine.execBinv rd ra n1 mont s
  | .mctx ra => Sys2Proof.Machine.execMctx ra s
  | .mmul rd ra rb => Sys2Proof.Machine.execMmul rd ra rb s
  | .mtom rd ra => Sys2Proof.Machine.execMtom rd ra s
  | .mfrom rd ra => Sys2Proof.Machine.execMfrom rd ra s
  | .mexp rd ra rb => Sys2Proof.Machine.execMexp rd ra rb s
  | .pmov rd ra => Sys2Proof.Machine.execPmov rd ra s
  | .pdbl rd ra => Sys2Proof.Machine.execPdbl rd ra s
  | .pmadd rd ra rb => Sys2Proof.Machine.execPmadd rd ra rb s
  | .pmdadd rd ra rb => Sys2Proof.Machine.execPmdadd rd ra rb s
  | .pneg rd ra => Sys2Proof.Machine.execPneg rd ra s
  | .ptoj rd ra => Sys2Proof.Machine.execPtoj rd ra s
  | .ptoa rd ra => Sys2Proof.Machine.execPtoa rd ra s
  | .ptom rd ra => Sys2Proof.Machine.execPtom rd ra s
  | .pfrom rd ra => Sys2Proof.Machine.execPfrom rd ra s
  | .naf ra w => Sys2Proof.Machine.execNaf ra w s
  | .ptab ra w => Sys2Proof.Machine.execPtab ra w s
  | .smul rd ra rb mont => Sys2Proof.Machine.execSmul rd ra rb mont s

end Sys2Proof.Machine
end

