-- ==== Sys2Proof/Machine/Engine.lean ====
section
/-! DEFINITION. The command engine (R86, R117–R119) and the events that a step performs (R305, R340). -/

namespace Sys2Proof.Machine

/-- Decode, execution and completion of the command word `w` in flight: a word that is no command raises the error of R105,
and any other runs as its command. -/
def runWord (w : Word) (s : State) : Host.Outcome State Fault Refusal :=
  match decode w with
  | .error e => raise e s
  | .ok i => exec i s

/-- The engine's completion event: the in-flight command runs and completes (R117, R119). With none in flight, or while
`rst_n` is low, nothing happens (R305, R340). -/
def engine (s : State) : Host.Outcome State Fault Refusal :=
  if !s.rstN then .next s
  else
    match s.inFlight with
    | none => .next s
    | some w => runWord w s

/-- `rst_n` falls: MMC is held in reset (R340). -/
def resetFalls (s : State) : State := { s with rstN := false }

/-- `rst_n` rises: every piece of state takes its reset value (R340). A rise of a pin that is already high is none. -/
def resetRises (s : State) : State := if s.rstN then s else { s.applyReset with rstN := true }

/-- One event, with the events after it already left in the schedule (R305). -/
def perform (e : Event) (s : State) : Host.Outcome State Fault Refusal :=
  match e with
  | .bus t => busAccess t s
  | .completes => engine s
  | .resetFalls => .next (resetFalls s)
  | .resetRises => .next (resetRises s)

/-- The next event and what remains of the schedule. With nothing scheduled a command in flight still completes, since its
latency is finite (R119, R360). -/
def stepCore (s : State) : Host.Outcome State Fault Refusal :=
  match s.schedule with
  | [] => engine s
  | e :: rest => perform e { s with schedule := rest }

/-- `s` with the command word `w` issued and its completion the next event (R116, R119). -/
def withCommand (s : State) (w : Word) : State :=
  { s.issue w with rstN := true, schedule := .completes :: s.schedule }

end Sys2Proof.Machine
end

