-- ==== Sys2Proof/Machine/Step.lean ====
section
/-! DEFINITION. One step of MMC, and where the step takes its next command from. -/

namespace Sys2Proof.Machine

/-- One step: the next scheduled event, or, with none scheduled, the completion of the in-flight command if there is one
(R305, R360). -/
def step (s : State) : Host.Outcome State Fault Refusal := stepCore s

/-- `s` with the command whose low `nbits` bits are those of `w` issued, so that the next step runs and completes exactly it.
MMC fetches nothing (R90): INFLIGHT is where a step finds its command, and the host's write to CMD, which this stands for,
is what puts it there (R116; assumption log 1). -/
def State.withFetchWord (s : State) (nbits w : Nat) : State := withCommand s (BitVec.ofNat 32 (w % 2 ^ nbits))

end Sys2Proof.Machine
end

