-- ==== Sys2Proof/Machine/Reference.lean ====
section
/-! DEFINITION. The reference algorithms that the spec gives beside the results its rules fix: the CIOS multiplier (R173), the
batched inversion (R153) and the batched normalisation of the table (R267). No command calls them: the rules define every
result through R172, R155 and R265, and statements say that the reference algorithms give the same. -/

namespace Sys2Proof.Machine

/-! ### CIOS (R173) -/

/-- The base b = 2^32 of the digits (R173). -/
def digitBase : Nat := 2 ^ 32

/-- The lowest `n` digits of `x`, least significant first (R13). -/
def digitsOf (x : Nat) : (n : Nat) → List Nat
  | 0 => []
  | n + 1 => x % digitBase :: digitsOf (x / digitBase) n

/-- The number that digits spell, least significant first (R13). -/
def digitsValue : List Nat → Nat
  | [] => 0
  | d :: ds => d + digitBase * digitsValue ds

/-- A multiply-accumulate pass `(C, t[j]) <- t[j] + a_j · y + C` over the digits: the new digits and the last carry (R173). -/
def macPass (y : Nat) : (as ts : List Nat) → (c : Nat) → List Nat × Nat
  | a :: as, t :: ts, c =>
    let e := t + a * y + c
    let rest := macPass y as ts (e / digitBase)
    (e % digitBase :: rest.1, rest.2)
  | _, _, c => ([], c)

/-- The accumulator of CIOS between two outer iterations: t[0..s−1] and t[s]; t[s+1] is written anew in each (R173). -/
structure CiosAcc where
  low : List Nat
  top : Nat
  deriving DecidableEq, Repr

/-- One outer iteration of CIOS for the digit `bi` (R173): multiply-accumulate, the reduction digit q, the reduction pass
and the shift by one digit. -/
def ciosRound (as ms : List Nat) (mp bi : Nat) (t : CiosAcc) : CiosAcc :=
  let mul := macPass bi as t.low 0
  let hi := t.top + mul.2
  let q := mul.1.headD 0 * mp % digitBase
  let red := macPass q ms mul.1 0
  let e := hi % digitBase + red.2
  { low := red.1.tail ++ [e % digitBase], top := hi / digitBase + e / digitBase }

/-- The outer loop of CIOS over the digits of b (R173). -/
def ciosLoop (as ms : List Nat) (mp : Nat) : (bs : List Nat) → CiosAcc → CiosAcc
  | [], t => t
  | b :: bs, t => ciosLoop as ms mp bs (ciosRound as ms mp b t)

/-- The CIOS multiplier for a modulus of `s` digits with m′ = `mp`, with its final conditional subtraction (R173). -/
def cios (m s mp a b : Nat) : Nat :=
  let t := ciosLoop (digitsOf a s) (digitsOf m s) mp (digitsOf b s) { low := List.replicate s 0, top := 0 }
  let u := digitsValue (t.low ++ [t.top])
  if m ≤ u then u - m else u

/-! ### Batched inversion (R153) -/

/-- The products pre[0..n−1] of the inputs, starting from `acc` = pre[0] (R153). -/
def prefixProducts (f : FieldCtx) (mont : Bool) : (acc : Nat) → (xs : List Nat) → List Nat
  | acc, [] => [acc]
  | acc, x :: xs => acc :: prefixProducts f mont (fmul f mont acc x) xs

/-- The back-substitution loop: `t` and the pairs (x[i], pre[i−1]) from i = n−1 down to 1; `ys` are the outputs found
(R153). -/
def backSubstitute (f : FieldCtx) (mont : Bool) : (t : Nat) → (pairs : List (Nat × Nat)) → (ys : List Nat) → List Nat
  | t, [], ys => t :: ys
  | t, (x, pre) :: pairs, ys => backSubstitute f mont (fmul f mont t x) pairs (fmul f mont t pre :: ys)

/-- `batch_inv(x[0..n−1], M)`: one EEA inversion for the whole batch; none stands for E_NOINV (R153). -/
def batchInv (f : FieldCtx) (mont : Bool) : List Nat → Option (List Nat)
  | [] => some []
  | x :: xs =>
    let pre := prefixProducts f mont x xs
    match eeaInv (pre.getLastD 0) f.p with
    | none => none
    | some t0 =>
      let t := if mont then montMul f t0 f.r3 else t0
      some (backSubstitute f mont t (xs.zip pre).reverse [])

/-! ### Batched normalisation of the table (R267) -/

/-- The affine entries of the chain from the inverses of its finite Zs, in order (R267). -/
def normalise (f : FieldCtx) : (js : List Point) → (zs : List Nat) → List Point
  | [], _ => []
  | j :: js, zs =>
    if j.inf then infPoint true true :: normalise f js zs
    else
      match zs with
      | [] => []
      | z :: zs =>
        let zi2 := montMul f z z
        let zi3 := montMul f zi2 z
        affine true (montMul f j.x.toNat zi2) (montMul f j.y.toNat zi3) :: normalise f js zs

/-- The entries 1..n−1 of the table by one batched inversion of the finite Zs; none stands for E_NOINV (R267). -/
def batchNormalise (f : FieldCtx) (js : List Point) : Option (List Point) :=
  match batchInv f true ((js.filter (fun j => !j.inf)).map (fun j => j.z.toNat)) with
  | none => none
  | some zs => some (normalise f js zs)

end Sys2Proof.Machine
end

