-- ==== Sys2Proof/Safety.lean ====
section
/-! DEFINITION. What claims say about MMC: the invariant of its states, what a command leaves unchanged, which command raises
which error (R301), and the number a residue represents. -/

namespace Sys2Proof.Machine

/-! ### The invariant -/

/-- A context that MCTX could have loaded: the modulus is odd and at least 3, and every field is the one R170 computes. While
VALID = 0 nothing is asked. -/
abbrev Ctx.Sound (c : Ctx) : Prop :=
  c.valid = true → 3 ≤ c.m.toNat ∧ c.m.toNat % 2 = 1 ∧ c = contextFor c.m

/-- STATUS as issue and completion leave it: ERRCODE is one of the codes 0..8 of R301, ERR is 1 exactly when ERRCODE is not 0,
and a busy MMC shows neither DONE nor ERR (R45, R46, R116, R119). -/
abbrev State.StatusSound (s : State) : Prop :=
  s.errCode.toNat ≤ 8 ∧ (s.err = true ↔ s.errCode ≠ 0) ∧ (s.busy = true → s.done = false ∧ s.err = false)

/-- The invariant: a sound context, a sound STATUS, and NAFLEN at most NAFMAX (R39). -/
abbrev State.Sound (s : State) : Prop := s.ctx.Sound ∧ s.StatusSound ∧ s.nafLen.toNat ≤ Config.nafMax

/-! ### Frames -/

/-- The state that no command writes: CTRL.IE, STATUS.HAZ, CURVE, and the model's own fields. -/
abbrev KeepsControl (s t : State) : Prop :=
  t.ie = s.ie ∧ t.haz = s.haz ∧ t.azero = s.azero ∧ t.ord = s.ord ∧ t.rstN = s.rstN ∧ t.schedule = s.schedule ∧
    t.response = s.response ∧ t.draws = s.draws

/-- Every value register but those for which `w` holds keeps its contents. -/
abbrev KeepsV (s t : State) (w : VReg → Prop) : Prop := ∀ i : VReg, ¬ w i → t.getV i = s.getV i

/-- Every point register but those for which `w` holds keeps its contents. -/
abbrev KeepsPT (s t : State) (w : PReg → Prop) : Prop := ∀ i : PReg, ¬ w i → t.getPT i = s.getPT i

/-- The table and the NAF buffer keep their contents. -/
abbrev KeepsBuffers (s t : State) : Prop := t.tbl = s.tbl ∧ t.naf = s.naf ∧ t.nafLen = s.nafLen

/-- STATUS after the successful completion of a command: DONE = 1, ERRCODE = 0, not busy, ERR as it was (R119). -/
abbrev CompletedOk (s t : State) : Prop := t.done = true ∧ t.errCode = 0 ∧ t.err = s.err ∧ t.inFlight = none

/-- A command that wrote value registers of `w` and nothing else. -/
abbrev WroteOnlyV (s t : State) (w : VReg → Prop) : Prop :=
  KeepsV s t w ∧ t.pt = s.pt ∧ KeepsBuffers s t ∧ t.ctx = s.ctx ∧ KeepsControl s t ∧ CompletedOk s t

/-- A command that wrote point registers of `w` and nothing else. -/
abbrev WroteOnlyPT (s t : State) (w : PReg → Prop) : Prop :=
  t.v = s.v ∧ KeepsPT s t w ∧ KeepsBuffers s t ∧ t.ctx = s.ctx ∧ KeepsControl s t ∧ CompletedOk s t

/-- What a host can find in the window after a command, other than HAZ, CTRL, and the model's own fields. -/
abbrev SameResults (s t : State) : Prop :=
  t.v = s.v ∧ t.pt = s.pt ∧ t.tbl = s.tbl ∧ t.naf = s.naf ∧ t.nafLen = s.nafLen ∧ t.ctx = s.ctx ∧ t.azero = s.azero ∧
    t.ord = s.ord ∧ t.done = s.done ∧ t.err = s.err ∧ t.errCode = s.errCode ∧ t.inFlight = s.inFlight

/-- The operand state of an in-flight command: every register a command can read (R53, R117). -/
abbrev SameOperands (s t : State) : Prop :=
  t.v = s.v ∧ t.pt = s.pt ∧ t.tbl = s.tbl ∧ t.naf = s.naf ∧ t.nafLen = s.nafLen ∧ t.ctx = s.ctx ∧ t.azero = s.azero ∧
    t.ord = s.ord

/-! ### Errors -/

/-- The "raised by" column of R301 for the errors that a decoded command can raise; E_ILLEGAL is decode's alone. -/
def raises : CmdError → Instr → Bool
  | .illegal, _ => false
  | .operand, .binv _ _ _ _ => true
  | .operand, _ => false
  | .noctx, i => match i with
    | .nop | .mov _ _ | .minv _ _ _ | .mctx _ | .pmov _ _ | .naf _ _ => false
    | _ => true
  | .ptstate, i => match i with
    | .pdbl _ _ | .pmadd _ _ _ | .pmdadd _ _ _ | .ptoj _ _ | .ptoa _ _ | .ptom _ _ | .pfrom _ _ | .ptab _ _
    | .smul _ _ _ _ => true
    | _ => false
  | .range, i => match i with
    | .madd _ _ _ | .msub _ _ _ | .binv _ _ _ _ | .mmul _ _ _ | .mtom _ _ | .mfrom _ _ | .pdbl _ _ | .pmadd _ _ _
    | .pmdadd _ _ _ | .pneg _ _ | .ptoj _ _ | .ptoa _ _ | .ptom _ _ | .pfrom _ _ | .ptab _ _ | .smul _ _ _ _ => true
    | _ => false
  | .modulus, i => match i with
    | .mctx _ | .minv _ _ _ => true
    | _ => false
  | .width, i => match i with
    | .naf _ _ | .ptab _ _ => true
    | _ => false
  | .noinv, i => match i with
    | .minv _ _ _ | .binv _ _ _ _ | .ptoa _ _ | .ptab _ _ | .smul _ _ _ _ => true
    | _ => false

/-- The operand errors of R105 on the fields of a word whose row admits it: a P-class field of 8 or more, or a BINV range past
V31. -/
def operandFault (f : Fields) : Bool :=
  if f.op = 0x09 then decide (32 < f.ra + (f.fn % 32 + 1)) || decide (32 < f.rd + (f.fn % 32 + 1))
  else if f.op = 0x22 ∨ f.op = 0x23 then decide (8 ≤ f.rd) || decide (8 ≤ f.ra) || decide (8 ≤ f.rb)
  else if (0x20 ≤ f.op ∧ f.op ≤ 0x28) ∨ f.op = 0x32 then decide (8 ≤ f.rd) || decide (8 ≤ f.ra)
  else if f.op = 0x31 then decide (8 ≤ f.ra)
  else false

/-! ### Destinations -/

/-- The value registers a command names as its destination (R32, R103). -/
def writesV : Instr → VReg → Bool
  | .mov rd _, r | .madd rd _ _, r | .msub rd _ _, r | .mred rd _, r | .minv rd _ _, r | .mmul rd _ _, r | .mtom rd _, r
  | .mfrom rd _, r | .mexp rd _ _, r => r == rd
  | .binv rd _ n1 _, r => decide (rd.val ≤ r.val) && decide (r.val ≤ rd.val + n1.val)
  | _, _ => false

/-- The point register a command names as its destination (R103). -/
def writesPT : Instr → PReg → Bool
  | .pmov rd _, r | .pdbl rd _, r | .pmadd rd _ _, r | .pmdadd rd _ _, r | .pneg rd _, r | .ptoj rd _, r | .ptoa rd _, r
  | .ptom rd _, r | .pfrom rd _, r | .smul rd _ _ _, r => r == rd
  | _, _ => false

/-- The commands that write TBL (R38). -/
def writesTbl : Instr → Bool
  | .ptab _ _ | .smul _ _ _ _ => true
  | _ => false

/-- The commands that write the NAF buffer and NAFLEN (R39). -/
def writesNaf : Instr → Bool
  | .naf _ _ | .smul _ _ _ _ => true
  | _ => false

/-- The command that writes CTX (R41). -/
def writesCtx : Instr → Bool
  | .mctx _ => true
  | _ => false

/-! ### Runs -/

/-- `n` steps, as far as the machine goes on. -/
def stepsFrom : Nat → State → Host.Outcome State Fault Refusal
  | 0, s => .next s
  | n + 1, s =>
    match step s with
    | .next t => stepsFrom n t
    | .fault r => .fault r
    | .refused r => .refused r

/-! ### Numbers and points -/

/-- The number that NAF digits represent, least significant first: Σ d_j · 2^j (R263). -/
def nafValue : List Int → Int
  | [] => 0
  | d :: ds => d + 2 * nafValue ds

/-- The element of Z/p that the Montgomery residue `x` represents: x · R⁻¹ (R19, R35). -/
def represented (f : FieldCtx) (x : Value) : ZMod f.p := (x.toNat : ZMod f.p) * (f.rInv : ZMod f.p)

/-- The curve coefficient a in Z/p: 0 or −3, as CURVE.AZERO selects (R48). -/
def curveA (f : FieldCtx) : ZMod f.p := if f.azero then 0 else -3

/-- A transaction that a busy MMC can receive without abandoning its command: not a write of SRST = 1 to CTRL (R341). -/
abbrev NotSoftReset (t : Transaction) : Prop :=
  ¬ (t.kind = .write ∧ busCheck t = .ok .ctrl ∧ t.wdata.getLsbD 1 = true)

end Sys2Proof.Machine
end

