-- ==== Sys2Proof/Certificates/Slice0/Obligations.lean ====
section
/-! DEFINITION. The statements about MMC, in the order of the spec's files. Each docstring names the rule it formalises. -/

open Sys2Proof Sys2Proof.Machine

/-! ## Encoding (30_encoding.md) -/

/-- R106: the encoding function, and its five examples read both ways. -/
def Obligations.EncodingFunctionAndExamples : Prop :=
  (∀ f : Fields, f.op < 64 → f.rd < 32 → f.ra < 32 → f.rb < 32 → f.fn < 2048 →
    (enc f).toNat = f.op * 2 ^ 26 + f.rd * 2 ^ 21 + f.ra * 2 ^ 16 + f.rb * 2 ^ 11 + f.fn) ∧
  (encode (.mmul 3 1 2) = 0x44611000 ∧ decode 0x44611000 = .ok (.mmul 3 1 2)) ∧
  (encode (.mctx 0) = 0x40000000 ∧ decode 0x40000000 = .ok (.mctx 0)) ∧
  (encode (.binv 4 0 2 true) = 0x24800022 ∧ decode 0x24800022 = .ok (.binv 4 0 2 true)) ∧
  (encode (.naf 2 5) = 0xC0020005 ∧ decode 0xC0020005 = .ok (.naf 2 5)) ∧
  (encode (.smul 1 0 2 false) = 0xC8201000 ∧ decode 0xC8201000 = .ok (.smul 1 0 2 false))

/-- Decode and encode agree: decode undoes encode for every well-formed command, at every value of every operand, and a word
that decodes is the encoding of its command alone (R103, R105, R106). -/
def Obligations.DecodeAndEncodeAgree : Prop :=
  (∀ i : Instr, WellFormed i = true → decode (encode i) = .ok i) ∧
  (∀ (w : Word) (i : Instr), decode w = .ok i → WellFormed i = true ∧ encode i = w)

/-- R103, last paragraph, with the checks of R105 in their order: a word that no row admits raises E_ILLEGAL; a word that a row
admits raises E_OPERAND for a point index of 8 or more or a BINV range past V31, and otherwise decodes as that row's command; and
no word is admitted by two rows. -/
def Obligations.DecodeFollowsTheOpcodeMap : Prop :=
  (∀ w : Word, (∀ r ∈ opcodeMap, r.admits w = false) → decode w = .error .illegal) ∧
  (∀ (w : Word) (r : Row), r ∈ opcodeMap → r.admits w = true →
    (operandFault (fieldsOf w) = true → decode w = .error .operand) ∧
    (operandFault (fieldsOf w) = false → ∃ i, decode w = .ok i ∧ mnemonic i = r.mnemonic)) ∧
  (∀ (w : Word) (r r' : Row), r ∈ opcodeMap → r' ∈ opcodeMap → r.admits w = true → r'.admits w = true → r = r')

/-- R104: the undefined OP values, and every word that no row admits, raise E_ILLEGAL and do nothing else. -/
def Obligations.UndefinedEncodingsRaiseIllegal : Prop :=
  (∀ w : Word,
    let op := bits w 26 6
    (5 ≤ op ∧ op ≤ 7) ∨ (0x0A ≤ op ∧ op ≤ 0x0F) ∨ (0x15 ≤ op ∧ op ≤ 0x1F) ∨ (0x29 ≤ op ∧ op ≤ 0x2F) ∨ 0x33 ≤ op →
      decode w = .error .illegal) ∧
  (∀ w : Word, decode w = .error .illegal ↔ ∀ r ∈ opcodeMap, r.admits w = false) ∧
  (∀ (w : Word) (s : State), decode w = .error .illegal → runWord w s = raise .illegal s)

/-! ## The life of a command (30_encoding.md) -/

/-- A step of a machine whose engine is next runs the command in flight: the decoded command's meaning, or the error of
decode (R117, R119). `withFetchWord` places a word so that the next step does so. The schedule of events and `withFetchWord` are
the model's choice (assumption log 1), and so is that the engine is next when nothing is scheduled (assumption log 15). -/
def Obligations.StepRunsTheCommandInFlight : Prop :=
  (∀ (s : State) (w : Word) (i : Instr) (rest : List Event), s.rstN = true → s.inFlight = some w →
    s.schedule = .completes :: rest → decode w = .ok i → step s = exec i { s with schedule := rest }) ∧
  (∀ (s : State) (w : Word) (i : Instr), s.rstN = true → s.inFlight = some w → s.schedule = [] → decode w = .ok i →
    step s = exec i s) ∧
  (∀ (s : State) (w : Word) (e : CmdError) (rest : List Event), s.rstN = true → s.inFlight = some w →
    s.schedule = .completes :: rest → decode w = .error e → step s = raise e { s with schedule := rest }) ∧
  (∀ (s : State) (w : Word) (e : CmdError), s.rstN = true → s.inFlight = some w → s.schedule = [] → decode w = .error e →
    step s = raise e s) ∧
  (∀ (s : State) (w : Word) (i : Instr), decode w = .ok i →
    step (s.withFetchWord 32 w.toNat) = exec i { s.issue w with rstN := true })

/-- R116: a write of `c` to CMD while idle issues it in one step: INFLIGHT, BUSY, DONE, ERR and ERRCODE change, and nothing
else of the machine does. -/
def Obligations.CmdWriteIssuesWhileIdle : Prop :=
  ∀ (s : State) (c : Word) (rest : List Event), s.rstN = true → s.busy = false →
    s.schedule = .bus { kind := .write, addr := 0x10, size := .four, wdata := c } :: rest →
    ∃ t, step s = .next t ∧ t.inFlight = some c ∧ t.busy = true ∧ t.done = false ∧ t.err = false ∧ t.errCode = 0 ∧
      t.haz = s.haz ∧ t.ie = s.ie ∧ SameOperands s t ∧ t.schedule = rest ∧ t.response = .okayWrite ∧
      t.rstN = s.rstN ∧ t.draws = s.draws

/-- R119: every command word completes in one step, with DONE = 1, BUSY = 0 and no command in flight; ERRCODE is 0 for a
success, and an error's code with ERR = 1 otherwise. -/
def Obligations.EveryCommandWordCompletes : Prop :=
  ∀ (w : Word) (s : State), ∃ t, runWord w s = .next t ∧ t.done = true ∧ t.busy = false ∧ t.inFlight = none ∧
    ((t.errCode = 0 ∧ t.err = s.err) ∨ ∃ e, t.errCode = CmdError.code e ∧ t.err = true) ∧ KeepsControl s t

/-! ## Modular commands (40_modular.md) -/

/-- R130, R131: NOP and MOV complete in every state: NOP changes nothing but STATUS, and MOV copies all 128 digits. -/
def Obligations.NopAndMovComplete : Prop :=
  (∀ s : State, ∃ t, exec .nop s = .next t ∧ WroteOnlyV s t (fun _ => False)) ∧
  (∀ (rd ra : VReg) (s : State), ∃ t, exec (.mov rd ra) s = .next t ∧ t.getV rd = s.getV ra ∧
    WroteOnlyV s t (fun r => r = rd))

/-- R132: MADD's checks in order, and its sum modulo m. -/
def Obligations.MaddAddsModulo : Prop :=
  ∀ (rd ra rb : VReg) (s : State),
    (s.ctx.valid = false → exec (.madd rd ra rb) s = raise .noctx s) ∧
    (s.ctx.valid = true → s.modulus ≤ s.valV ra ∨ s.modulus ≤ s.valV rb →
      exec (.madd rd ra rb) s = raise .range s) ∧
    (s.ctx.valid = true → s.valV ra < s.modulus → s.valV rb < s.modulus →
      ∃ t, exec (.madd rd ra rb) s = .next t ∧ t.valV rd = (s.valV ra + s.valV rb) % s.modulus ∧
        WroteOnlyV s t (fun r => r = rd))

/-- R133: MSUB's checks in order, and its difference as the least non-negative residue modulo m. -/
def Obligations.MsubSubtractsModulo : Prop :=
  ∀ (rd ra rb : VReg) (s : State),
    (s.ctx.valid = false → exec (.msub rd ra rb) s = raise .noctx s) ∧
    (s.ctx.valid = true → s.modulus ≤ s.valV ra ∨ s.modulus ≤ s.valV rb →
      exec (.msub rd ra rb) s = raise .range s) ∧
    (s.ctx.valid = true → s.valV ra < s.modulus → s.valV rb < s.modulus →
      ∃ t, exec (.msub rd ra rb) s = .next t ∧
        (t.valV rd : Int) = ((s.valV ra : Int) - (s.valV rb : Int)) % (s.modulus : Int) ∧
        WroteOnlyV s t (fun r => r = rd))

/-- R134: MRED reduces any value modulo CTX.M. A modulus above 0 is what every context has (R170). -/
def Obligations.MredReducesAnyValue : Prop :=
  ∀ (rd ra : VReg) (s : State),
    (s.ctx.valid = false → exec (.mred rd ra) s = raise .noctx s) ∧
    (s.ctx.valid = true →
      ∃ t, exec (.mred rd ra) s = .next t ∧ t.valV rd = s.valV ra % s.modulus ∧ WroteOnlyV s t (fun r => r = rd))

/-! ## Inverse commands (41_inverse.md) -/

/-- R152: MINV's checks in order, and its result: the unique inverse in 1..n−1. -/
def Obligations.MinvGivesTheInverse : Prop :=
  ∀ (rd ra rb : VReg) (s : State),
    (s.valV rb < 2 → exec (.minv rd ra rb) s = raise .modulus s) ∧
    (2 ≤ s.valV rb → Nat.gcd (s.valV ra) (s.valV rb) ≠ 1 → exec (.minv rd ra rb) s = raise .noinv s) ∧
    (2 ≤ s.valV rb → Nat.gcd (s.valV ra) (s.valV rb) = 1 →
      ∃ t, exec (.minv rd ra rb) s = .next t ∧ 1 ≤ t.valV rd ∧ t.valV rd < s.valV rb ∧
        s.valV ra * t.valV rd % s.valV rb = 1 ∧ WroteOnlyV s t (fun r => r = rd))

/-- R155: BINV's checks in order, and its outputs: for M = 0 the inverse of each input, for M = 1 the inverse times R². The first
clause is the model's choice (assumption log 11): no word decodes to a command whose range runs past V31, since decode raises
E_OPERAND for it (R105), and `exec` of such a command raises that error too. -/
def Obligations.BinvInvertsEveryInput : Prop :=
  ∀ (rd ra : VReg) (n1 : Fin 32) (mont : Bool) (s : State),
    let x : Nat → Nat := fun k => s.valV (regPlus ra k)
    (WellFormed (.binv rd ra n1 mont) = false → exec (.binv rd ra n1 mont) s = raise .operand s) ∧
    (WellFormed (.binv rd ra n1 mont) = true → s.ctx.valid = false → exec (.binv rd ra n1 mont) s = raise .noctx s) ∧
    (WellFormed (.binv rd ra n1 mont) = true → s.ctx.valid = true → (∃ k ≤ n1.val, s.modulus ≤ x k) →
      exec (.binv rd ra n1 mont) s = raise .range s) ∧
    (WellFormed (.binv rd ra n1 mont) = true → s.ctx.valid = true → (∀ k ≤ n1.val, x k < s.modulus) →
      (∃ k ≤ n1.val, Nat.gcd (x k) s.modulus ≠ 1) → exec (.binv rd ra n1 mont) s = raise .noinv s) ∧
    (WellFormed (.binv rd ra n1 mont) = true → s.ctx.valid = true → s.ctx.Sound →
      (∀ k ≤ n1.val, x k < s.modulus ∧ Nat.gcd (x k) s.modulus = 1) →
      ∃ t, exec (.binv rd ra n1 mont) s = .next t ∧
        (∀ k ≤ n1.val,
          t.valV (regPlus rd k) < s.modulus ∧
          x k * t.valV (regPlus rd k) % s.modulus =
            if mont then radix s.ctx.s.toNat ^ 2 % s.modulus else 1) ∧
        WroteOnlyV s t (fun r => rd.val ≤ r.val ∧ r.val ≤ rd.val + n1.val))

/-- R153: the reference batched inversion gives BINV's outputs, and fails exactly when some input has no inverse. -/
def Obligations.BatchedInversionGivesTheInverses : Prop :=
  ∀ (c : Ctx) (az mont : Bool) (xs : List Nat), c.valid = true → c.Sound → (∀ x ∈ xs, x < c.m.toNat) →
    ((∀ x ∈ xs, Nat.gcd x c.m.toNat = 1) →
      batchInv (c.field az) mont xs = some (xs.map (binvElement (c.field az) mont))) ∧
    ((∃ x ∈ xs, Nat.gcd x c.m.toNat ≠ 1) → batchInv (c.field az) mont xs = none)

/-! ## Montgomery engine (42_montgomery.md) -/

/-- R170, R171: MCTX rejects an even modulus or one below 3, and otherwise loads the context: M, the least digit count S with
m < R = 2^(32·S), MP with m·MP ≡ −1 modulo 2^32, and the powers of R modulo m. -/
def Obligations.MctxLoadsTheContext : Prop :=
  ∀ (ra : VReg) (s : State),
    (s.valV ra < 3 ∨ s.valV ra % 2 = 0 → exec (.mctx ra) s = raise .modulus s) ∧
    (3 ≤ s.valV ra → s.valV ra % 2 = 1 →
      ∃ t, exec (.mctx ra) s = .next t ∧
        t.ctx.valid = true ∧ t.ctx.m = s.getV ra ∧
        1 ≤ t.ctx.s.toNat ∧ t.ctx.s.toNat ≤ 128 ∧ s.valV ra < radix t.ctx.s.toNat ∧
        (t.ctx.s.toNat = 1 ∨ radix (t.ctx.s.toNat - 1) ≤ s.valV ra) ∧
        s.valV ra * t.ctx.mp.toNat % 2 ^ 32 = 2 ^ 32 - 1 ∧
        t.ctx.r1.toNat = radix t.ctx.s.toNat % s.valV ra ∧ t.ctx.r2.toNat = radix t.ctx.s.toNat ^ 2 % s.valV ra ∧
        t.ctx.r3.toNat = radix t.ctx.s.toNat ^ 3 % s.valV ra ∧
        t.v = s.v ∧ t.pt = s.pt ∧ KeepsBuffers s t ∧ KeepsControl s t ∧ CompletedOk s t)

/-- R175 with R172: MMUL's checks in order, and its result below m whose product with R is a·b modulo m. -/
def Obligations.MmulIsTheMontgomeryProduct : Prop :=
  ∀ (rd ra rb : VReg) (s : State),
    (s.ctx.valid = false → exec (.mmul rd ra rb) s = raise .noctx s) ∧
    (s.ctx.valid = true → s.modulus ≤ s.valV ra ∨ s.modulus ≤ s.valV rb →
      exec (.mmul rd ra rb) s = raise .range s) ∧
    (s.ctx.valid = true → s.ctx.Sound → s.valV ra < s.modulus → s.valV rb < s.modulus →
      ∃ t, exec (.mmul rd ra rb) s = .next t ∧ t.valV rd < s.modulus ∧
        t.valV rd * radix s.ctx.s.toNat % s.modulus = s.valV ra * s.valV rb % s.modulus ∧
        WroteOnlyV s t (fun r => r = rd))

/-- R176: MTOM's checks in order, and its result a·R mod m. -/
def Obligations.MtomMultipliesByTheRadix : Prop :=
  ∀ (rd ra : VReg) (s : State),
    (s.ctx.valid = false → exec (.mtom rd ra) s = raise .noctx s) ∧
    (s.ctx.valid = true → s.modulus ≤ s.valV ra → exec (.mtom rd ra) s = raise .range s) ∧
    (s.ctx.valid = true → s.ctx.Sound → s.valV ra < s.modulus →
      ∃ t, exec (.mtom rd ra) s = .next t ∧ t.valV rd = s.valV ra * radix s.ctx.s.toNat % s.modulus ∧
        WroteOnlyV s t (fun r => r = rd))

/-- R177: MFROM's checks in order, and its result: the residue whose product with R is a. -/
def Obligations.MfromDividesByTheRadix : Prop :=
  ∀ (rd ra : VReg) (s : State),
    (s.ctx.valid = false → exec (.mfrom rd ra) s = raise .noctx s) ∧
    (s.ctx.valid = true → s.modulus ≤ s.valV ra → exec (.mfrom rd ra) s = raise .range s) ∧
    (s.ctx.valid = true → s.ctx.Sound → s.valV ra < s.modulus →
      ∃ t, exec (.mfrom rd ra) s = .next t ∧ t.valV rd < s.modulus ∧
        t.valV rd * radix s.ctx.s.toNat % s.modulus = s.valV ra ∧ WroteOnlyV s t (fun r => r = rd))

/-- R177, corner cases: MFROM(MTOM(x)) = x for every x < m, run as two commands. -/
def Obligations.MfromAfterMtomIsIdentity : Prop :=
  ∀ (rd rd' ra : VReg) (s : State), s.ctx.valid = true → s.ctx.Sound → s.valV ra < s.modulus →
    ∃ t u, exec (.mtom rd ra) s = .next t ∧ exec (.mfrom rd' rd) t = .next u ∧ u.valV rd' = s.valV ra

/-- R179: MEXP is base^e mod m for any base and exponent, with 0^0 = 1. -/
def Obligations.MexpIsTheModularPower : Prop :=
  ∀ (rd ra rb : VReg) (s : State),
    (s.ctx.valid = false → exec (.mexp rd ra rb) s = raise .noctx s) ∧
    (s.ctx.valid = true → s.ctx.Sound →
      ∃ t, exec (.mexp rd ra rb) s = .next t ∧ t.valV rd = s.valV ra ^ s.valV rb % s.modulus ∧
        WroteOnlyV s t (fun r => r = rd))

/-- R173: the reference CIOS algorithm gives MontMul for every sound context and reduced operands. -/
def Obligations.CiosGivesMontMul : Prop :=
  ∀ (c : Ctx) (az : Bool) (a b : Nat), c.valid = true → c.Sound → a < c.m.toNat → b < c.m.toNat →
    cios c.m.toNat c.s.toNat c.mp.toNat a b = montMul (c.field az) a b

/-! ## Point commands (43_point.md) -/

/-- R302: a point operand whose AFF and MONT are not the ones required raises E_PTSTATE, whatever its INF. -/
def Obligations.WrongPointStateRaisesPtstate : Prop :=
  ∀ (rd ra rb : PReg) (s : State), s.ctx.valid = true →
    let a := s.getPT ra
    let b := s.getPT rb
    (¬ (a.aff = false ∧ a.mont = true) → exec (.pdbl rd ra) s = raise .ptstate s) ∧
    (¬ (a.aff = false ∧ a.mont = true) ∨ ¬ (b.aff = true ∧ b.mont = true) →
      exec (.pmadd rd ra rb) s = raise .ptstate s ∧ exec (.pmdadd rd ra rb) s = raise .ptstate s) ∧
    (a.aff = false → exec (.ptoj rd ra) s = raise .ptstate s) ∧
    (a.aff = true → exec (.ptoa rd ra) s = raise .ptstate s) ∧
    (a.mont = true → exec (.ptom rd ra) s = raise .ptstate s) ∧
    (a.mont = false → exec (.pfrom rd ra) s = raise .ptstate s) ∧
    (¬ (a.aff = true ∧ a.mont = true) → ∀ w, exec (.ptab ra w) s = raise .ptstate s) ∧
    (a.aff = false → ∀ k mont, exec (.smul rd ra k mont) s = raise .ptstate s) ∧
    (∀ t, exec (.pneg rd ra) s = .next t → t.errCode ≠ CmdError.code .ptstate) ∧
    (∀ t, exec (.pmov rd ra) s = .next t → t.errCode ≠ CmdError.code .ptstate)

/-- R202, step 3: with a context and the required state of every operand, a finite operand with X or Y not below p, or with Z
not below p when Jacobian, raises E_RANGE; for PMADD and PMDADD, in RA or in RB. -/
def Obligations.UnreducedCoordinateRaisesRange : Prop :=
  ∀ (rd ra rb : PReg) (s : State), s.ctx.valid = true →
    let a := s.getPT ra
    let b := s.getPT rb
    let unreduced : Point → Prop := fun p =>
      p.inf = false ∧ (s.modulus ≤ p.x.toNat ∨ s.modulus ≤ p.y.toNat ∨ (p.aff = false ∧ s.modulus ≤ p.z.toNat))
    (unreduced a →
      exec (.pneg rd ra) s = raise .range s ∧
      (a.aff = false → a.mont = true → exec (.pdbl rd ra) s = raise .range s) ∧
      (a.aff = true → exec (.ptoj rd ra) s = raise .range s) ∧
      (a.aff = false → exec (.ptoa rd ra) s = raise .range s) ∧
      (a.mont = false → exec (.ptom rd ra) s = raise .range s) ∧
      (a.mont = true → exec (.pfrom rd ra) s = raise .range s) ∧
      (a.aff = true → a.mont = true → ∀ w, exec (.ptab ra w) s = raise .range s) ∧
      (a.aff = true → ∀ k mont, exec (.smul rd ra k mont) s = raise .range s)) ∧
    (a.aff = false → a.mont = true → b.aff = true → b.mont = true → unreduced a ∨ unreduced b →
      exec (.pmadd rd ra rb) s = raise .range s ∧ exec (.pmdadd rd ra rb) s = raise .range s)

/-- R212: PMOV copies every word and flag verbatim, in every state. -/
def Obligations.PmovCopiesVerbatim : Prop :=
  ∀ (rd ra : PReg) (s : State), ∃ t, exec (.pmov rd ra) s = .next t ∧ t.getPT rd = s.getPT ra ∧
    WroteOnlyPT s t (fun r => r = rd)

/-- R213: PDBL of an in-range Jacobian Montgomery point completes with DBL of it, with INF copied, AFF = 0 and MONT = 1. -/
def Obligations.PdblDoubles : Prop :=
  ∀ (rd ra : PReg) (s : State), s.ctx.valid = true → (s.getPT ra).aff = false → (s.getPT ra).mont = true →
    (s.getPT ra).inRange s.modulus = true →
    ∃ t, exec (.pdbl rd ra) s = .next t ∧ t.getPT rd = dbl s.field (s.getPT ra) ∧
      (t.getPT rd).inf = (s.getPT ra).inf ∧ (t.getPT rd).aff = false ∧ (t.getPT rd).mont = true ∧
      WroteOnlyPT s t (fun r => r = rd)

/-- R214 and R215: PMADD and PMDADD of an in-range Jacobian Montgomery point Q and an in-range affine Montgomery point A complete
with MADD_(Q, A), and with (Q + A) + Q, toJ(A) for an infinite Q, DBL(Q) for an infinite A (R209), in the canonical form of
R37, with AFF = 0 and MONT = 1. -/
def Obligations.PmaddAndPmdaddAdd : Prop :=
  ∀ (rd ra rb : PReg) (s : State), s.ctx.valid = true → (s.getPT ra).aff = false → (s.getPT ra).mont = true →
    (s.getPT rb).aff = true → (s.getPT rb).mont = true →
    (s.getPT ra).inRange s.modulus = true → (s.getPT rb).inRange s.modulus = true →
    let f := s.field
    let q := s.getPT ra
    let a := s.getPT rb
    (∃ t, exec (.pmadd rd ra rb) s = .next t ∧ t.getPT rd = (mixedAdd f q a).canonical ∧
      (t.getPT rd).aff = false ∧ (t.getPT rd).mont = true ∧ WroteOnlyPT s t (fun r => r = rd)) ∧
    (∃ t, exec (.pmdadd rd ra rb) s = .next t ∧
      t.getPT rd =
        (if q.inf then toJ f a else if a.inf then dbl f q else jacAdd f (mixedAdd f q a) q).canonical ∧
      (t.getPT rd).aff = false ∧ (t.getPT rd).mont = true ∧ WroteOnlyPT s t (fun r => r = rd))

/-- R205: DBL of the infinite point is INF_(0, 1). DBL of a finite one, with M = 3X² + aZ⁴ for a = 0 or a = −3 as AZERO selects,
is the finite Jacobian record of reduced coordinates that represents (M² − 8XY², M(4XY² − X₃) − 8Y⁴, 2YZ); it stays finite for
Y = 0. In affine terms it is the tangent rule: with x = X/Z², y = Y/Z³ and the slope l = (3x² + a)/(2y), it represents
(l² − 2x, l(x − x₃) − y). -/
def Obligations.DoublingFollowsTheTangentRule : Prop :=
  ∀ (c : Ctx) (az : Bool) (q : Point), c.valid = true → c.Sound →
    let f := c.field az
    let r := dbl f q
    let X := represented f q.x
    let Y := represented f q.y
    let Z := represented f q.z
    let M := 3 * X ^ 2 + curveA f * Z ^ 4
    (q.inf = true → r = infPoint false true) ∧
    (q.inf = false →
      r.inf = false ∧ r.aff = false ∧ r.mont = true ∧ r.inRange c.m.toNat = true ∧
      represented f r.z = 2 * Y * Z ∧
      represented f r.x = M ^ 2 - 8 * X * Y ^ 2 ∧
      represented f r.y = M * (4 * X * Y ^ 2 - represented f r.x) - 8 * Y ^ 4 ∧
      ∀ x y l : ZMod f.p, x * Z ^ 2 = X → y * Z ^ 3 = Y → l * (2 * y) = 3 * x ^ 2 + curveA f →
        represented f r.x = (l ^ 2 - 2 * x) * represented f r.z ^ 2 ∧
        represented f r.y = (l * (x - (l ^ 2 - 2 * x)) - y) * represented f r.z ^ 3)

/-- R208 and R207. JADD of an infinite point and another is the other. For two finite points, with the differences u of the
cross-multiplied X and v of the cross-multiplied Y: DBL where both vanish; infinity where u alone does; and otherwise the finite
Jacobian record of reduced coordinates that represents (v² − u³ − 2Uu², v(Uu² − X₃) − Su³, ZZ'u), which in affine terms is the
chord rule for the slope l. MADD_ of an in-range Jacobian and an in-range affine point is JADD with the affine one made Jacobian,
as an exact record. -/
def Obligations.AdditionFollowsTheChordRule : Prop :=
  ∀ (c : Ctx) (az : Bool) (q q' : Point), c.valid = true → c.Sound →
    let f := c.field az
    let r := jacAdd f q q'
    let z := represented f q.z
    let z' := represented f q'.z
    let U := represented f q.x * z' ^ 2
    let S := represented f q.y * z' ^ 3
    let u := represented f q'.x * z ^ 2 - U
    let v := represented f q'.y * z ^ 3 - S
    (q.inf = true → r = q') ∧
    (q.inf = false → q'.inf = true → r = q) ∧
    (q.inf = false → q'.inf = false →
      (u = 0 → v = 0 → r = dbl f q) ∧
      (u = 0 → v ≠ 0 → r = infPoint false true) ∧
      (u ≠ 0 →
        r.inf = false ∧ r.aff = false ∧ r.mont = true ∧ r.inRange c.m.toNat = true ∧
        represented f r.z = z * z' * u ∧
        represented f r.x = v ^ 2 - u ^ 3 - 2 * U * u ^ 2 ∧
        represented f r.y = v * (U * u ^ 2 - represented f r.x) - S * u ^ 3 ∧
        ∀ x y x' y' l : ZMod f.p,
          x * z ^ 2 = represented f q.x → y * z ^ 3 = represented f q.y →
          x' * z' ^ 2 = represented f q'.x → y' * z' ^ 3 = represented f q'.y → l * (x' - x) = y' - y →
          represented f r.x = (l ^ 2 - x - x') * represented f r.z ^ 2 ∧
          represented f r.y = (l * (x - (l ^ 2 - x - x')) - y) * represented f r.z ^ 3)) ∧
    (∀ a : Point, q.inRange c.m.toNat = true → q.aff = false → a.inRange c.m.toNat = true → a.aff = true → a.mont = true →
      mixedAdd f q a = jacAdd f q (toJ f a))

/-- R216: PNEG in any state: Y becomes the residue that adds up to 0 with it, and the rest is kept, in canonical form. -/
def Obligations.PnegNegatesY : Prop :=
  ∀ (rd ra : PReg) (s : State), s.ctx.valid = true → (s.getPT ra).inRange s.modulus = true →
    let p := s.getPT ra
    ∃ t, exec (.pneg rd ra) s = .next t ∧
      (t.getPT rd).inf = p.inf ∧ (t.getPT rd).aff = p.aff ∧ (t.getPT rd).mont = p.mont ∧
      (p.inf = true → (t.getPT rd).x = 0 ∧ (t.getPT rd).y = 0 ∧ (t.getPT rd).z = 0) ∧
      (p.inf = false → (t.getPT rd).x = p.x ∧ (t.getPT rd).y.toNat < s.modulus ∧
        (p.y.toNat + (t.getPT rd).y.toNat) % s.modulus = 0 ∧ (t.getPT rd).z = if p.aff then 0 else p.z) ∧
      WroteOnlyPT s t (fun r => r = rd)

/-- R217: PTOJ keeps X and Y of a finite affine point and sets Z to R1 or 1 by its domain; INF gives the canonical infinity. -/
def Obligations.PtojMakesJacobian : Prop :=
  ∀ (rd ra : PReg) (s : State), s.ctx.valid = true → (s.getPT ra).aff = true → (s.getPT ra).inRange s.modulus = true →
    let p := s.getPT ra
    ∃ t, exec (.ptoj rd ra) s = .next t ∧
      (t.getPT rd).inf = p.inf ∧ (t.getPT rd).aff = false ∧ (t.getPT rd).mont = p.mont ∧
      (p.inf = true → (t.getPT rd).x = 0 ∧ (t.getPT rd).y = 0 ∧ (t.getPT rd).z = 0) ∧
      (p.inf = false → (t.getPT rd).x = p.x ∧ (t.getPT rd).y = p.y ∧
        (t.getPT rd).z = if p.mont then s.ctx.r1 else 1) ∧
      WroteOnlyPT s t (fun r => r = rd)

/-- R218: PTOA of an in-range Jacobian point gives the affine point (X/Z², Y/Z³) of its domain, said with the domain's
multiplication; a finite point whose Z has no inverse raises E_NOINV. -/
def Obligations.PtoaDividesByPowersOfZ : Prop :=
  ∀ (rd ra : PReg) (s : State), s.ctx.valid = true → s.ctx.Sound → (s.getPT ra).aff = false →
    (s.getPT ra).inRange s.modulus = true →
    let q := s.getPT ra
    let mul := fmul s.field q.mont
    (q.inf = false → Nat.gcd q.z.toNat s.modulus ≠ 1 → exec (.ptoa rd ra) s = raise .noinv s) ∧
    (q.inf = true ∨ Nat.gcd q.z.toNat s.modulus = 1 →
      ∃ t, exec (.ptoa rd ra) s = .next t ∧
        (t.getPT rd).inf = q.inf ∧ (t.getPT rd).aff = true ∧ (t.getPT rd).mont = q.mont ∧ (t.getPT rd).z = 0 ∧
        (q.inf = true → (t.getPT rd).x = 0 ∧ (t.getPT rd).y = 0) ∧
        (q.inf = false → (t.getPT rd).x.toNat < s.modulus ∧ (t.getPT rd).y.toNat < s.modulus ∧
          mul (t.getPT rd).x.toNat (mul q.z.toNat q.z.toNat) = q.x.toNat ∧
          mul (t.getPT rd).y.toNat (mul q.z.toNat (mul q.z.toNat q.z.toNat)) = q.y.toNat) ∧
        WroteOnlyPT s t (fun r => r = rd))

/-- R219: PTOM multiplies each coordinate that the record holds by R modulo p and sets MONT. -/
def Obligations.PtomConvertsToMontgomery : Prop :=
  ∀ (rd ra : PReg) (s : State), s.ctx.valid = true → s.ctx.Sound → (s.getPT ra).mont = false →
    (s.getPT ra).inRange s.modulus = true →
    let p := s.getPT ra
    let r := radix s.ctx.s.toNat
    ∃ t, exec (.ptom rd ra) s = .next t ∧
      (t.getPT rd).inf = p.inf ∧ (t.getPT rd).aff = p.aff ∧ (t.getPT rd).mont = true ∧
      (p.inf = true → (t.getPT rd).x = 0 ∧ (t.getPT rd).y = 0 ∧ (t.getPT rd).z = 0) ∧
      (p.inf = false → (t.getPT rd).x.toNat = p.x.toNat * r % s.modulus ∧
        (t.getPT rd).y.toNat = p.y.toNat * r % s.modulus ∧
        (t.getPT rd).z.toNat = if p.aff then 0 else p.z.toNat * r % s.modulus) ∧
      WroteOnlyPT s t (fun r => r = rd)

/-- R220: PFROM gives, for each coordinate that the record holds, the residue whose product with R is that coordinate, and
clears MONT. -/
def Obligations.PfromConvertsToStandard : Prop :=
  ∀ (rd ra : PReg) (s : State), s.ctx.valid = true → s.ctx.Sound → (s.getPT ra).mont = true →
    (s.getPT ra).inRange s.modulus = true →
    let p := s.getPT ra
    let r := radix s.ctx.s.toNat
    ∃ t, exec (.pfrom rd ra) s = .next t ∧
      (t.getPT rd).inf = p.inf ∧ (t.getPT rd).aff = p.aff ∧ (t.getPT rd).mont = false ∧
      (p.inf = true → (t.getPT rd).x = 0 ∧ (t.getPT rd).y = 0 ∧ (t.getPT rd).z = 0) ∧
      (p.inf = false →
        (t.getPT rd).x.toNat < s.modulus ∧ (t.getPT rd).x.toNat * r % s.modulus = p.x.toNat ∧
        (t.getPT rd).y.toNat < s.modulus ∧ (t.getPT rd).y.toNat * r % s.modulus = p.y.toNat ∧
        (p.aff = true → (t.getPT rd).z = 0) ∧
        (p.aff = false → (t.getPT rd).z.toNat < s.modulus ∧ (t.getPT rd).z.toNat * r % s.modulus = p.z.toNat)) ∧
      WroteOnlyPT s t (fun r => r = rd)

/-- R220, corner cases: PFROM(PTOM(P)) = P for every in-range standard P, in canonical form. -/
def Obligations.PfromAfterPtomIsIdentity : Prop :=
  ∀ (rd rd' ra : PReg) (s : State), s.ctx.valid = true → s.ctx.Sound → (s.getPT ra).mont = false →
    (s.getPT ra).inRange s.modulus = true →
    ∃ t u, exec (.ptom rd ra) s = .next t ∧ exec (.pfrom rd' rd) t = .next u ∧ u.getPT rd' = (s.getPT ra).canonical

/-! ## Scalar unit (44_scalar.md) -/

/-- R263: the properties of wNAF(k, w): its value, odd and bounded nonzero digits, at most one nonzero digit in any w
consecutive ones, a positive top digit, and its length. -/
def Obligations.WnafProperties : Prop :=
  ∀ k w : Nat, 2 ≤ w → w ≤ 6 →
    nafValue (wnaf k w) = k ∧
    (∀ d ∈ wnaf k w, d ≠ 0 → d % 2 = 1 ∧ |d| < 2 ^ (w - 1)) ∧
    (∀ i j : Nat, i < j → j < i + w → (wnaf k w).getD i 0 ≠ 0 → (wnaf k w).getD j 0 = 0) ∧
    (0 < k → 0 < (wnaf k w).getLastD 0 ∧ (wnaf k w).length ≤ bitLen k + 1) ∧
    (k = 0 → (wnaf k w).length = 0) ∧
    (k < 2 ^ 4096 → (wnaf k w).length ≤ Config.nafMax)

/-- R261 with R262: NAF raises E_WIDTH outside 2..6, and otherwise writes the digits as 32-bit two's-complement words, their
number to NAFLEN, and nothing else: the entries from there on keep their words. -/
def Obligations.NafWritesTheDigits : Prop :=
  ∀ (ra : VReg) (w : Fin 16) (s : State),
    (w.val < 2 ∨ 6 < w.val → exec (.naf ra w) s = raise .width s) ∧
    (2 ≤ w.val → w.val ≤ 6 →
      ∃ t, exec (.naf ra w) s = .next t ∧ t.nafLen.toNat = (wnaf (s.valV ra) w.val).length ∧
        (∀ j : Fin 4097, t.getNaf j =
          if j.val < (wnaf (s.valV ra) w.val).length then BitVec.ofInt 32 ((wnaf (s.valV ra) w.val).getD j.val 0)
          else s.getNaf j) ∧
        t.v = s.v ∧ t.pt = s.pt ∧ t.tbl = s.tbl ∧ t.ctx = s.ctx ∧ KeepsControl s t ∧ CompletedOk s t)

/-- R266 with R265: PTAB of an in-range affine Montgomery point P. With n = 2^(w−2), D = DBL(toJ(P)), J[0] = toJ(P) and
J[i + 1] = JADD(J[i], D): E_WIDTH for an unsupported width; E_NOINV when P is finite and some finite J[i], 1 ≤ i < n, has no
invertible Z; and otherwise TABLE(P, w) has the n entries INF_(1, 1) for an infinite P, and for a finite one P itself and then
INF_(1, 1) for an infinite J[i] and toA(J[i]) for a finite one. They are written to TBL[0..n−1] with AFF = 1 and MONT = 1, and
nothing else changes. -/
def Obligations.PtabWritesTheTable : Prop :=
  ∀ (ra : PReg) (w : Fin 16) (s : State), s.ctx.valid = true → (s.getPT ra).aff = true → (s.getPT ra).mont = true →
    (s.getPT ra).inRange s.modulus = true →
    let f := s.field
    let p := s.getPT ra
    let n := 2 ^ (w.val - 2)
    let d := dbl f (toJ f p)
    let J : Nat → Point := fun i => (fun q => jacAdd f q d)^[i] (toJ f p)
    let infinity : Point := { x := 0, y := 0, z := 0, inf := true, aff := true, mont := true }
    let invertible := ∀ i, 1 ≤ i → i < n → (J i).inf = true ∨ Nat.gcd (J i).z.toNat s.modulus = 1
    (w.val < 2 ∨ 6 < w.val → exec (.ptab ra w) s = raise .width s) ∧
    (2 ≤ w.val → w.val ≤ 6 → p.inf = false → ¬ invertible →
      table f p w.val = none ∧ exec (.ptab ra w) s = raise .noinv s) ∧
    (2 ≤ w.val → w.val ≤ 6 → p.inf = true ∨ invertible →
      ∃ ts t, table f p w.val = some ts ∧ ts.length = n ∧ exec (.ptab ra w) s = .next t ∧
        (p.inf = true → ∀ i, i < n → ts[i]? = some infinity) ∧
        (p.inf = false →
          ts[0]? = some { x := p.x, y := p.y, z := 0, inf := false, aff := true, mont := true } ∧
          ∀ i, 1 ≤ i → i < n → ts[i]? = if (J i).inf then some infinity else toA f (J i)) ∧
        (∀ j : Fin 16, j.val < n → ∃ e, ts[j.val]? = some e ∧ e.aff = true ∧ e.mont = true ∧
          t.getTbl j = { x := e.x, y := e.y, inf := e.inf, aff := e.aff, mont := e.mont }) ∧
        (∀ j : Fin 16, n ≤ j.val → t.getTbl j = s.getTbl j) ∧
        t.v = s.v ∧ t.pt = s.pt ∧ t.naf = s.naf ∧ t.nafLen = s.nafLen ∧ t.ctx = s.ctx ∧ KeepsControl s t ∧
        CompletedOk s t)

/-- R267: the batched normalisation gives the same entries as toA of each point, and fails exactly when that does. -/
def Obligations.BatchedNormalisationGivesTheTable : Prop :=
  ∀ (c : Ctx) (az : Bool) (js : List Point), c.valid = true → c.Sound →
    (∀ j ∈ js, j.aff = false ∧ j.mont = true ∧ j.inRange c.m.toNat = true) →
    batchNormalise (c.field az) js = toAAll (c.field az) js

/-- R270, step 5: SMUL of an infinite point or of k = 0 writes the canonical infinity to PT[rd] and nothing else, before the
order is looked at. -/
def Obligations.SmulEarlyResult : Prop :=
  ∀ (rd ra : PReg) (rb : VReg) (mont : Bool) (s : State), s.ctx.valid = true → (s.getPT ra).aff = true →
    (s.getPT ra).inRange s.modulus = true → (s.getPT ra).inf = true ∨ s.valV rb = 0 →
    ∃ t, exec (.smul rd ra rb mont) s = .next t ∧ t.getPT rd = infPoint true mont ∧ WroteOnlyPT s t (fun r => r = rd)

/-- R271 with R264, R270, R272, R274: SMUL of a finite in-range affine point and 0 < k: E_RANGE for k not below the order;
E_NOINV when the table or the result has none; otherwise the result, the table of P in Montgomery form and the NAF digits of k
are written together, and nothing else. The result is toA of the scan, written out here: from INF_(0, 1), for each digit from the
most significant, the last of the list, to the least, Q becomes DBL(Q) for 0, MDADD(Q, T[d div 2]) for d > 0 and
MDADD(Q, NEG(T[−d div 2])) for d < 0, with MDADD of R209 as in PmaddAndPmdaddAdd and T the table that PtabWritesTheTable gives.
The default of a table look-up is never taken, since the digits are below 2^(w−1) (R263). -/
def Obligations.SmulWritesResultTableAndDigits : Prop :=
  ∀ (rd ra : PReg) (rb : VReg) (mont : Bool) (s : State), s.ctx.valid = true → (s.getPT ra).aff = true →
    (s.getPT ra).inRange s.modulus = true → (s.getPT ra).inf = false → 0 < s.valV rb →
    let f := s.field
    let p := s.getPT ra
    let k := s.valV rb
    let w := if bitLen s.modulus ≤ 192 then 5 else 6
    let pm := if p.mont then p else tom f p
    let infinity : Point := { x := 0, y := 0, z := 0, inf := true, aff := false, mont := true }
    let mdadd : Point → Point → Point := fun q a =>
      if q.inf then toJ f a else if a.inf then dbl f q else jacAdd f (mixedAdd f q a) q
    let entry : List Point → Int → Point := fun ts d => ts.getD (d.toNat / 2) (infPoint true true)
    let round : List Point → Int → Point → Point := fun ts d q =>
      if d = 0 then dbl f q
      else if 0 < d then mdadd q (entry ts d)
      else mdadd q (negPoint f (entry ts (-d)))
    let result : List Point → Option Point := fun ts => toA f ((wnaf k w).foldr (round ts) infinity)
    (s.valV s.ord ≤ k → exec (.smul rd ra rb mont) s = raise .range s) ∧
    (k < s.valV s.ord → (∀ ts, table f pm w = some ts → result ts = none) →
      exec (.smul rd ra rb mont) s = raise .noinv s) ∧
    (∀ ts r, k < s.valV s.ord → table f pm w = some ts → result ts = some r →
      ∃ t, exec (.smul rd ra rb mont) s = .next t ∧
        t.getPT rd = (if mont then r else fromm f r) ∧ (t.getPT rd).aff = true ∧ (t.getPT rd).mont = mont ∧
        (∀ j : Fin 16, j.val < 2 ^ (w - 2) → ∃ e, ts[j.val]? = some e ∧
          t.getTbl j = { x := e.x, y := e.y, inf := e.inf, aff := e.aff, mont := e.mont }) ∧
        (∀ j : Fin 16, 2 ^ (w - 2) ≤ j.val → t.getTbl j = s.getTbl j) ∧
        t.nafLen.toNat = (wnaf k w).length ∧
        (∀ j : Fin 4097, t.getNaf j =
          if j.val < (wnaf k w).length then BitVec.ofInt 32 ((wnaf k w).getD j.val 0) else s.getNaf j) ∧
        t.v = s.v ∧ KeepsPT s t (fun r => r = rd) ∧ t.ctx = s.ctx ∧ KeepsControl s t ∧ CompletedOk s t)

/-! ## Errors (60_exceptions.md) -/

/-- R135, with R174 and R202: a command that needs a context raises E_NOCTX without one, before its other checks, and the other
commands never raise it. -/
def Obligations.ContextIsCheckedFirst : Prop :=
  (∀ (i : Instr) (s : State), WellFormed i = true → raises .noctx i = true → s.ctx.valid = false →
    exec i s = raise .noctx s) ∧
  (∀ (i : Instr) (s t : State), raises .noctx i = false → exec i s = .next t → t.errCode ≠ CmdError.code .noctx)

/-- R300: a command word that ends with an error changes nothing but STATUS: ERR, ERRCODE, DONE and BUSY. -/
def Obligations.ErrorsArePrecise : Prop :=
  ∀ (w : Word) (s t : State), runWord w s = .next t → t.errCode ≠ 0 →
    ∃ e, t.errCode = CmdError.code e ∧ t.err = true ∧ t.done = true ∧ t.busy = false ∧ SameOperands s t ∧
      KeepsControl s t

/-- R301: the codes of the errors; each command raises only the errors whose "raised by" column names it; and a code above 8 is
never produced. -/
def Obligations.OnlyListedErrorsAreRaised : Prop :=
  ([CmdError.illegal, .operand, .noctx, .ptstate, .range, .modulus, .width, .noinv].map CmdError.code =
    [1, 2, 3, 4, 5, 6, 7, 8]) ∧
  (∀ (i : Instr) (s t : State) (e : CmdError), exec i s = .next t → t.errCode = CmdError.code e → raises e i = true) ∧
  (∀ (w : Word) (e : CmdError), decode w = .error e → e = .illegal ∨ e = .operand) ∧
  (∀ (w : Word) (s t : State), runWord w s = .next t → t.errCode.toNat ≤ 8)

/-- R45, R46, R116, R119: after issue, a completed command's STATUS reads 0x00000002 for a success and 0x00000006 + 0x100 · code
for an error, when HAZ is 0. -/
def Obligations.StatusAfterCompletion : Prop :=
  ∀ (c w : Word) (s t : State), s.haz = false → runWord w (s.issue c) = .next t →
    t.readLoc .status = 2 ∨ ∃ e, t.readLoc .status = 6 + 0x100 * (CmdError.code e).setWidth 32

/-- R55, R310: the interrupt output is IE AND DONE, so a completion raises it exactly when IE is 1, and a write to STATUS that
clears DONE lowers it. -/
def Obligations.InterruptFollowsDone : Prop :=
  (∀ s : State, s.irq = (s.ie && s.done)) ∧
  (∀ (w : Word) (s t : State), runWord w s = .next t → t.irq = s.ie) ∧
  (∀ (s : State) (w : Word), w.getLsbD 1 = true → (s.ackStatus w).irq = false) ∧
  (∀ (s : State) (w : Word), (s.issue w).irq = false)

/-! ## State and whole-machine rules (10_state.md) -/

/-- R57: the values that the reset table gives, after power-on and after either reset in a run; the context's data fields, which
it leaves unspecified, cannot be observed, since their windows read 0. -/
def Obligations.ResetValues : Prop :=
  let clear : State → Prop := fun t =>
    t.readLoc .id = 0x4D4D4331 ∧ t.readLoc .hwcfg = 0x08200080 ∧ t.readLoc .ctrl = 0 ∧ t.readLoc .status = 0 ∧
      t.readLoc .curve = 0 ∧ t.readLoc .ctxStat = 0 ∧ t.readLoc .ctxMp = 0 ∧ t.readLoc .nafLen = 0 ∧
      (∀ f j, t.readLoc (.ctxDigit f j) = 0) ∧ t.ctx.valid = false ∧ t.inFlight = none ∧ t.irq = false
  clear State.reset ∧
  (∀ (s : State) (rest : List Event), s.rstN = false → s.schedule = .resetRises :: rest →
    ∃ t, step s = .next t ∧ clear t ∧ t.rstN = true) ∧
  (∀ (s : State) (w : Word) (rest : List Event), s.rstN = true → w.getLsbD 1 = true →
    s.schedule = .bus { kind := .write, addr := 0x8, size := .four, wdata := w } :: rest →
    ∃ t, step s = .next t ∧ clear t ∧ t.response = .okayWrite)

/-- R46: a write to STATUS clears DONE, ERR with ERRCODE, or HAZ by its bits 1, 2 and 3, and changes nothing else, busy or
idle. -/
def Obligations.StatusWriteOneToClear : Prop :=
  ∀ (s : State) (w : Word) (rest : List Event), s.rstN = true →
    s.schedule = .bus { kind := .write, addr := 0xC, size := .four, wdata := w } :: rest →
    ∃ t, step s = .next t ∧
      t.done = (if w.getLsbD 1 then false else s.done) ∧ t.err = (if w.getLsbD 2 then false else s.err) ∧
      t.errCode = (if w.getLsbD 2 then 0 else s.errCode) ∧ t.haz = (if w.getLsbD 3 then false else s.haz) ∧
      SameOperands s t ∧ t.inFlight = s.inFlight ∧ t.ie = s.ie

/-- R41: in a step, CTX changes only by a successful MCTX, which loads the context of its operand, or by a reset, which clears
VALID; a bus write, a busy command and every other command leave it. -/
def Obligations.OnlyMctxAndResetWriteTheContext : Prop :=
  ∀ s t : State, step s = .next t →
    t.ctx = s.ctx ∨
    (∃ w ra, s.inFlight = some w ∧ decode w = .ok (.mctx ra) ∧ 3 ≤ s.valV ra ∧ s.valV ra % 2 = 1 ∧
      t.ctx = contextFor (s.getV ra)) ∨
    (t.ctx.valid = false ∧ t.inFlight = none ∧
      (s.schedule.head? = some .resetRises ∨
        ∃ tr, s.schedule.head? = some (.bus tr) ∧ tr.kind = .write ∧ tr.addr = 0x8 ∧ tr.wdata.getLsbD 1 = true))

/-- R32, R38, R39, R54, R56: a command writes no register but its destination, TBL only if it is PTAB or SMUL, the NAF buffer
only if it is NAF or SMUL, and never CTRL, HAZ or CURVE. -/
def Obligations.CommandsWriteOnlyTheirDestinations : Prop :=
  ∀ (i : Instr) (s t : State), WellFormed i = true → exec i s = .next t →
    KeepsV s t (fun r => writesV i r = true) ∧ KeepsPT s t (fun r => writesPT i r = true) ∧
    (writesTbl i = false → t.tbl = s.tbl) ∧ (writesNaf i = false → t.naf = s.naf ∧ t.nafLen = s.nafLen) ∧
    (writesCtx i = false → t.ctx = s.ctx) ∧ KeepsControl s t

/-- R38, R276: no command's result depends on what TBL, NAF or NAFLEN held before. Whatever they hold, V, PT, CTX and STATUS end
the same; the entries of TBL and of NAF that the command writes are the same entries with the same words (`wt`, `wn`), and so is
a NAFLEN it writes (`wl`); and what it does not write keeps the contents it had. -/
def Obligations.OldTableAndDigitsAreNeverRead : Prop :=
  ∀ (i : Instr) (s : State), ∃ (t : State) (wt : Fin 16 → Option TblEntry) (wn : Fin 4097 → Option Word)
      (wl : Option (BitVec 13)),
    exec i s = .next t ∧
    ∀ (tbl : Vector TblEntry 16) (naf : Vector Word 4097) (len : BitVec 13),
      ∃ u, exec i { s with tbl := tbl, naf := naf, nafLen := len } = .next u ∧
        u.v = t.v ∧ u.pt = t.pt ∧ u.ctx = t.ctx ∧ u.inFlight = t.inFlight ∧ u.done = t.done ∧ u.err = t.err ∧
        u.haz = t.haz ∧ u.errCode = t.errCode ∧
        (∀ j : Fin 16, u.getTbl j = (wt j).getD tbl[j.val]) ∧ (∀ j : Fin 4097, u.getNaf j = (wn j).getD naf[j.val]) ∧
        u.nafLen = wl.getD len

/-- The invariant that every step keeps: a sound context (R170), a STATUS as issue and completion leave it (R116, R119, R301),
and NAFLEN at most 4097 (R39). -/
def Obligations.StepKeepsTheInvariant : Prop := ∀ s t : State, s.Sound → step s = .next t → t.Sound

/-- The state after reset meets the invariant (R57). -/
def Obligations.ResetMeetsTheInvariant : Prop := State.reset.Sound

/-- While `rst_n` is high every step answers a next state; MMC refuses only a bus transaction while held in reset (R70, R340,
U4). -/
def Obligations.OnlyBusInResetIsRefused : Prop :=
  (∀ s : State, s.rstN = true → ∃ t, step s = .next t) ∧
  (∀ (s : State) (r : Refusal), step s = .refused r →
    r = .busInReset ∧ s.rstN = false ∧ ∃ tr, s.schedule.head? = some (.bus tr))

/-! ## Host interface (20_memory.md, 70_reset_and_hazards.md) -/

/-- R71: the offset of every location, row by row; and the reading of an aligned offset is the inverse of these rows: no two
locations share an offset, and every other aligned offset is reserved. -/
def Obligations.AddressMapIsOneToOne : Prop :=
  (∀ l : Loc, l.offset < 2 ^ 17 ∧ l.offset % 4 = 0 ∧ Loc.ofOffset l.offset = some l) ∧
  (∀ (a : Nat) (l : Loc), a % 4 = 0 → Loc.ofOffset a = some l → l.offset = a) ∧
  ([Loc.id, .hwcfg, .ctrl, .status, .cmd, .curve, .ctxStat, .ctxMp, .nafLen].map Loc.offset =
    [0x00, 0x04, 0x08, 0x0C, 0x10, 0x14, 0x18, 0x1C, 0x20]) ∧
  (∀ j, (Loc.ctxDigit .m j).offset = 0x00800 + 4 * j.val ∧ (Loc.ctxDigit .r1 j).offset = 0x00A00 + 4 * j.val ∧
    (Loc.ctxDigit .r2 j).offset = 0x00C00 + 4 * j.val ∧ (Loc.ctxDigit .r3 j).offset = 0x00E00 + 4 * j.val) ∧
  (∀ i j, (Loc.vDigit i j).offset = 0x01000 + 0x200 * i.val + 4 * j.val) ∧
  (∀ i j, (Loc.ptDigit i .x j).offset = 0x05000 + 0x800 * i.val + 0x000 + 4 * j.val ∧
    (Loc.ptDigit i .y j).offset = 0x05000 + 0x800 * i.val + 0x200 + 4 * j.val ∧
    (Loc.ptDigit i .z j).offset = 0x05000 + 0x800 * i.val + 0x400 + 4 * j.val) ∧
  (∀ i, (Loc.ptFlags i).offset = 0x05000 + 0x800 * i.val + 0x600) ∧
  (∀ i j, (Loc.tblDigit i .x j).offset = 0x09000 + 0x800 * i.val + 0x000 + 4 * j.val ∧
    (Loc.tblDigit i .y j).offset = 0x09000 + 0x800 * i.val + 0x200 + 4 * j.val) ∧
  (∀ i, (Loc.tblFlags i).offset = 0x09000 + 0x800 * i.val + 0x400) ∧
  ∀ j, (Loc.nafDigit j).offset = 0x18000 + 4 * j.val

/-- R81 with R78, R79, R80: a transaction of size 1 or 2, one that is misaligned, one to a reserved offset and a write to a
read-only location, those that R80 lists, get ERROR and no other does; and an ERROR changes no state. -/
def Obligations.BusErrorsChangeNothing : Prop :=
  (∀ tr : Transaction, (∃ e, busCheck tr = .error e) ↔
    (tr.size ≠ .four ∨ tr.addr.toNat % 4 ≠ 0 ∨ Loc.ofOffset tr.addr.toNat = none ∨
      (tr.kind = .write ∧ ∃ l, Loc.ofOffset tr.addr.toNat = some l ∧
        (l = .id ∨ l = .hwcfg ∨ l = .ctxStat ∨ l = .ctxMp ∨ l = .nafLen ∨ (∃ f j, l = .ctxDigit f j) ∨
          (∃ i c j, l = .tblDigit i c j) ∨ (∃ i, l = .tblFlags i) ∨ ∃ j, l = .nafDigit j)))) ∧
  (∀ (s : State) (tr : Transaction) (e : BusError) (rest : List Event), s.rstN = true →
    s.schedule = .bus tr :: rest → busCheck tr = .error e →
    step s = .next { s with schedule := rest, response := .error })

/-- R72, R73, R48, R44: what V, PT, CURVE and CTRL read as, and what a step of an idle machine does with a write to one of
them. A digit of V or of a coordinate becomes the word, and every other digit is as before; FLAGS takes bits 2, 1 and 0 as MONT,
AFF and INF; CURVE takes bit 0 as AZERO and bits 12:8 as ORD; CTRL, with bit 1 clear, takes bit 0 as IE. The location then reads as
the word without its reserved bits, and nothing else of the machine changes but the bus response. -/
def Obligations.DigitWriteThenRead : Prop :=
  (∀ (x : Value) (j k : Fin 128) (w : Word),
    digit (setDigit x j.val w) k.val = if k = j then w else digit x k.val) ∧
  (∀ (s : State) (i : VReg) (j : Fin 128), s.readLoc (.vDigit i j) = digit (s.getV i) j.val) ∧
  (∀ (s : State) (i : PReg) (c : Coord) (j : Fin 128), s.readLoc (.ptDigit i c j) = digit ((s.getPT i).get c) j.val) ∧
  (∀ (s : State) (i : PReg), s.readLoc (.ptFlags i) =
    0#29 ++ BitVec.ofBool (s.getPT i).mont ++ BitVec.ofBool (s.getPT i).aff ++ BitVec.ofBool (s.getPT i).inf) ∧
  (∀ (s : State) (w : Word) (rest : List Event), s.rstN = true → s.busy = false →
    let written : Nat → Prop := fun o =>
      s.schedule = .bus { kind := .write, addr := BitVec.ofNat 17 o, size := .four, wdata := w } :: rest
    let block : Coord → Nat := fun c => match c with
      | .x => 0x000
      | .y => 0x200
      | .z => 0x400
    (∀ (i : VReg) (j : Fin 128), written (0x1000 + 0x200 * i.val + 4 * j.val) →
      ∃ v : Vector Value 32, step s = .next { s with v := v, schedule := rest, response := .okayWrite } ∧
        ∀ (i' : VReg) (j' : Fin 128),
          digit v[i'.val] j'.val = if i' = i ∧ j' = j then w else digit (s.getV i') j'.val) ∧
    (∀ (i : PReg) (c : Coord) (j : Fin 128), written (0x5000 + 0x800 * i.val + block c + 4 * j.val) →
      ∃ p : Vector Point 8, step s = .next { s with pt := p, schedule := rest, response := .okayWrite } ∧
        (∀ (i' : PReg) (c' : Coord) (j' : Fin 128),
          digit (p[i'.val].get c') j'.val =
            if i' = i ∧ c' = c ∧ j' = j then w else digit ((s.getPT i').get c') j'.val) ∧
        ∀ i' : PReg, p[i'.val].inf = (s.getPT i').inf ∧ p[i'.val].aff = (s.getPT i').aff ∧
          p[i'.val].mont = (s.getPT i').mont) ∧
    (∀ i : PReg, written (0x5000 + 0x800 * i.val + 0x600) →
      ∃ p : Vector Point 8,
        let t : State := { s with pt := p, schedule := rest, response := .okayWrite }
        step s = .next t ∧ t.readLoc (.ptFlags i) = w &&& 7 ∧
        p[i.val] = { s.getPT i with inf := w.getLsbD 0, aff := w.getLsbD 1, mont := w.getLsbD 2 } ∧
        ∀ i' : PReg, i' ≠ i → p[i'.val] = s.getPT i') ∧
    (written 0x14 →
      ∃ o : VReg, o.val = bits w 8 5 ∧
        let t : State := { s with azero := w.getLsbD 0, ord := o, schedule := rest, response := .okayWrite }
        step s = .next t ∧ t.readLoc .curve = w &&& 0x1F01) ∧
    (written 0x8 → w.getLsbD 1 = false →
      let t : State := { s with ie := w.getLsbD 0, schedule := rest, response := .okayWrite }
      step s = .next t ∧ t.readLoc .ctrl = w &&& 1))

/-- R82: an accepted read while idle returns the location's word and changes nothing but the response. The words are those of
R42–R51 and R72–R75, in every state, each field at its bits and 0 at the reserved ones; a digit is that of R13, and CTXSTAT, CTXMP
and the context window read 0 while VALID = 0. -/
def Obligations.IdleReadHasNoSideEffect : Prop :=
  (∀ (s : State) (tr : Transaction) (l : Loc) (rest : List Event), s.rstN = true → s.busy = false →
    s.schedule = .bus tr :: rest → tr.kind = .read → busCheck tr = .ok l →
    step s = .next { s with schedule := rest, response := .okayRead (s.readLoc l) }) ∧
  (∀ s : State,
    let bit : Bool → BitVec 1 := BitVec.ofBool
    let word : Value → Fin 128 → Word := fun x j => BitVec.ofNat 32 (x.toNat / 2 ^ (32 * j.val))
    let whenValid : Word → Word := fun w => if s.ctx.valid then w else 0
    s.readLoc .id = 0x4D4D4331 ∧ s.readLoc .hwcfg = 0x08200080 ∧ s.readLoc .cmd = 0 ∧
    s.readLoc .ctrl = 0#31 ++ bit s.ie ∧
    s.readLoc .status =
      0#20 ++ s.errCode ++ 0#4 ++ bit s.haz ++ bit s.err ++ bit s.done ++ bit s.inFlight.isSome ∧
    s.readLoc .curve = 0#19 ++ BitVec.ofNat 5 s.ord.val ++ 0#7 ++ bit s.azero ∧
    s.readLoc .ctxStat = whenValid (0#16 ++ s.ctx.s ++ 0#7 ++ 1#1) ∧ s.readLoc .ctxMp = whenValid s.ctx.mp ∧
    s.readLoc .nafLen = 0#19 ++ s.nafLen ∧
    (∀ j, s.readLoc (.ctxDigit .m j) = whenValid (word s.ctx.m j) ∧
      s.readLoc (.ctxDigit .r1 j) = whenValid (word s.ctx.r1 j) ∧
      s.readLoc (.ctxDigit .r2 j) = whenValid (word s.ctx.r2 j) ∧
      s.readLoc (.ctxDigit .r3 j) = whenValid (word s.ctx.r3 j)) ∧
    (∀ i j, s.readLoc (.vDigit i j) = word (s.getV i) j) ∧
    (∀ i j, s.readLoc (.ptDigit i .x j) = word (s.getPT i).x j ∧
      s.readLoc (.ptDigit i .y j) = word (s.getPT i).y j ∧ s.readLoc (.ptDigit i .z j) = word (s.getPT i).z j) ∧
    (∀ i, s.readLoc (.ptFlags i) = 0#29 ++ bit (s.getPT i).mont ++ bit (s.getPT i).aff ++ bit (s.getPT i).inf) ∧
    (∀ i j, s.readLoc (.tblDigit i .x j) = word (s.getTbl i).x j ∧
      s.readLoc (.tblDigit i .y j) = word (s.getTbl i).y j) ∧
    (∀ i, s.readLoc (.tblFlags i) = 0#29 ++ bit (s.getTbl i).mont ++ bit (s.getTbl i).aff ++ bit (s.getTbl i).inf) ∧
    ∀ j, s.readLoc (.nafDigit j) = s.getNaf j)

/-- R350: the busy-time rules for every accepted transaction. -/
def Obligations.BusyTimeRules : Prop :=
  ∀ (s : State) (tr : Transaction) (l : Loc) (rest : List Event), s.rstN = true → s.busy = true →
    s.schedule = .bus tr :: rest → busCheck tr = .ok l →
    (tr.kind = .write →
      (l = .cmd ∨ l = .curve ∨ (∃ i j, l = .vDigit i j) ∨ (∃ i c j, l = .ptDigit i c j) ∨ ∃ i, l = .ptFlags i) →
      step s = .next { s with schedule := rest, response := .okayWrite, haz := true }) ∧
    (tr.kind = .write → l = .ctrl →
      step s = .next { s.writeCtrl tr.wdata with schedule := rest, response := .okayWrite }) ∧
    (tr.kind = .write → l = .status →
      step s = .next { s.ackStatus tr.wdata with schedule := rest, response := .okayWrite }) ∧
    (tr.kind = .read → (l = .id ∨ l = .hwcfg ∨ l = .ctrl ∨ l = .status ∨ l = .cmd ∨ l = .curve) →
      step s = .next { s with schedule := rest, response := .okayRead (s.readLoc l) }) ∧
    (tr.kind = .read → ¬ (l = .id ∨ l = .hwcfg ∨ l = .ctrl ∨ l = .status ∨ l = .cmd ∨ l = .curve) →
      ∃ v, step s =
        .next { s with schedule := rest, response := .okayRead v, haz := true, draws := s.draws + 1 })

/-- R53, R117, R350: while a command stays in flight, no step changes a register it could read, nor its word: its operands are
those at issue. -/
def Obligations.OperandsAreHeldWhileBusy : Prop :=
  ∀ s t : State, step s = .next t → s.busy = true → t.busy = true → SameOperands s t ∧ t.inFlight = s.inFlight

/-- R87, R117, R120, R350: whatever transactions arrive while a command is in flight, other than a soft reset, its results and
its STATUS outcome are those of executing it at once. -/
def Obligations.BusyTrafficDoesNotChangeTheOutcome : Prop :=
  ∀ (s : State) (w : Word) (ts : List Transaction), s.rstN = true → s.inFlight = some w → s.done = false → s.err = false →
    s.errCode = 0 → (∀ t ∈ ts, NotSoftReset t) → s.schedule = ts.map .bus ++ [.completes] →
    ∃ r u, runWord w s = .next r ∧ stepsFrom (ts.length + 1) s = .next u ∧ SameResults r u
end

