-- ==== Sys2Proof/Laws/Arith.lean ====
section
/-! SUPPORT. What the shared arithmetic does: lengths, the EEA (R151) and Montgomery multiplication (R172). -/

namespace Sys2Proof.Machine

/-! ### Lengths -/

theorem lt_two_pow_bitLen (x : Nat) : x < 2 ^ bitLen x := by
  unfold bitLen
  split
  · simp_all
  · exact Nat.lt_log2_self

theorem bitLen_zero : bitLen 0 = 0 := rfl

theorem two_pow_le_of_bitLen {x n : Nat} (h : bitLen x = n + 1) : 2 ^ n ≤ x := by
  unfold bitLen at h
  split at h
  · simp at h
  · next hx =>
    have : Nat.log2 x = n := by omega
    exact this ▸ Nat.log2_self_le hx

theorem bitLen_le {x n : Nat} (h : x < 2 ^ n) : bitLen x ≤ n := by
  rcases hk : bitLen x with _ | k
  · omega
  · have h1 := two_pow_le_of_bitLen hk
    have : 2 ^ k < 2 ^ n := lt_of_le_of_lt h1 h
    exact (Nat.pow_lt_pow_iff_right (by decide)).mp this

/-- A digit count covers the whole number. -/
theorem lt_radix_digitCount (x : Nat) : x < radix (digitCount x) := by
  refine lt_of_lt_of_le (lt_two_pow_bitLen x) (Nat.pow_le_pow_right (by decide) ?_)
  unfold digitCount
  omega

theorem digitCount_le (x : Value) : digitCount x.toNat ≤ 128 := by
  have h : bitLen x.toNat ≤ 4096 := bitLen_le (n := 4096) x.isLt
  unfold digitCount
  omega

theorem digitCount_pos (x : Nat) : 1 ≤ digitCount x := by unfold digitCount; omega

/-! ### The extended Euclidean algorithm -/

/-- A property that every round keeps holds when the loop of R151 ends with v3 = 0, and it does end when the fuel is at least
twice the bit length of v3. -/
theorem eeaLoop_ends (P : Nat → Nat → Nat → Nat → Bool → Prop)
    (keep : ∀ u1 u3 v1 v3 odd, v3 ≠ 0 → P u1 u3 v1 v3 odd → P v1 v3 (u1 + u3 / v3 * v1) (u3 % v3) (!odd)) :
    ∀ k fuel u1 u3 v1 v3 odd, v3 < 2 ^ k → 2 * k ≤ fuel → P u1 u3 v1 v3 odd →
      ∃ w, P (eeaLoop fuel u1 u3 v1 v3 odd).1 (eeaLoop fuel u1 u3 v1 v3 odd).2.1 w 0
        (eeaLoop fuel u1 u3 v1 v3 odd).2.2 := by
  intro k
  induction k with
  | zero =>
    intro fuel u1 u3 v1 v3 odd hv _ hP
    obtain rfl : v3 = 0 := by simpa using hv
    cases fuel <;> exact ⟨v1, by simpa [eeaLoop] using hP⟩
  | succ k ih =>
    intro fuel u1 u3 v1 v3 odd hv hf hP
    obtain ⟨fuel, rfl⟩ : ∃ f, fuel = f + 1 + 1 := ⟨fuel - 2, by omega⟩
    by_cases h0 : v3 = 0
    · subst h0
      exact ⟨v1, by simpa [eeaLoop] using hP⟩
    · have h1 := keep _ _ _ _ _ h0 hP
      by_cases hw : u3 % v3 = 0
      · refine ⟨u1 + u3 / v3 * v1, ?_⟩
        rw [hw] at h1
        simpa [eeaLoop, h0, hw] using h1
      · have h2 := keep _ _ _ _ _ hw h1
        have hlt : u3 % v3 < v3 := Nat.mod_lt _ (Nat.pos_of_ne_zero h0)
        have hsmall : v3 % (u3 % v3) < 2 ^ k := by
          have hpow : 2 ^ (k + 1) = 2 * 2 ^ k := by rw [Nat.pow_succ]; ring
          have hm : v3 % (u3 % v3) < u3 % v3 := Nat.mod_lt _ (Nat.pos_of_ne_zero hw)
          have hd : u3 % v3 * (v3 / (u3 % v3)) + v3 % (u3 % v3) = v3 := Nat.div_add_mod _ _
          have hq : 1 ≤ v3 / (u3 % v3) := Nat.div_pos (Nat.le_of_lt hlt) (Nat.pos_of_ne_zero hw)
          have : u3 % v3 ≤ u3 % v3 * (v3 / (u3 % v3)) := Nat.le_mul_of_pos_right _ hq
          omega
        have := ih fuel _ _ _ _ _ hsmall (by omega) h2
        simpa [eeaLoop, h0, hw] using this

/-- What one round of R151 keeps: the two congruences with the sign that `odd` tells, the product identity, the gcd, and the
order of the cofactors and remainders once the first round is over. -/
def EeaRound (a n u1 u3 v1 v3 : Nat) (odd : Bool) : Prop :=
  (n : Int) ∣ (if odd then (u1 : Int) * a + u3 else u1 * a - u3) ∧
  (n : Int) ∣ (if odd then (v1 : Int) * a - v3 else v1 * a + v3) ∧
  u1 * v3 + v1 * u3 = n ∧ Nat.gcd u3 v3 = Nat.gcd a n ∧
  ((u1 ≤ v1 ∧ v3 < u3) ∨ (u1 = 1 ∧ v1 = 0 ∧ u3 = a ∧ v3 = n))

theorem eeaRound_keep {a n : Nat} (u1 u3 v1 v3 : Nat) (odd : Bool) (h0 : v3 ≠ 0)
    (h : EeaRound a n u1 u3 v1 v3 odd) : EeaRound a n v1 v3 (u1 + u3 / v3 * v1) (u3 % v3) (!odd) := by
  obtain ⟨hu, hv, hs, hg, ho⟩ := h
  have hm : (u3 % v3 : Nat) + v3 * (u3 / v3) = u3 := Nat.mod_add_div u3 v3
  have hmz : ((u3 % v3 : Nat) : Int) = (u3 : Int) - v3 * (u3 / v3 : Nat) := by
    have := congrArg (Nat.cast : Nat → Int) hm
    push_cast at this ⊢
    linarith
  refine ⟨?_, ?_, ?_, ?_, ?_⟩
  · cases odd <;> simpa using hv
  · cases odd
    · have e : ((u1 + u3 / v3 * v1 : Nat) : Int) * a - (u3 % v3 : Nat)
          = ((u1 : Int) * a - u3) + (u3 / v3 : Nat) * ((v1 : Int) * a + v3) := by
        rw [hmz]; push_cast; ring
      simp only [Bool.not_false, if_true, Bool.false_eq_true, if_false] at hu hv ⊢
      rw [e]
      exact Int.dvd_add hu (Dvd.dvd.mul_left hv _)
    · have e : ((u1 + u3 / v3 * v1 : Nat) : Int) * a + (u3 % v3 : Nat)
          = ((u1 : Int) * a + u3) + (u3 / v3 : Nat) * ((v1 : Int) * a - v3) := by
        rw [hmz]; push_cast; ring
      simp only [Bool.not_true, if_true, Bool.false_eq_true, if_false] at hu hv ⊢
      rw [e]
      exact Int.dvd_add hu (Dvd.dvd.mul_left hv _)
  · calc v1 * (u3 % v3) + (u1 + u3 / v3 * v1) * v3 = u1 * v3 + v1 * (u3 % v3 + v3 * (u3 / v3)) := by ring
      _ = n := by rw [hm, hs]
  · rw [← hg, Nat.gcd_comm v3, ← Nat.gcd_rec v3 u3, Nat.gcd_comm]
  · left
    have hlt : u3 % v3 < v3 := Nat.mod_lt _ (Nat.pos_of_ne_zero h0)
    refine ⟨?_, hlt⟩
    rcases ho with ⟨_, hlt'⟩ | ⟨rfl, rfl, _, _⟩
    · have hq : 1 ≤ u3 / v3 := Nat.div_pos (Nat.le_of_lt hlt') (Nat.pos_of_ne_zero h0)
      have : v1 ≤ u3 / v3 * v1 := Nat.le_mul_of_pos_left _ hq
      omega
    · omega

/-- The state of the loop when it ends, from the start that `eeaInv` gives it. -/
theorem eeaLoop_final (a n : Nat) :
    ∃ w, EeaRound a n (eeaLoop (2 * bitLen n + 2) 1 a 0 n false).1 (eeaLoop (2 * bitLen n + 2) 1 a 0 n false).2.1 w 0
      (eeaLoop (2 * bitLen n + 2) 1 a 0 n false).2.2 :=
  eeaLoop_ends (EeaRound a n) (fun u1 u3 v1 v3 odd h0 h => eeaRound_keep u1 u3 v1 v3 odd h0 h) (bitLen n) _ _ _ _ _ _
    (lt_two_pow_bitLen n) (by omega)
    ⟨by simp, by simp, by simp, rfl, Or.inr ⟨rfl, rfl, rfl, rfl⟩⟩

/-- `eea_inv` answers exactly when a and n are coprime (R151). -/
theorem eeaInv_isSome (a n : Nat) : (eeaInv a n).isSome = true ↔ Nat.gcd a n = 1 := by
  obtain ⟨w, -, -, -, hg, -⟩ := eeaLoop_final a n
  unfold eeaInv
  generalize eeaLoop (2 * bitLen n + 2) 1 a 0 n false = r at hg
  obtain ⟨u1, u3, odd⟩ := r
  simp only [Nat.gcd_zero_right] at hg
  by_cases h : u3 = 1 <;> simp [h, ← hg]

/-- The inverse of R16: for a < n, n ≥ 2 and gcd(a, n) = 1, `inv a n` is below n and times a is 1 modulo n (R150, R151). -/
theorem inv_spec {a n : Nat} (ha : a < n) (hn : 2 ≤ n) (hc : Nat.gcd a n = 1) :
    inv a n < n ∧ a * inv a n % n = 1 := by
  obtain ⟨w, hu, -, hs, hg, ho⟩ := eeaLoop_final a n
  have hone : (1 : Int) % n = 1 := Int.emod_eq_of_lt (by decide) (by omega)
  unfold inv eeaInv
  generalize eeaLoop (2 * bitLen n + 2) 1 a 0 n false = r at hu hs hg ho
  obtain ⟨u1, u3, odd⟩ := r
  simp only [Nat.gcd_zero_right] at hu hs hg ho
  obtain rfl : u3 = 1 := hg.trans hc
  have hw : w = n := by simpa using hs
  have hle : u1 ≤ n := by
    rcases ho with ⟨h, -⟩ | ⟨-, h, -, -⟩ <;> omega
  have hndvd : ¬ (n : Int) ∣ 1 := by
    intro h
    have := Int.le_of_dvd (by decide) h
    omega
  have key : ∀ x : Nat, (n : Int) ∣ (x : Int) * a - 1 → a * x % n = 1 := by
    intro x hx
    have h1 : ((x : Int) * a) % n = 1 % n := ((Int.modEq_iff_dvd).mpr hx).symm
    rw [hone] at h1
    have h2 : ((x * a % n : Nat) : Int) = 1 := by push_cast; exact h1
    rw [Nat.mul_comm]
    exact_mod_cast h2
  cases odd
  · have hlt : u1 ≠ n := by
      rintro rfl
      apply hndvd
      have h3 : ((u1 : Int)) ∣ (u1 : Int) * a - ((u1 : Int) * a - 1) := by
        exact Int.dvd_sub (Dvd.intro _ rfl) (by simpa using hu)
      simpa using h3
    refine ⟨by simp; omega, ?_⟩
    simpa using key u1 (by simpa using hu)
  · have hpos : u1 ≠ 0 := by
      rintro rfl
      exact hndvd (by simpa using hu)
    refine ⟨by simp; omega, ?_⟩
    simp only [ne_eq, not_true_eq_false, if_false, if_true, Option.getD_some]
    apply key
    have : (((n - u1 : Nat) : Int)) * a - 1 = (n : Int) * a - ((u1 : Int) * a + (1 : Nat)) := by
      rw [Nat.cast_sub hle]; push_cast; ring
    rw [this]
    exact Int.dvd_sub (Dvd.intro _ rfl) (by simpa using hu)

/-! ### Montgomery multiplication -/

theorem montMul_lt (f : FieldCtx) (a b : Nat) (hp : 0 < f.p) : montMul f a b < f.p := Nat.mod_lt _ hp

/-- The radix has an inverse modulo every odd modulus (R172). -/
theorem radix_coprime {p : Nat} (s : Nat) (hodd : p % 2 = 1) : Nat.gcd (radix s % p) p = 1 := by
  have h2 : Nat.Coprime 2 p := (Nat.coprime_two_left).mpr (Nat.odd_iff.mpr hodd)
  have hr : Nat.Coprime (radix s) p := Nat.Coprime.pow_left _ h2
  rw [← Nat.gcd_rec, Nat.gcd_comm]
  exact hr

/-- R⁻¹ of a context's numbers: R · R⁻¹ is 1 modulo an odd modulus of at least 2 (R172). -/
theorem radix_mul_rInv (c : Ctx) (az : Bool) (hp : 2 ≤ c.m.toNat) (hodd : c.m.toNat % 2 = 1) :
    radix c.s.toNat * (c.field az).rInv % c.m.toNat = 1 := by
  have h := (inv_spec (Nat.mod_lt (radix c.s.toNat) (by omega)) hp (radix_coprime c.s.toNat hodd)).2
  rw [Nat.mod_mul_mod] at h
  exact h

/-- `MontMul(a, b) · R ≡ a · b`, which fixes MontMul (R172). -/
theorem montMul_mul_radix (c : Ctx) (az : Bool) (a b : Nat) (hp : 2 ≤ c.m.toNat) (hodd : c.m.toNat % 2 = 1) :
    montMul (c.field az) a b * radix c.s.toNat % c.m.toNat = a * b % c.m.toNat := by
  have h := radix_mul_rInv c az hp hodd
  show a * b * (c.field az).rInv % c.m.toNat * radix c.s.toNat % c.m.toNat = a * b % c.m.toNat
  rw [Nat.mod_mul_mod, Nat.mul_assoc, Nat.mul_comm (c.field az).rInv, Nat.mul_mod, h, Nat.mul_one, Nat.mod_mod]

end Sys2Proof.Machine
end

