-- ==== Sys2Proof/Laws/State.lean ====
section
/-! SUPPORT. What each field and accessor of the state is after each update, so that no proof unfolds a record update. -/

namespace Sys2Proof.Machine

variable (s : State)

/-! ### putV: V[i] <- x (R14) -/

@[simp] theorem State.putV_v (i : VReg) (x : Value) : (s.putV i x).v = s.v.set i.val x := rfl
@[simp] theorem State.putV_pt (i : VReg) (x : Value) : (s.putV i x).pt = s.pt := rfl
@[simp] theorem State.putV_tbl (i : VReg) (x : Value) : (s.putV i x).tbl = s.tbl := rfl
@[simp] theorem State.putV_naf (i : VReg) (x : Value) : (s.putV i x).naf = s.naf := rfl
@[simp] theorem State.putV_nafLen (i : VReg) (x : Value) : (s.putV i x).nafLen = s.nafLen := rfl
@[simp] theorem State.putV_ctx (i : VReg) (x : Value) : (s.putV i x).ctx = s.ctx := rfl
@[simp] theorem State.putV_ie (i : VReg) (x : Value) : (s.putV i x).ie = s.ie := rfl
@[simp] theorem State.putV_done (i : VReg) (x : Value) : (s.putV i x).done = s.done := rfl
@[simp] theorem State.putV_err (i : VReg) (x : Value) : (s.putV i x).err = s.err := rfl
@[simp] theorem State.putV_haz (i : VReg) (x : Value) : (s.putV i x).haz = s.haz := rfl
@[simp] theorem State.putV_errCode (i : VReg) (x : Value) : (s.putV i x).errCode = s.errCode := rfl
@[simp] theorem State.putV_azero (i : VReg) (x : Value) : (s.putV i x).azero = s.azero := rfl
@[simp] theorem State.putV_ord (i : VReg) (x : Value) : (s.putV i x).ord = s.ord := rfl
@[simp] theorem State.putV_inFlight (i : VReg) (x : Value) : (s.putV i x).inFlight = s.inFlight := rfl
@[simp] theorem State.putV_rstN (i : VReg) (x : Value) : (s.putV i x).rstN = s.rstN := rfl
@[simp] theorem State.putV_schedule (i : VReg) (x : Value) : (s.putV i x).schedule = s.schedule := rfl
@[simp] theorem State.putV_response (i : VReg) (x : Value) : (s.putV i x).response = s.response := rfl
@[simp] theorem State.putV_draws (i : VReg) (x : Value) : (s.putV i x).draws = s.draws := rfl
@[simp] theorem State.putV_getPT (i : VReg) (x : Value) (j : PReg) : (s.putV i x).getPT j = s.getPT j := rfl
@[simp] theorem State.putV_getTbl (i : VReg) (x : Value) (j : Fin 16) : (s.putV i x).getTbl j = s.getTbl j := rfl
@[simp] theorem State.putV_getNaf (i : VReg) (x : Value) (j : Fin 4097) : (s.putV i x).getNaf j = s.getNaf j := rfl
@[simp] theorem State.putV_field (i : VReg) (x : Value) : (s.putV i x).field = s.field := rfl
@[simp] theorem State.putV_modulus (i : VReg) (x : Value) : (s.putV i x).modulus = s.modulus := rfl
@[simp] theorem State.putV_busy (i : VReg) (x : Value) : (s.putV i x).busy = s.busy := rfl

/-! ### setV: V[i] <- n (R14) -/

@[simp] theorem State.setV_v (i : VReg) (n : Nat) : (s.setV i n).v = s.v.set i.val (BitVec.ofNat 4096 n) := rfl
@[simp] theorem State.setV_pt (i : VReg) (n : Nat) : (s.setV i n).pt = s.pt := rfl
@[simp] theorem State.setV_tbl (i : VReg) (n : Nat) : (s.setV i n).tbl = s.tbl := rfl
@[simp] theorem State.setV_naf (i : VReg) (n : Nat) : (s.setV i n).naf = s.naf := rfl
@[simp] theorem State.setV_nafLen (i : VReg) (n : Nat) : (s.setV i n).nafLen = s.nafLen := rfl
@[simp] theorem State.setV_ctx (i : VReg) (n : Nat) : (s.setV i n).ctx = s.ctx := rfl
@[simp] theorem State.setV_ie (i : VReg) (n : Nat) : (s.setV i n).ie = s.ie := rfl
@[simp] theorem State.setV_done (i : VReg) (n : Nat) : (s.setV i n).done = s.done := rfl
@[simp] theorem State.setV_err (i : VReg) (n : Nat) : (s.setV i n).err = s.err := rfl
@[simp] theorem State.setV_haz (i : VReg) (n : Nat) : (s.setV i n).haz = s.haz := rfl
@[simp] theorem State.setV_errCode (i : VReg) (n : Nat) : (s.setV i n).errCode = s.errCode := rfl
@[simp] theorem State.setV_azero (i : VReg) (n : Nat) : (s.setV i n).azero = s.azero := rfl
@[simp] theorem State.setV_ord (i : VReg) (n : Nat) : (s.setV i n).ord = s.ord := rfl
@[simp] theorem State.setV_inFlight (i : VReg) (n : Nat) : (s.setV i n).inFlight = s.inFlight := rfl
@[simp] theorem State.setV_rstN (i : VReg) (n : Nat) : (s.setV i n).rstN = s.rstN := rfl
@[simp] theorem State.setV_schedule (i : VReg) (n : Nat) : (s.setV i n).schedule = s.schedule := rfl
@[simp] theorem State.setV_response (i : VReg) (n : Nat) : (s.setV i n).response = s.response := rfl
@[simp] theorem State.setV_draws (i : VReg) (n : Nat) : (s.setV i n).draws = s.draws := rfl
@[simp] theorem State.setV_getPT (i : VReg) (n : Nat) (j : PReg) : (s.setV i n).getPT j = s.getPT j := rfl
@[simp] theorem State.setV_getTbl (i : VReg) (n : Nat) (j : Fin 16) : (s.setV i n).getTbl j = s.getTbl j := rfl
@[simp] theorem State.setV_getNaf (i : VReg) (n : Nat) (j : Fin 4097) : (s.setV i n).getNaf j = s.getNaf j := rfl
@[simp] theorem State.setV_field (i : VReg) (n : Nat) : (s.setV i n).field = s.field := rfl
@[simp] theorem State.setV_modulus (i : VReg) (n : Nat) : (s.setV i n).modulus = s.modulus := rfl
@[simp] theorem State.setV_busy (i : VReg) (n : Nat) : (s.setV i n).busy = s.busy := rfl

/-! ### setPT: PT[i] <- P (R14) -/

@[simp] theorem State.setPT_v (i : PReg) (p : Point) : (s.setPT i p).v = s.v := rfl
@[simp] theorem State.setPT_pt (i : PReg) (p : Point) : (s.setPT i p).pt = s.pt.set i.val p := rfl
@[simp] theorem State.setPT_tbl (i : PReg) (p : Point) : (s.setPT i p).tbl = s.tbl := rfl
@[simp] theorem State.setPT_naf (i : PReg) (p : Point) : (s.setPT i p).naf = s.naf := rfl
@[simp] theorem State.setPT_nafLen (i : PReg) (p : Point) : (s.setPT i p).nafLen = s.nafLen := rfl
@[simp] theorem State.setPT_ctx (i : PReg) (p : Point) : (s.setPT i p).ctx = s.ctx := rfl
@[simp] theorem State.setPT_ie (i : PReg) (p : Point) : (s.setPT i p).ie = s.ie := rfl
@[simp] theorem State.setPT_done (i : PReg) (p : Point) : (s.setPT i p).done = s.done := rfl
@[simp] theorem State.setPT_err (i : PReg) (p : Point) : (s.setPT i p).err = s.err := rfl
@[simp] theorem State.setPT_haz (i : PReg) (p : Point) : (s.setPT i p).haz = s.haz := rfl
@[simp] theorem State.setPT_errCode (i : PReg) (p : Point) : (s.setPT i p).errCode = s.errCode := rfl
@[simp] theorem State.setPT_azero (i : PReg) (p : Point) : (s.setPT i p).azero = s.azero := rfl
@[simp] theorem State.setPT_ord (i : PReg) (p : Point) : (s.setPT i p).ord = s.ord := rfl
@[simp] theorem State.setPT_inFlight (i : PReg) (p : Point) : (s.setPT i p).inFlight = s.inFlight := rfl
@[simp] theorem State.setPT_rstN (i : PReg) (p : Point) : (s.setPT i p).rstN = s.rstN := rfl
@[simp] theorem State.setPT_schedule (i : PReg) (p : Point) : (s.setPT i p).schedule = s.schedule := rfl
@[simp] theorem State.setPT_response (i : PReg) (p : Point) : (s.setPT i p).response = s.response := rfl
@[simp] theorem State.setPT_draws (i : PReg) (p : Point) : (s.setPT i p).draws = s.draws := rfl
@[simp] theorem State.setPT_getV (i : PReg) (p : Point) (j : VReg) : (s.setPT i p).getV j = s.getV j := rfl
@[simp] theorem State.setPT_valV (i : PReg) (p : Point) (j : VReg) : (s.setPT i p).valV j = s.valV j := rfl
@[simp] theorem State.setPT_getTbl (i : PReg) (p : Point) (j : Fin 16) : (s.setPT i p).getTbl j = s.getTbl j := rfl
@[simp] theorem State.setPT_getNaf (i : PReg) (p : Point) (j : Fin 4097) : (s.setPT i p).getNaf j = s.getNaf j := rfl
@[simp] theorem State.setPT_field (i : PReg) (p : Point) : (s.setPT i p).field = s.field := rfl
@[simp] theorem State.setPT_modulus (i : PReg) (p : Point) : (s.setPT i p).modulus = s.modulus := rfl
@[simp] theorem State.setPT_busy (i : PReg) (p : Point) : (s.setPT i p).busy = s.busy := rfl

/-! ### setTbl: the table's first entries (R266) -/

@[simp] theorem State.setTbl_v (t : List TblEntry) : (s.setTbl t).v = s.v := rfl
@[simp] theorem State.setTbl_pt (t : List TblEntry) : (s.setTbl t).pt = s.pt := rfl
@[simp] theorem State.setTbl_tbl (t : List TblEntry) : (s.setTbl t).tbl = overwrite s.tbl t := rfl
@[simp] theorem State.setTbl_naf (t : List TblEntry) : (s.setTbl t).naf = s.naf := rfl
@[simp] theorem State.setTbl_nafLen (t : List TblEntry) : (s.setTbl t).nafLen = s.nafLen := rfl
@[simp] theorem State.setTbl_ctx (t : List TblEntry) : (s.setTbl t).ctx = s.ctx := rfl
@[simp] theorem State.setTbl_ie (t : List TblEntry) : (s.setTbl t).ie = s.ie := rfl
@[simp] theorem State.setTbl_done (t : List TblEntry) : (s.setTbl t).done = s.done := rfl
@[simp] theorem State.setTbl_err (t : List TblEntry) : (s.setTbl t).err = s.err := rfl
@[simp] theorem State.setTbl_haz (t : List TblEntry) : (s.setTbl t).haz = s.haz := rfl
@[simp] theorem State.setTbl_errCode (t : List TblEntry) : (s.setTbl t).errCode = s.errCode := rfl
@[simp] theorem State.setTbl_azero (t : List TblEntry) : (s.setTbl t).azero = s.azero := rfl
@[simp] theorem State.setTbl_ord (t : List TblEntry) : (s.setTbl t).ord = s.ord := rfl
@[simp] theorem State.setTbl_inFlight (t : List TblEntry) : (s.setTbl t).inFlight = s.inFlight := rfl
@[simp] theorem State.setTbl_rstN (t : List TblEntry) : (s.setTbl t).rstN = s.rstN := rfl
@[simp] theorem State.setTbl_schedule (t : List TblEntry) : (s.setTbl t).schedule = s.schedule := rfl
@[simp] theorem State.setTbl_response (t : List TblEntry) : (s.setTbl t).response = s.response := rfl
@[simp] theorem State.setTbl_draws (t : List TblEntry) : (s.setTbl t).draws = s.draws := rfl
@[simp] theorem State.setTbl_getV (t : List TblEntry) (j : VReg) : (s.setTbl t).getV j = s.getV j := rfl
@[simp] theorem State.setTbl_valV (t : List TblEntry) (j : VReg) : (s.setTbl t).valV j = s.valV j := rfl
@[simp] theorem State.setTbl_getPT (t : List TblEntry) (j : PReg) : (s.setTbl t).getPT j = s.getPT j := rfl
@[simp] theorem State.setTbl_getNaf (t : List TblEntry) (j : Fin 4097) : (s.setTbl t).getNaf j = s.getNaf j := rfl
@[simp] theorem State.setTbl_field (t : List TblEntry) : (s.setTbl t).field = s.field := rfl
@[simp] theorem State.setTbl_modulus (t : List TblEntry) : (s.setTbl t).modulus = s.modulus := rfl
@[simp] theorem State.setTbl_busy (t : List TblEntry) : (s.setTbl t).busy = s.busy := rfl

/-! ### setNaf: the NAF buffer (R262) -/

@[simp] theorem State.setNaf_v (ds : List Int) : (s.setNaf ds).v = s.v := rfl
@[simp] theorem State.setNaf_pt (ds : List Int) : (s.setNaf ds).pt = s.pt := rfl
@[simp] theorem State.setNaf_tbl (ds : List Int) : (s.setNaf ds).tbl = s.tbl := rfl
@[simp] theorem State.setNaf_naf (ds : List Int) : (s.setNaf ds).naf = overwrite s.naf (ds.map (BitVec.ofInt 32)) := rfl
@[simp] theorem State.setNaf_nafLen (ds : List Int) : (s.setNaf ds).nafLen = BitVec.ofNat 13 ds.length := rfl
@[simp] theorem State.setNaf_ctx (ds : List Int) : (s.setNaf ds).ctx = s.ctx := rfl
@[simp] theorem State.setNaf_ie (ds : List Int) : (s.setNaf ds).ie = s.ie := rfl
@[simp] theorem State.setNaf_done (ds : List Int) : (s.setNaf ds).done = s.done := rfl
@[simp] theorem State.setNaf_err (ds : List Int) : (s.setNaf ds).err = s.err := rfl
@[simp] theorem State.setNaf_haz (ds : List Int) : (s.setNaf ds).haz = s.haz := rfl
@[simp] theorem State.setNaf_errCode (ds : List Int) : (s.setNaf ds).errCode = s.errCode := rfl
@[simp] theorem State.setNaf_azero (ds : List Int) : (s.setNaf ds).azero = s.azero := rfl
@[simp] theorem State.setNaf_ord (ds : List Int) : (s.setNaf ds).ord = s.ord := rfl
@[simp] theorem State.setNaf_inFlight (ds : List Int) : (s.setNaf ds).inFlight = s.inFlight := rfl
@[simp] theorem State.setNaf_rstN (ds : List Int) : (s.setNaf ds).rstN = s.rstN := rfl
@[simp] theorem State.setNaf_schedule (ds : List Int) : (s.setNaf ds).schedule = s.schedule := rfl
@[simp] theorem State.setNaf_response (ds : List Int) : (s.setNaf ds).response = s.response := rfl
@[simp] theorem State.setNaf_draws (ds : List Int) : (s.setNaf ds).draws = s.draws := rfl
@[simp] theorem State.setNaf_getV (ds : List Int) (j : VReg) : (s.setNaf ds).getV j = s.getV j := rfl
@[simp] theorem State.setNaf_valV (ds : List Int) (j : VReg) : (s.setNaf ds).valV j = s.valV j := rfl
@[simp] theorem State.setNaf_getPT (ds : List Int) (j : PReg) : (s.setNaf ds).getPT j = s.getPT j := rfl
@[simp] theorem State.setNaf_getTbl (ds : List Int) (j : Fin 16) : (s.setNaf ds).getTbl j = s.getTbl j := rfl
@[simp] theorem State.setNaf_field (ds : List Int) : (s.setNaf ds).field = s.field := rfl
@[simp] theorem State.setNaf_modulus (ds : List Int) : (s.setNaf ds).modulus = s.modulus := rfl
@[simp] theorem State.setNaf_busy (ds : List Int) : (s.setNaf ds).busy = s.busy := rfl

/-! ### setCtx: the context (R170) -/

@[simp] theorem State.setCtx_v (c : Ctx) : (s.setCtx c).v = s.v := rfl
@[simp] theorem State.setCtx_pt (c : Ctx) : (s.setCtx c).pt = s.pt := rfl
@[simp] theorem State.setCtx_tbl (c : Ctx) : (s.setCtx c).tbl = s.tbl := rfl
@[simp] theorem State.setCtx_naf (c : Ctx) : (s.setCtx c).naf = s.naf := rfl
@[simp] theorem State.setCtx_nafLen (c : Ctx) : (s.setCtx c).nafLen = s.nafLen := rfl
@[simp] theorem State.setCtx_ctx (c : Ctx) : (s.setCtx c).ctx = c := rfl
@[simp] theorem State.setCtx_ie (c : Ctx) : (s.setCtx c).ie = s.ie := rfl
@[simp] theorem State.setCtx_done (c : Ctx) : (s.setCtx c).done = s.done := rfl
@[simp] theorem State.setCtx_err (c : Ctx) : (s.setCtx c).err = s.err := rfl
@[simp] theorem State.setCtx_haz (c : Ctx) : (s.setCtx c).haz = s.haz := rfl
@[simp] theorem State.setCtx_errCode (c : Ctx) : (s.setCtx c).errCode = s.errCode := rfl
@[simp] theorem State.setCtx_azero (c : Ctx) : (s.setCtx c).azero = s.azero := rfl
@[simp] theorem State.setCtx_ord (c : Ctx) : (s.setCtx c).ord = s.ord := rfl
@[simp] theorem State.setCtx_inFlight (c : Ctx) : (s.setCtx c).inFlight = s.inFlight := rfl
@[simp] theorem State.setCtx_rstN (c : Ctx) : (s.setCtx c).rstN = s.rstN := rfl
@[simp] theorem State.setCtx_schedule (c : Ctx) : (s.setCtx c).schedule = s.schedule := rfl
@[simp] theorem State.setCtx_response (c : Ctx) : (s.setCtx c).response = s.response := rfl
@[simp] theorem State.setCtx_draws (c : Ctx) : (s.setCtx c).draws = s.draws := rfl
@[simp] theorem State.setCtx_getV (c : Ctx) (j : VReg) : (s.setCtx c).getV j = s.getV j := rfl
@[simp] theorem State.setCtx_valV (c : Ctx) (j : VReg) : (s.setCtx c).valV j = s.valV j := rfl
@[simp] theorem State.setCtx_getPT (c : Ctx) (j : PReg) : (s.setCtx c).getPT j = s.getPT j := rfl
@[simp] theorem State.setCtx_getTbl (c : Ctx) (j : Fin 16) : (s.setCtx c).getTbl j = s.getTbl j := rfl
@[simp] theorem State.setCtx_getNaf (c : Ctx) (j : Fin 4097) : (s.setCtx c).getNaf j = s.getNaf j := rfl
@[simp] theorem State.setCtx_busy (c : Ctx) : (s.setCtx c).busy = s.busy := rfl

/-! ### issue: issue (R116) -/

@[simp] theorem State.issue_v (c : Word) : (s.issue c).v = s.v := rfl
@[simp] theorem State.issue_pt (c : Word) : (s.issue c).pt = s.pt := rfl
@[simp] theorem State.issue_tbl (c : Word) : (s.issue c).tbl = s.tbl := rfl
@[simp] theorem State.issue_naf (c : Word) : (s.issue c).naf = s.naf := rfl
@[simp] theorem State.issue_nafLen (c : Word) : (s.issue c).nafLen = s.nafLen := rfl
@[simp] theorem State.issue_ctx (c : Word) : (s.issue c).ctx = s.ctx := rfl
@[simp] theorem State.issue_ie (c : Word) : (s.issue c).ie = s.ie := rfl
@[simp] theorem State.issue_done (c : Word) : (s.issue c).done = false := rfl
@[simp] theorem State.issue_err (c : Word) : (s.issue c).err = false := rfl
@[simp] theorem State.issue_haz (c : Word) : (s.issue c).haz = s.haz := rfl
@[simp] theorem State.issue_errCode (c : Word) : (s.issue c).errCode = 0 := rfl
@[simp] theorem State.issue_azero (c : Word) : (s.issue c).azero = s.azero := rfl
@[simp] theorem State.issue_ord (c : Word) : (s.issue c).ord = s.ord := rfl
@[simp] theorem State.issue_inFlight (c : Word) : (s.issue c).inFlight = some c := rfl
@[simp] theorem State.issue_rstN (c : Word) : (s.issue c).rstN = s.rstN := rfl
@[simp] theorem State.issue_schedule (c : Word) : (s.issue c).schedule = s.schedule := rfl
@[simp] theorem State.issue_response (c : Word) : (s.issue c).response = s.response := rfl
@[simp] theorem State.issue_draws (c : Word) : (s.issue c).draws = s.draws := rfl
@[simp] theorem State.issue_getV (c : Word) (j : VReg) : (s.issue c).getV j = s.getV j := rfl
@[simp] theorem State.issue_valV (c : Word) (j : VReg) : (s.issue c).valV j = s.valV j := rfl
@[simp] theorem State.issue_getPT (c : Word) (j : PReg) : (s.issue c).getPT j = s.getPT j := rfl
@[simp] theorem State.issue_getTbl (c : Word) (j : Fin 16) : (s.issue c).getTbl j = s.getTbl j := rfl
@[simp] theorem State.issue_getNaf (c : Word) (j : Fin 4097) : (s.issue c).getNaf j = s.getNaf j := rfl
@[simp] theorem State.issue_field (c : Word) : (s.issue c).field = s.field := rfl
@[simp] theorem State.issue_modulus (c : Word) : (s.issue c).modulus = s.modulus := rfl

/-! ### completeOk: completion of a success (R119) -/

@[simp] theorem State.completeOk_v : (s.completeOk).v = s.v := rfl
@[simp] theorem State.completeOk_pt : (s.completeOk).pt = s.pt := rfl
@[simp] theorem State.completeOk_tbl : (s.completeOk).tbl = s.tbl := rfl
@[simp] theorem State.completeOk_naf : (s.completeOk).naf = s.naf := rfl
@[simp] theorem State.completeOk_nafLen : (s.completeOk).nafLen = s.nafLen := rfl
@[simp] theorem State.completeOk_ctx : (s.completeOk).ctx = s.ctx := rfl
@[simp] theorem State.completeOk_ie : (s.completeOk).ie = s.ie := rfl
@[simp] theorem State.completeOk_done : (s.completeOk).done = true := rfl
@[simp] theorem State.completeOk_err : (s.completeOk).err = s.err := rfl
@[simp] theorem State.completeOk_haz : (s.completeOk).haz = s.haz := rfl
@[simp] theorem State.completeOk_errCode : (s.completeOk).errCode = 0 := rfl
@[simp] theorem State.completeOk_azero : (s.completeOk).azero = s.azero := rfl
@[simp] theorem State.completeOk_ord : (s.completeOk).ord = s.ord := rfl
@[simp] theorem State.completeOk_inFlight : (s.completeOk).inFlight = none := rfl
@[simp] theorem State.completeOk_rstN : (s.completeOk).rstN = s.rstN := rfl
@[simp] theorem State.completeOk_schedule : (s.completeOk).schedule = s.schedule := rfl
@[simp] theorem State.completeOk_response : (s.completeOk).response = s.response := rfl
@[simp] theorem State.completeOk_draws : (s.completeOk).draws = s.draws := rfl
@[simp] theorem State.completeOk_getV (j : VReg) : (s.completeOk).getV j = s.getV j := rfl
@[simp] theorem State.completeOk_valV (j : VReg) : (s.completeOk).valV j = s.valV j := rfl
@[simp] theorem State.completeOk_getPT (j : PReg) : (s.completeOk).getPT j = s.getPT j := rfl
@[simp] theorem State.completeOk_getTbl (j : Fin 16) : (s.completeOk).getTbl j = s.getTbl j := rfl
@[simp] theorem State.completeOk_getNaf (j : Fin 4097) : (s.completeOk).getNaf j = s.getNaf j := rfl
@[simp] theorem State.completeOk_field : (s.completeOk).field = s.field := rfl
@[simp] theorem State.completeOk_modulus : (s.completeOk).modulus = s.modulus := rfl

/-! ### completeErr: completion of an error (R300) -/

@[simp] theorem State.completeErr_v (e : CmdError) : (s.completeErr e).v = s.v := rfl
@[simp] theorem State.completeErr_pt (e : CmdError) : (s.completeErr e).pt = s.pt := rfl
@[simp] theorem State.completeErr_tbl (e : CmdError) : (s.completeErr e).tbl = s.tbl := rfl
@[simp] theorem State.completeErr_naf (e : CmdError) : (s.completeErr e).naf = s.naf := rfl
@[simp] theorem State.completeErr_nafLen (e : CmdError) : (s.completeErr e).nafLen = s.nafLen := rfl
@[simp] theorem State.completeErr_ctx (e : CmdError) : (s.completeErr e).ctx = s.ctx := rfl
@[simp] theorem State.completeErr_ie (e : CmdError) : (s.completeErr e).ie = s.ie := rfl
@[simp] theorem State.completeErr_done (e : CmdError) : (s.completeErr e).done = true := rfl
@[simp] theorem State.completeErr_err (e : CmdError) : (s.completeErr e).err = true := rfl
@[simp] theorem State.completeErr_haz (e : CmdError) : (s.completeErr e).haz = s.haz := rfl
@[simp] theorem State.completeErr_errCode (e : CmdError) : (s.completeErr e).errCode = CmdError.code e := rfl
@[simp] theorem State.completeErr_azero (e : CmdError) : (s.completeErr e).azero = s.azero := rfl
@[simp] theorem State.completeErr_ord (e : CmdError) : (s.completeErr e).ord = s.ord := rfl
@[simp] theorem State.completeErr_inFlight (e : CmdError) : (s.completeErr e).inFlight = none := rfl
@[simp] theorem State.completeErr_rstN (e : CmdError) : (s.completeErr e).rstN = s.rstN := rfl
@[simp] theorem State.completeErr_schedule (e : CmdError) : (s.completeErr e).schedule = s.schedule := rfl
@[simp] theorem State.completeErr_response (e : CmdError) : (s.completeErr e).response = s.response := rfl
@[simp] theorem State.completeErr_draws (e : CmdError) : (s.completeErr e).draws = s.draws := rfl
@[simp] theorem State.completeErr_getV (e : CmdError) (j : VReg) : (s.completeErr e).getV j = s.getV j := rfl
@[simp] theorem State.completeErr_valV (e : CmdError) (j : VReg) : (s.completeErr e).valV j = s.valV j := rfl
@[simp] theorem State.completeErr_getPT (e : CmdError) (j : PReg) : (s.completeErr e).getPT j = s.getPT j := rfl
@[simp] theorem State.completeErr_getTbl (e : CmdError) (j : Fin 16) : (s.completeErr e).getTbl j = s.getTbl j := rfl
@[simp] theorem State.completeErr_getNaf (e : CmdError) (j : Fin 4097) : (s.completeErr e).getNaf j = s.getNaf j := rfl
@[simp] theorem State.completeErr_field (e : CmdError) : (s.completeErr e).field = s.field := rfl
@[simp] theorem State.completeErr_modulus (e : CmdError) : (s.completeErr e).modulus = s.modulus := rfl

/-! ### ackStatus: a write to STATUS (R46) -/

@[simp] theorem State.ackStatus_v (w : Word) : (s.ackStatus w).v = s.v := rfl
@[simp] theorem State.ackStatus_pt (w : Word) : (s.ackStatus w).pt = s.pt := rfl
@[simp] theorem State.ackStatus_tbl (w : Word) : (s.ackStatus w).tbl = s.tbl := rfl
@[simp] theorem State.ackStatus_naf (w : Word) : (s.ackStatus w).naf = s.naf := rfl
@[simp] theorem State.ackStatus_nafLen (w : Word) : (s.ackStatus w).nafLen = s.nafLen := rfl
@[simp] theorem State.ackStatus_ctx (w : Word) : (s.ackStatus w).ctx = s.ctx := rfl
@[simp] theorem State.ackStatus_ie (w : Word) : (s.ackStatus w).ie = s.ie := rfl
@[simp] theorem State.ackStatus_done (w : Word) : (s.ackStatus w).done = (s.done && !w.getLsbD 1) := rfl
@[simp] theorem State.ackStatus_err (w : Word) : (s.ackStatus w).err = (s.err && !w.getLsbD 2) := rfl
@[simp] theorem State.ackStatus_haz (w : Word) : (s.ackStatus w).haz = (s.haz && !w.getLsbD 3) := rfl
@[simp] theorem State.ackStatus_errCode (w : Word) : (s.ackStatus w).errCode = (if w.getLsbD 2 then 0 else s.errCode) := rfl
@[simp] theorem State.ackStatus_azero (w : Word) : (s.ackStatus w).azero = s.azero := rfl
@[simp] theorem State.ackStatus_ord (w : Word) : (s.ackStatus w).ord = s.ord := rfl
@[simp] theorem State.ackStatus_inFlight (w : Word) : (s.ackStatus w).inFlight = s.inFlight := rfl
@[simp] theorem State.ackStatus_rstN (w : Word) : (s.ackStatus w).rstN = s.rstN := rfl
@[simp] theorem State.ackStatus_schedule (w : Word) : (s.ackStatus w).schedule = s.schedule := rfl
@[simp] theorem State.ackStatus_response (w : Word) : (s.ackStatus w).response = s.response := rfl
@[simp] theorem State.ackStatus_draws (w : Word) : (s.ackStatus w).draws = s.draws := rfl
@[simp] theorem State.ackStatus_getV (w : Word) (j : VReg) : (s.ackStatus w).getV j = s.getV j := rfl
@[simp] theorem State.ackStatus_valV (w : Word) (j : VReg) : (s.ackStatus w).valV j = s.valV j := rfl
@[simp] theorem State.ackStatus_getPT (w : Word) (j : PReg) : (s.ackStatus w).getPT j = s.getPT j := rfl
@[simp] theorem State.ackStatus_getTbl (w : Word) (j : Fin 16) : (s.ackStatus w).getTbl j = s.getTbl j := rfl
@[simp] theorem State.ackStatus_getNaf (w : Word) (j : Fin 4097) : (s.ackStatus w).getNaf j = s.getNaf j := rfl
@[simp] theorem State.ackStatus_field (w : Word) : (s.ackStatus w).field = s.field := rfl
@[simp] theorem State.ackStatus_modulus (w : Word) : (s.ackStatus w).modulus = s.modulus := rfl
@[simp] theorem State.ackStatus_busy (w : Word) : (s.ackStatus w).busy = s.busy := rfl

/-! ### setCurve: a write to CURVE (R48) -/

@[simp] theorem State.setCurve_v (w : Word) : (s.setCurve w).v = s.v := rfl
@[simp] theorem State.setCurve_pt (w : Word) : (s.setCurve w).pt = s.pt := rfl
@[simp] theorem State.setCurve_tbl (w : Word) : (s.setCurve w).tbl = s.tbl := rfl
@[simp] theorem State.setCurve_naf (w : Word) : (s.setCurve w).naf = s.naf := rfl
@[simp] theorem State.setCurve_nafLen (w : Word) : (s.setCurve w).nafLen = s.nafLen := rfl
@[simp] theorem State.setCurve_ctx (w : Word) : (s.setCurve w).ctx = s.ctx := rfl
@[simp] theorem State.setCurve_ie (w : Word) : (s.setCurve w).ie = s.ie := rfl
@[simp] theorem State.setCurve_done (w : Word) : (s.setCurve w).done = s.done := rfl
@[simp] theorem State.setCurve_err (w : Word) : (s.setCurve w).err = s.err := rfl
@[simp] theorem State.setCurve_haz (w : Word) : (s.setCurve w).haz = s.haz := rfl
@[simp] theorem State.setCurve_errCode (w : Word) : (s.setCurve w).errCode = s.errCode := rfl
@[simp] theorem State.setCurve_azero (w : Word) : (s.setCurve w).azero = w.getLsbD 0 := rfl
@[simp] theorem State.setCurve_inFlight (w : Word) : (s.setCurve w).inFlight = s.inFlight := rfl
@[simp] theorem State.setCurve_rstN (w : Word) : (s.setCurve w).rstN = s.rstN := rfl
@[simp] theorem State.setCurve_schedule (w : Word) : (s.setCurve w).schedule = s.schedule := rfl
@[simp] theorem State.setCurve_response (w : Word) : (s.setCurve w).response = s.response := rfl
@[simp] theorem State.setCurve_draws (w : Word) : (s.setCurve w).draws = s.draws := rfl
@[simp] theorem State.setCurve_getV (w : Word) (j : VReg) : (s.setCurve w).getV j = s.getV j := rfl
@[simp] theorem State.setCurve_valV (w : Word) (j : VReg) : (s.setCurve w).valV j = s.valV j := rfl
@[simp] theorem State.setCurve_getPT (w : Word) (j : PReg) : (s.setCurve w).getPT j = s.getPT j := rfl
@[simp] theorem State.setCurve_getTbl (w : Word) (j : Fin 16) : (s.setCurve w).getTbl j = s.getTbl j := rfl
@[simp] theorem State.setCurve_getNaf (w : Word) (j : Fin 4097) : (s.setCurve w).getNaf j = s.getNaf j := rfl
@[simp] theorem State.setCurve_modulus (w : Word) : (s.setCurve w).modulus = s.modulus := rfl
@[simp] theorem State.setCurve_busy (w : Word) : (s.setCurve w).busy = s.busy := rfl

/-! ### What an update writes, read back -/

/-- A write to a value register, read back: its contents there, and what stood in every other register. -/
theorem State.getV_putV (i j : VReg) (x : Value) : (s.putV i x).getV j = if i = j then x else s.getV j := by
  simp only [State.getV, State.putV, Vector.getElem_set, Fin.ext_iff]

theorem State.getV_setV (i j : VReg) (n : Nat) :
    (s.setV i n).getV j = if i = j then BitVec.ofNat 4096 n else s.getV j := State.getV_putV s i j _

/-- A number below 2^4096 written to a value register is the number that the register then holds (R137). -/
theorem State.valV_setV_self (i : VReg) (n : Nat) (h : n < 2 ^ 4096) : (s.setV i n).valV i = n := by
  rw [State.valV, State.getV_setV, if_pos rfl, BitVec.toNat_ofNat]
  exact Nat.mod_eq_of_lt h

theorem State.getV_setV_ne (i j : VReg) (n : Nat) (h : j ≠ i) : (s.setV i n).getV j = s.getV j := by
  rw [State.getV_setV, if_neg (Ne.symm h)]

/-- A write to a point register, read back. -/
theorem State.getPT_setPT (i j : PReg) (p : Point) : (s.setPT i p).getPT j = if i = j then p else s.getPT j := by
  simp only [State.getPT, State.setPT, Vector.getElem_set, Fin.ext_iff]

/-! ### Reset -/

@[simp] theorem State.applyReset_nafLen : s.applyReset.nafLen = 0 := rfl
@[simp] theorem State.applyReset_ctx : s.applyReset.ctx = freeCtx s.draws := rfl
@[simp] theorem State.applyReset_ie : s.applyReset.ie = false := rfl
@[simp] theorem State.applyReset_done : s.applyReset.done = false := rfl
@[simp] theorem State.applyReset_err : s.applyReset.err = false := rfl
@[simp] theorem State.applyReset_haz : s.applyReset.haz = false := rfl
@[simp] theorem State.applyReset_errCode : s.applyReset.errCode = 0 := rfl
@[simp] theorem State.applyReset_azero : s.applyReset.azero = false := rfl
@[simp] theorem State.applyReset_ord : s.applyReset.ord = 0 := rfl
@[simp] theorem State.applyReset_inFlight : s.applyReset.inFlight = none := rfl
@[simp] theorem State.applyReset_rstN : s.applyReset.rstN = s.rstN := rfl
@[simp] theorem State.applyReset_schedule : s.applyReset.schedule = s.schedule := rfl
@[simp] theorem State.applyReset_response : s.applyReset.response = s.response := rfl
@[simp] theorem State.applyReset_draws : s.applyReset.draws = s.draws + 1 := rfl
@[simp] theorem freeCtx_valid (n : Nat) : (freeCtx n).valid = false := rfl

/-! ### STATUS.BUSY -/

@[simp] theorem State.issue_busy (c : Word) : (s.issue c).busy = true := rfl
@[simp] theorem State.completeOk_busy : s.completeOk.busy = false := rfl
@[simp] theorem State.completeErr_busy (e : CmdError) : (s.completeErr e).busy = false := rfl
@[simp] theorem State.applyReset_busy : s.applyReset.busy = false := rfl

/-- Two states with the same fields are the same state. -/
theorem State.ext_fields {s t : State} (hv : s.v = t.v) (hpt : s.pt = t.pt) (htbl : s.tbl = t.tbl) (hnaf : s.naf = t.naf)
    (hlen : s.nafLen = t.nafLen) (hctx : s.ctx = t.ctx) (hie : s.ie = t.ie) (hdone : s.done = t.done)
    (herr : s.err = t.err) (hhaz : s.haz = t.haz) (hcode : s.errCode = t.errCode) (haz : s.azero = t.azero)
    (hord : s.ord = t.ord) (hfl : s.inFlight = t.inFlight) (hrst : s.rstN = t.rstN) (hsch : s.schedule = t.schedule)
    (hresp : s.response = t.response) (hdr : s.draws = t.draws) : s = t := by
  cases s; cases t; simp_all

end Sys2Proof.Machine
end

