-- ==== Sys2Proof/Laws/Buffers.lean ====
section
/-! SUPPORT. What the writes of several entries do: the table and the NAF buffer (R262, R266), and BINV's register ranges
(R155). -/

namespace Sys2Proof.Machine

/-! ### Tables -/

/-- After `overwrite`, an entry is the new one where there is one, and the old one elsewhere. -/
theorem overwrite_getElem {α : Type} {n : Nat} (old : Vector α n) (new : List α) (j : Nat) (hj : j < n) :
    (overwrite old new)[j] = if h : j < new.length then new[j] else old[j] := by
  simp only [overwrite, Vector.getElem_mk, List.getElem_toArray, List.getElem_take, List.getElem_append]
  split
  · rfl
  · simp only [List.getElem_drop, Vector.getElem_toList]
    congr 1
    omega

/-! ### The NAF buffer -/

/-- The digits of wNAF(k, w) are at most bitlen(k) + 1 (R263). -/
theorem wnaf_length_le (k w : Nat) : (wnaf k w).length ≤ bitLen k + 1 := by
  unfold wnaf
  generalize bitLen k + 1 = n
  induction n generalizing k with
  | zero => simp [wnafLoop]
  | succ n ih =>
    unfold wnafLoop
    split
    · simp
    split
    · dsimp only
      split <;> simpa using ih _
    · simpa using ih _

/-- A register's digits fit the buffer (R263). -/
theorem wnaf_length_le_nafMax (x : Value) (w : Nat) : (wnaf x.toNat w).length ≤ Config.nafMax := by
  have h1 := wnaf_length_le x.toNat w
  have h2 : bitLen x.toNat ≤ 4096 := bitLen_le (n := 4096) x.isLt
  show _ ≤ 4097
  omega

/-- NAFLEN after the digits of a register are written is their number (R262). -/
theorem setNaf_nafLen_toNat (s : State) (x : Value) (w : Nat) :
    (s.setNaf (wnaf x.toNat w)).nafLen.toNat = (wnaf x.toNat w).length := by
  have h : (wnaf x.toNat w).length ≤ 4097 := wnaf_length_le_nafMax x w
  rw [State.setNaf_nafLen, BitVec.toNat_ofNat]
  exact Nat.mod_eq_of_lt (by omega)

/-- The NAF buffer after digits are written (R262). -/
theorem setNaf_getNaf (s : State) (ds : List Int) (j : Fin 4097) :
    (s.setNaf ds).getNaf j = if j.val < ds.length then BitVec.ofInt 32 (ds.getD j.val 0) else s.getNaf j := by
  unfold State.getNaf
  simp only [State.setNaf_naf]
  rw [overwrite_getElem]
  simp only [List.length_map]
  split
  · next h => simp [List.getD_eq_getElem?_getD, List.getElem?_eq_getElem h]
  · rfl

/-- The table after entries are written (R266). -/
theorem setTbl_getTbl (s : State) (ts : List TblEntry) (j : Fin 16) (d : TblEntry) :
    (s.setTbl ts).getTbl j = if j.val < ts.length then ts.getD j.val d else s.getTbl j := by
  unfold State.getTbl
  simp only [State.setTbl_tbl]
  rw [overwrite_getElem]
  split
  · next h => simp [List.getD_eq_getElem?_getD, List.getElem?_eq_getElem h]
  · rfl

/-! ### Register ranges -/

theorem valRange_length (s : State) (a : VReg) (n : Nat) : (s.valRange a n).length = n := by
  induction n with
  | zero => rfl
  | succ n ih => simp [State.valRange, ih]

theorem valRange_getElem (s : State) (a : VReg) (n k : Nat) (h : k < (s.valRange a n).length) :
    (s.valRange a n)[k] = s.valV (regPlus a k) := by
  induction n with
  | zero => simp [State.valRange] at h
  | succ n ih =>
    have hn := valRange_length s a n
    simp only [State.valRange, List.length_append, List.length_singleton, hn] at h
    simp only [State.valRange, List.getElem_append]
    split
    · exact ih _
    · have : k = n := by omega
      subst this
      simp

/-- The numbers BINV reads: a property of all of them is one of each register of the range (R155). -/
theorem forall_mem_valRange (s : State) (a : VReg) (n : Nat) (P : Nat → Prop) :
    (∀ x ∈ s.valRange a n, P x) ↔ ∀ k < n, P (s.valV (regPlus a k)) := by
  induction n with
  | zero => simp [State.valRange]
  | succ n ih =>
    simp only [State.valRange, List.mem_append, List.mem_singleton]
    constructor
    · intro h k hk
      rcases Nat.lt_succ_iff_lt_or_eq.mp hk with hk | rfl
      · exact ih.mp (fun x hx => h x (.inl hx)) k hk
      · exact h _ (.inr rfl)
    · rintro h x (hx | rfl)
      · exact ih.mpr (fun k hk => h k (by omega)) x hx
      · exact h n (by omega)

/-- BINV's registers within V0..V31 are counted without going round (R105, R155). -/
theorem regPlus_val (a : VReg) (k : Nat) (h : a.val + k < 32) : (regPlus a k).val = a.val + k := Nat.mod_eq_of_lt h

/-- The registers after BINV's writes: the k-th number in the k-th register of the range, and the rest as before (R155). -/
theorem setRange_getV (s : State) (a : VReg) (ys : List Nat) (k : Nat) (hfit : a.val + (k + ys.length) ≤ 32) (r : VReg) :
    (s.setRange a k ys).getV r =
      if a.val + k ≤ r.val ∧ r.val < a.val + k + ys.length then BitVec.ofNat 4096 (ys.getD (r.val - (a.val + k)) 0)
      else s.getV r := by
  induction ys generalizing s k with
  | nil =>
    rw [if_neg (by simp only [List.length_nil]; omega)]
    rfl
  | cons y ys ih =>
    simp only [List.length_cons] at hfit ⊢
    rw [State.setRange, ih _ _ (by omega), State.getV_setV]
    have hv := regPlus_val a k (by omega)
    by_cases h1 : r.val = a.val + k
    · have e : regPlus a k = r := Fin.ext (by rw [hv, h1])
      rw [if_neg (by omega), if_pos e, if_pos (by omega), h1]
      simp
    · have e : regPlus a k ≠ r := fun e => h1 (by rw [← e, hv])
      rw [if_neg e]
      by_cases h2 : a.val + (k + 1) ≤ r.val ∧ r.val < a.val + (k + 1) + ys.length
      · rw [if_pos h2, if_pos (by omega)]
        have : r.val - (a.val + k) = r.val - (a.val + (k + 1)) + 1 := by omega
        rw [this, List.getD_cons_succ]
      · rw [if_neg h2, if_neg (by omega)]

end Sys2Proof.Machine
end

