-- ==== Sys2Proof/Laws/Operands.lean ====
section
/-! SUPPORT. Each shared operand check says once what it does: the continuation when its conditions hold, and the error of R304
when one fails. -/

namespace Sys2Proof.Machine

variable {s : State} {k : Host.Outcome State Fault Refusal} {a b : Nat}

@[simp] theorem needCtx_ok (h : s.ctx.valid = true) : needCtx s k = k := by simp [needCtx, h]

theorem needCtx_none (h : s.ctx.valid = false) : needCtx s k = raise .noctx s := by simp [needCtx, h]

theorem needBelow_ok (h : s.ctx.valid = true) (ha : a < s.modulus) : needBelow s a k = k := by
  simp [needBelow, h, Nat.not_le.mpr ha]

theorem needBelow_range (h : s.ctx.valid = true) (ha : s.modulus ≤ a) : needBelow s a k = raise .range s := by
  simp [needBelow, h, ha]

theorem needBothBelow_ok (h : s.ctx.valid = true) (ha : a < s.modulus) (hb : b < s.modulus) :
    needBothBelow s a b k = k := by
  simp [needBothBelow, h, Nat.not_le.mpr ha, Nat.not_le.mpr hb]

theorem needBothBelow_range (h : s.ctx.valid = true) (hab : s.modulus ≤ a ∨ s.modulus ≤ b) :
    needBothBelow s a b k = raise .range s := by
  simp [needBothBelow, h, hab]

theorem needPoint_ok {n : PointNeed} {p : Point} (h : s.ctx.valid = true) (hn : n.metBy p = true)
    (hr : p.inRange s.modulus = true) : needPoint s n p k = k := by
  simp [needPoint, h, hn, hr]

theorem needPoint_ptstate {n : PointNeed} {p : Point} (h : s.ctx.valid = true) (hn : n.metBy p = false) :
    needPoint s n p k = raise .ptstate s := by
  simp [needPoint, h, hn]

theorem needPoint_range {n : PointNeed} {p : Point} (h : s.ctx.valid = true) (hn : n.metBy p = true)
    (hr : p.inRange s.modulus = false) : needPoint s n p k = raise .range s := by
  simp [needPoint, h, hn, hr]

theorem needTwoPoints_ok {na nb : PointNeed} {p q : Point} (h : s.ctx.valid = true) (hp : na.metBy p = true)
    (hq : nb.metBy q = true) (rp : p.inRange s.modulus = true) (rq : q.inRange s.modulus = true) :
    needTwoPoints s na p nb q k = k := by
  simp [needTwoPoints, h, hp, hq, rp, rq]

/-! ### What a check can answer -/

/-- A check of one point answers its continuation, with its conditions, or one of three errors. -/
theorem needPoint_cases (s : State) (n : PointNeed) (p : Point) (k : Host.Outcome State Fault Refusal) :
    (needPoint s n p k = k ∧ s.ctx.valid = true ∧ n.metBy p = true ∧ p.inRange s.modulus = true) ∨
      ∃ e, needPoint s n p k = raise e s ∧ (e = .noctx ∨ e = .ptstate ∨ e = .range) := by
  unfold needPoint needCtx
  split_ifs with h1 h2 h3
  all_goals first | exact .inr ⟨_, rfl, by simp⟩ | exact .inl ⟨rfl, by simp_all⟩

/-- A check of two points answers its continuation, with its conditions, or one of three errors. -/
theorem needTwoPoints_cases (s : State) (na nb : PointNeed) (p q : Point) (k : Host.Outcome State Fault Refusal) :
    (needTwoPoints s na p nb q k = k ∧ s.ctx.valid = true ∧ na.metBy p = true ∧ nb.metBy q = true ∧
        p.inRange s.modulus = true ∧ q.inRange s.modulus = true) ∨
      ∃ e, needTwoPoints s na p nb q k = raise e s ∧ (e = .noctx ∨ e = .ptstate ∨ e = .range) := by
  unfold needTwoPoints needCtx
  split_ifs with h1 h2 h3 h4 h5
  all_goals first | exact .inr ⟨_, rfl, by simp⟩ | exact .inl ⟨rfl, by simp_all⟩

theorem needBothBelow_cases (s : State) (a b : Nat) (k : Host.Outcome State Fault Refusal) :
    (needBothBelow s a b k = k ∧ s.ctx.valid = true ∧ a < s.modulus ∧ b < s.modulus) ∨
      ∃ e, needBothBelow s a b k = raise e s ∧ (e = .noctx ∨ e = .range) := by
  unfold needBothBelow needCtx
  split_ifs with h1 h2
  all_goals first | exact .inr ⟨_, rfl, by simp⟩ | exact .inl ⟨rfl, by simp_all⟩

theorem needBelow_cases (s : State) (a : Nat) (k : Host.Outcome State Fault Refusal) :
    (needBelow s a k = k ∧ s.ctx.valid = true ∧ a < s.modulus) ∨
      ∃ e, needBelow s a k = raise e s ∧ (e = .noctx ∨ e = .range) := by
  unfold needBelow needCtx
  split_ifs with h1 h2
  all_goals first | exact .inr ⟨_, rfl, by simp⟩ | exact .inl ⟨rfl, by simp_all⟩

theorem needCtx_cases (s : State) (k : Host.Outcome State Fault Refusal) :
    (needCtx s k = k ∧ s.ctx.valid = true) ∨ needCtx s k = raise .noctx s := by
  unfold needCtx
  split_ifs with h1 <;> simp_all

end Sys2Proof.Machine
end

