-- ==== Sys2Proof/Laws/Exec.lean ====
section
/-! SUPPORT. What a command can do, said once: it raises an error, or it succeeds with writes to V, PT, TBL, NAF, NAFLEN and CTX
alone. -/

namespace Sys2Proof.Machine

/-- A state `u` that differs from `s` at most in the registers a command can write. -/
structure DataStep (s u : State) : Prop where
  ie : u.ie = s.ie
  done : u.done = s.done
  err : u.err = s.err
  haz : u.haz = s.haz
  errCode : u.errCode = s.errCode
  azero : u.azero = s.azero
  ord : u.ord = s.ord
  inFlight : u.inFlight = s.inFlight
  rstN : u.rstN = s.rstN
  schedule : u.schedule = s.schedule
  response : u.response = s.response
  draws : u.draws = s.draws

theorem DataStep.refl (s : State) : DataStep s s := by constructor <;> rfl

theorem DataStep.trans {s t u : State} (h : DataStep s t) (h' : DataStep t u) : DataStep s u := by
  obtain ⟨a1, a2, a3, a4, a5, a6, a7, a8, a9, a10, a11, a12⟩ := h
  obtain ⟨b1, b2, b3, b4, b5, b6, b7, b8, b9, b10, b11, b12⟩ := h'
  constructor <;> simp_all

theorem DataStep.setV (s : State) (i : VReg) (n : Nat) : DataStep s (s.setV i n) := by constructor <;> rfl
theorem DataStep.putV (s : State) (i : VReg) (x : Value) : DataStep s (s.putV i x) := by constructor <;> rfl
theorem DataStep.setPT (s : State) (i : PReg) (p : Point) : DataStep s (s.setPT i p) := by constructor <;> rfl
theorem DataStep.setTbl (s : State) (t : List TblEntry) : DataStep s (s.setTbl t) := by constructor <;> rfl
theorem DataStep.setNaf (s : State) (ds : List Int) : DataStep s (s.setNaf ds) := by constructor <;> rfl
theorem DataStep.setCtx (s : State) (c : Ctx) : DataStep s (s.setCtx c) := by constructor <;> rfl

theorem DataStep.setRange (s : State) (a : VReg) (k : Nat) (ys : List Nat) : DataStep s (s.setRange a k ys) := by
  induction ys generalizing s k with
  | nil => exact .refl s
  | cons y ys ih => exact (DataStep.setV s _ y).trans (ih _ _)

/-- The writes of BINV reach value registers alone. -/
theorem setRange_others (s : State) (a : VReg) (k : Nat) (ys : List Nat) :
    (s.setRange a k ys).pt = s.pt ∧ (s.setRange a k ys).tbl = s.tbl ∧ (s.setRange a k ys).naf = s.naf ∧
      (s.setRange a k ys).nafLen = s.nafLen ∧ (s.setRange a k ys).ctx = s.ctx := by
  induction ys generalizing s k with
  | nil => exact ⟨rfl, rfl, rfl, rfl, rfl⟩
  | cons y ys ih => simpa [State.setRange] using ih (s.setV (regPlus a k) y) (k + 1)

/-- An outcome that is an error completion of `s`, or the success of a state that a command's writes lead to. -/
def Ends (s : State) (o : Host.Outcome State Fault Refusal) : Prop :=
  (∃ e, o = raise e s) ∨ ∃ u, o = succeed u ∧ DataStep s u

theorem Ends.raise {s : State} (e : CmdError) : Ends s (raise e s) := .inl ⟨e, rfl⟩
theorem Ends.succeed {s u : State} (h : DataStep s u) : Ends s (succeed u) := .inr ⟨u, rfl, h⟩

theorem Ends.needCtx {s : State} {k : Host.Outcome State Fault Refusal} (h : Ends s k) : Ends s (needCtx s k) := by
  rcases needCtx_cases s k with ⟨e, -⟩ | e <;> rw [e]
  exacts [h, .raise _]

theorem Ends.needBelow {s : State} {a : Nat} {k : Host.Outcome State Fault Refusal} (h : Ends s k) :
    Ends s (needBelow s a k) := by
  rcases needBelow_cases s a k with ⟨e, -⟩ | ⟨_, e, -⟩ <;> rw [e]
  exacts [h, .raise _]

theorem Ends.needBothBelow {s : State} {a b : Nat} {k : Host.Outcome State Fault Refusal} (h : Ends s k) :
    Ends s (needBothBelow s a b k) := by
  rcases needBothBelow_cases s a b k with ⟨e, -⟩ | ⟨_, e, -⟩ <;> rw [e]
  exacts [h, .raise _]

theorem Ends.needPoint {s : State} {n : PointNeed} {p : Point} {k : Host.Outcome State Fault Refusal} (h : Ends s k) :
    Ends s (needPoint s n p k) := by
  rcases needPoint_cases s n p k with ⟨e, -⟩ | ⟨_, e, -⟩ <;> rw [e]
  exacts [h, .raise _]

theorem Ends.needTwoPoints {s : State} {n m : PointNeed} {p q : Point} {k : Host.Outcome State Fault Refusal}
    (h : Ends s k) : Ends s (needTwoPoints s n p m q k) := by
  rcases needTwoPoints_cases s n m p q k with ⟨e, -⟩ | ⟨_, e, -⟩ <;> rw [e]
  exacts [h, .raise _]

theorem Ends.ite {s : State} {c : Prop} [Decidable c] {k l : Host.Outcome State Fault Refusal} (hk : Ends s k)
    (hl : Ends s l) : Ends s (if c then k else l) := by
  split
  exacts [hk, hl]

/-- Every command ends: with an error, or with its writes (R117, R118). -/
theorem exec_ends (i : Instr) (s : State) : Ends s (exec i s) := by
  cases i with
  | nop => exact .succeed (.refl s)
  | mov rd ra => exact .succeed (.putV ..)
  | madd rd ra rb => exact .needBothBelow (.succeed (.setV ..))
  | msub rd ra rb => exact .needBothBelow (.succeed (.setV ..))
  | mred rd ra => exact .needCtx (.succeed (.setV ..))
  | minv rd ra rb => exact .ite (.raise _) (.ite (.raise _) (.succeed (.setV ..)))
  | binv rd ra n1 mont =>
    exact .ite (.raise _) (.needCtx (.ite (.raise _) (.ite (.raise _) (.succeed (.setRange ..)))))
  | mctx ra => exact .ite (.raise _) (.succeed (.setCtx ..))
  | mmul rd ra rb => exact .needBothBelow (.succeed (.setV ..))
  | mtom rd ra => exact .needBelow (.succeed (.setV ..))
  | mfrom rd ra => exact .needBelow (.succeed (.setV ..))
  | mexp rd ra rb => exact .needCtx (.succeed (.setV ..))
  | pmov rd ra => exact .succeed (.setPT ..)
  | pdbl rd ra => exact .needPoint (.succeed (.setPT ..))
  | pmadd rd ra rb => exact .needTwoPoints (.succeed (.setPT ..))
  | pmdadd rd ra rb => exact .needTwoPoints (.succeed (.setPT ..))
  | pneg rd ra => exact .needPoint (.succeed (.setPT ..))
  | ptoj rd ra => exact .needPoint (.succeed (.setPT ..))
  | ptoa rd ra =>
    refine .needPoint ?_
    split
    exacts [.raise _, .succeed (.setPT ..)]
  | ptom rd ra => exact .needPoint (.succeed (.setPT ..))
  | pfrom rd ra => exact .needPoint (.succeed (.setPT ..))
  | naf ra w => exact .ite (.raise _) (.succeed (.setNaf ..))
  | ptab ra w =>
    refine .needPoint (.ite (.raise _) ?_)
    split
    exacts [.raise _, .succeed (.setTbl ..)]
  | smul rd ra rb mont =>
    refine .needPoint (.ite (.succeed (.setPT ..)) (.ite (.raise _) ?_))
    split
    exacts [.raise _, .succeed (((DataStep.setTbl ..).trans (.setNaf ..)).trans (.setPT ..))]

end Sys2Proof.Machine
end

