-- ==== Sys2Proof/Laws/Engine.lean ====
section
/-! SUPPORT. What a step can do, said once: the inversion of `step`, and the steps of a bus transaction and of a completion. -/

namespace Sys2Proof.Machine

variable {s t : State} {rest : List Event} {tr : Transaction} {l : Loc}

/-- Every command word ends: with an error, or with its command's writes (R117, R119). -/
theorem runWord_ends (w : Word) (s : State) : Ends s (runWord w s) := by
  unfold runWord
  split
  exacts [.raise _, exec_ends _ _]

/-- The step of an accepted read (R82, R350). -/
theorem step_read (hr : s.rstN = true) (hs : s.schedule = .bus tr :: rest) (hk : tr.kind = .read)
    (hc : busCheck tr = .ok l) : step s = .next (({ s with schedule := rest } : State).busRead l) := by
  simp [step, stepCore, hs, perform, busAccess, hr, hc, hk]

/-- The step of an accepted write (R83, R350). -/
theorem step_write (hr : s.rstN = true) (hs : s.schedule = .bus tr :: rest) (hk : tr.kind = .write)
    (hc : busCheck tr = .ok l) : step s = .next (({ s with schedule := rest } : State).busWrite l tr.wdata) := by
  simp [step, stepCore, hs, perform, busAccess, hr, hc, hk]

/-- The step of a transaction that gets an ERROR (R81). -/
theorem step_error {e : BusError} (hr : s.rstN = true) (hs : s.schedule = .bus tr :: rest)
    (hc : busCheck tr = .error e) : step s = .next { s with schedule := rest, response := .error } := by
  simp [step, stepCore, hs, perform, busAccess, hr, hc]

/-- The step of a completion event with a command in flight (R119). -/
theorem step_completes {w : Word} (hr : s.rstN = true) (hs : s.schedule = .completes :: rest)
    (hf : s.inFlight = some w) : step s = runWord w { s with schedule := rest } := by
  simp [step, stepCore, hs, perform, engine, hr, hf]

/-- What the engine can do: nothing, or the end of the command in flight. -/
theorem engine_cases (h : engine s = .next t) :
    ((s.inFlight = none ∨ s.rstN = false) ∧ t = s) ∨
      ∃ w, s.rstN = true ∧ s.inFlight = some w ∧ runWord w s = .next t := by
  unfold engine at h
  cases hr : s.rstN
  · rw [hr] at h
    cases h
    exact .inl ⟨.inr rfl, rfl⟩
  · rw [hr] at h
    cases hf : s.inFlight with
    | none => rw [hf] at h; cases h; exact .inl ⟨.inl rfl, rfl⟩
    | some w => rw [hf] at h; exact .inr ⟨w, rfl, rfl, h⟩

/-- Everything a step can do (R305): the engine idles or ends its command; a bus transaction gets an ERROR, reads or writes; or
`rst_n` falls or rises. -/
theorem step_cases (h : step s = .next t) :
    ((s.inFlight = none ∨ s.rstN = false) ∧ t = { s with schedule := s.schedule.tail }) ∨
    (∃ w, s.rstN = true ∧ s.inFlight = some w ∧ runWord w { s with schedule := s.schedule.tail } = .next t) ∨
    (∃ tr, s.rstN = true ∧ s.schedule.head? = some (.bus tr) ∧
      ((∃ e, busCheck tr = .error e ∧ t = { s with schedule := s.schedule.tail, response := .error }) ∨
       (∃ l, busCheck tr = .ok l ∧ tr.kind = .read ∧
         t = ({ s with schedule := s.schedule.tail } : State).busRead l) ∨
       (∃ l, busCheck tr = .ok l ∧ tr.kind = .write ∧
         t = ({ s with schedule := s.schedule.tail } : State).busWrite l tr.wdata))) ∨
    (s.schedule.head? = some .resetFalls ∧ t = resetFalls { s with schedule := s.schedule.tail }) ∨
    (s.schedule.head? = some .resetRises ∧ t = resetRises { s with schedule := s.schedule.tail }) := by
  simp only [step, stepCore] at h
  split at h
  · next hs =>
    have e : s = { s with schedule := s.schedule.tail } := by cases s; simp_all
    rcases engine_cases h with ⟨h1, rfl⟩ | ⟨w, h1, h2, h3⟩
    · exact .inl ⟨h1, e⟩
    · exact .inr (.inl ⟨w, h1, h2, e ▸ h3⟩)
  · next ev rest hs =>
    rw [hs]
    simp only [List.tail_cons, List.head?_cons, Option.some.injEq]
    cases ev with
    | completes =>
      rcases engine_cases h with ⟨h1, rfl⟩ | ⟨w, h1, h2, h3⟩
      · exact .inl ⟨h1, rfl⟩
      · exact .inr (.inl ⟨w, h1, h2, h3⟩)
    | resetFalls => cases h; exact .inr (.inr (.inr (.inl ⟨rfl, rfl⟩)))
    | resetRises => cases h; exact .inr (.inr (.inr (.inr ⟨rfl, rfl⟩)))
    | bus tr =>
      refine .inr (.inr (.inl ⟨tr, ?_⟩))
      simp only [perform, busAccess] at h
      cases hr : s.rstN with
      | false => rw [hr] at h; simp at h
      | true =>
        refine ⟨rfl, rfl, ?_⟩
        rw [hr] at h
        cases hb : busCheck tr with
        | error e => rw [hb] at h; cases h; exact .inl ⟨e, rfl, rfl⟩
        | ok l =>
          rw [hb] at h
          cases hk : tr.kind with
          | read => rw [hk] at h; cases h; exact .inr (.inl ⟨l, rfl, rfl, rfl⟩)
          | write => rw [hk] at h; cases h; exact .inr (.inr ⟨l, rfl, rfl, rfl⟩)

end Sys2Proof.Machine
end

