-- ==== Sys2Proof/Laws/Bus.lean ====
section
/-! SUPPORT. Where the writable locations lie (R71), what an accepted write of an idle machine does (R83), and the number that
a value holds after one digit is written (R72). -/

namespace Sys2Proof.Machine

/-! ### Offsets (R71) -/

theorem ofOffset_vDigit (i : VReg) (j : Fin 128) :
    Loc.ofOffset (0x1000 + 0x200 * i.val + 4 * j.val) = some (.vDigit i j) := by
  obtain ⟨i, hi⟩ := i
  obtain ⟨j, hj⟩ := j
  simp only [Loc.ofOffset]
  rw [if_neg (by omega), if_neg (by omega), if_neg (by omega), if_pos (by omega)]
  simp only [digitIndex, Fin.ofNat, Option.some.injEq, Loc.vDigit.injEq, Fin.mk.injEq]
  omega

/-- The offset `r` within point register `i`'s block. -/
theorem ofOffset_pt (i : PReg) {r : Nat} (hr : r < 0x800) :
    Loc.ofOffset (0x5000 + 0x800 * i.val + r) =
      if r < 0x200 then some (.ptDigit i .x (digitIndex r))
      else if r < 0x400 then some (.ptDigit i .y (digitIndex r))
      else if r < 0x600 then some (.ptDigit i .z (digitIndex r))
      else if r < 0x604 then some (.ptFlags i)
      else none := by
  obtain ⟨i, hi⟩ := i
  simp only [Loc.ofOffset]
  rw [if_neg (by omega), if_neg (by omega), if_neg (by omega), if_neg (by omega), if_pos (by omega)]
  have e1 : (0x5000 + 0x800 * i + r - 0x5000) / 0x800 = i := by omega
  have e2 : (0x5000 + 0x800 * i + r - 0x5000) % 0x800 = r := by omega
  have e3 : Fin.ofNat 8 i = ⟨i, hi⟩ := by simp [Fin.ofNat, Nat.mod_eq_of_lt hi]
  simp only [ptAt, e1, e2, e3]

theorem ofOffset_ptFlags (i : PReg) : Loc.ofOffset (0x5000 + 0x800 * i.val + 0x600) = some (.ptFlags i) := by
  rw [ofOffset_pt i (by omega)]
  rfl

/-! ### Writes while idle (R83) -/

/-- A 4-byte write to the aligned offset of a writable location is accepted (R80). -/
theorem busCheck_write {o : Nat} {l : Loc} (w : Word) (h1 : o < 2 ^ 17) (h2 : o % 4 = 0) (h : Loc.ofOffset o = some l)
    (hr : l.readOnly = false) :
    busCheck { kind := .write, addr := BitVec.ofNat 17 o, size := .four, wdata := w } = .ok l := by
  have e : (BitVec.ofNat 17 o).toNat = o := by rw [BitVec.toNat_ofNat, Nat.mod_eq_of_lt h1]
  simp [busCheck, e, h2, h, hr]

/-- The step of an accepted write to an idle machine: the location's own effect, and OKAY. -/
theorem step_write_idle {s : State} {w : Word} {rest : List Event} {o : Nat} {l : Loc} (hr : s.rstN = true)
    (hb : s.busy = false)
    (hs : s.schedule = .bus { kind := .write, addr := BitVec.ofNat 17 o, size := .four, wdata := w } :: rest)
    (h1 : o < 2 ^ 17) (h2 : o % 4 = 0) (h : Loc.ofOffset o = some l) (hro : l.readOnly = false) :
    step s = .next { ({ s with schedule := rest } : State).writeLoc w l with response := .okayWrite } := by
  rw [step_write hr hs rfl (busCheck_write w h1 h2 h hro)]
  have e : ({ s with schedule := rest } : State).busy = false := hb
  simp [State.busWrite, e]

/-! ### One digit written (R72) -/

theorem setDigit_toNat (x : Value) (j : Fin 128) (d : Word) :
    (setDigit x j.val d).toNat =
      x.toNat / 2 ^ (32 * (j.val + 1)) * 2 ^ (32 * (j.val + 1)) + d.toNat * 2 ^ (32 * j.val) +
        x.toNat % 2 ^ (32 * j.val) := by
  unfold setDigit
  rw [BitVec.toNat_ofNat]
  apply Nat.mod_eq_of_lt
  have hp : (2 : Nat) ^ 4096 = 2 ^ (4096 - 32 * (j.val + 1)) * 2 ^ (32 * (j.val + 1)) := by
    rw [← Nat.pow_add]
    exact congrArg (fun n => 2 ^ n) (by omega)
  have hd : (2 : Nat) ^ (32 * (j.val + 1)) = 2 ^ 32 * 2 ^ (32 * j.val) := by
    rw [← Nat.pow_add]
    exact congrArg (fun n => 2 ^ n) (by omega)
  have hx : x.toNat / 2 ^ (32 * (j.val + 1)) < 2 ^ (4096 - 32 * (j.val + 1)) :=
    Nat.div_lt_of_lt_mul (lt_of_lt_of_eq x.isLt (hp.trans (Nat.mul_comm _ _)))
  have hm : x.toNat % 2 ^ (32 * j.val) < 2 ^ (32 * j.val) := Nat.mod_lt _ (Nat.two_pow_pos _)
  have h1 := Nat.mul_le_mul_right (2 ^ (32 * j.val)) (Nat.succ_le_of_lt d.isLt)
  have h2 := Nat.mul_le_mul_right (2 ^ (32 * (j.val + 1))) (Nat.succ_le_of_lt hx)
  rw [Nat.succ_mul] at h1 h2
  refine lt_of_lt_of_eq (lt_of_lt_of_le ?_ h2) hp.symm
  generalize x.toNat / 2 ^ (32 * (j.val + 1)) * 2 ^ (32 * (j.val + 1)) = a
  rw [hd]
  omega

end Sys2Proof.Machine
end

