-- ==== Sys2Proof/Laws/Context.lean ====
section
/-! SUPPORT. What a context holds (R170), what m′ is (R171), and what the numbers of a sound context give in Z/p. -/

namespace Sys2Proof.Machine

/-! ### m′ (R171) -/

/-- The recurrence of R171 gives the inverse of an odd digit modulo 2^(i − 1 + steps). -/
theorem mPrimeLoop_spec (m0 : Nat) (hodd : m0 % 2 = 1) :
    ∀ steps i y, 1 ≤ i → m0 * y % 2 ^ i = 1 → y < 2 ^ i →
      m0 * mPrimeLoop m0 steps (i + 1) y % 2 ^ (i + steps) = 1 ∧ mPrimeLoop m0 steps (i + 1) y < 2 ^ (i + steps) := by
  intro steps
  induction steps with
  | zero => intro i y _ h hy; exact ⟨h, hy⟩
  | succ n ih =>
    intro i y hi h hy
    have hpow : 2 ^ (i + 1) = 2 ^ i * 2 := Nat.pow_succ 2 i
    have hlt : 1 < 2 ^ (i + 1) := Nat.one_lt_two_pow (by omega)
    have key : m0 * (if m0 * y % 2 ^ (i + 1) = 1 then y else y + 2 ^ i) % 2 ^ (i + 1) = 1 := by
      split
      · assumption
      · next hne =>
        obtain ⟨c, hc⟩ : ∃ c, m0 = 2 * c + 1 := ⟨m0 / 2, by omega⟩
        have e := Nat.mod_pow_succ (x := m0 * y) (b := 2) (k := i)
        rw [h] at e
        have hb : m0 * y / 2 ^ i % 2 = 1 := by
          rcases Nat.mod_two_eq_zero_or_one (m0 * y / 2 ^ i) with h0 | h0
          · rw [h0] at e; exact absurd (by omega) hne
          · exact h0
        rw [hb] at e
        have e2 : m0 * (y + 2 ^ i) = (m0 * y + 2 ^ i) + 2 ^ (i + 1) * c := by rw [hpow, hc]; ring
        rw [e2, Nat.add_mul_mod_self_left, Nat.add_mod, e]
        have : 2 ^ i % 2 ^ (i + 1) = 2 ^ i := Nat.mod_eq_of_lt (by omega)
        rw [this, show 1 + 2 ^ i * 1 + 2 ^ i = 1 + 2 ^ (i + 1) by omega, Nat.add_mod_right]
        exact Nat.mod_eq_of_lt hlt
    have hlt' : (if m0 * y % 2 ^ (i + 1) = 1 then y else y + 2 ^ i) < 2 ^ (i + 1) := by split <;> omega
    have := ih (i + 1) _ (by omega) key hlt'
    rw [mPrimeLoop]
    have e3 : i + (n + 1) = i + 1 + n := by omega
    rw [e3]
    exact this

/-- m′ is the value with m · m′ ≡ −1 modulo 2^32 (R171). -/
theorem mul_mPrime (m : Nat) (hodd : m % 2 = 1) : m * mPrime m % 2 ^ 32 = 2 ^ 32 - 1 ∧ mPrime m < 2 ^ 32 := by
  have h0 : m % 2 ^ 32 % 2 = 1 := by omega
  obtain ⟨h1, h2⟩ := mPrimeLoop_spec (m % 2 ^ 32) h0 31 1 1 (by omega) (by omega) (by decide)
  refine ⟨?_, Nat.mod_lt _ (by decide)⟩
  simp only [mPrime]
  generalize mPrimeLoop (m % 2 ^ 32) 31 (1 + 1) 1 = y at h1 h2
  norm_num at h1 h2
  rw [Nat.mul_mod_mod]
  have h3 : m * y % 4294967296 = 1 := h1
  have hy : y ≤ 2 ^ 32 := by omega
  zify [hy] at h3 ⊢
  have : (m : Int) * (2 ^ 32 - y) = 4294967296 * m - m * y := by ring
  rw [this]
  omega

/-! ### The context of a modulus (R170) -/

@[simp] theorem contextFor_valid (m : Value) : (contextFor m).valid = true := rfl
@[simp] theorem contextFor_m (m : Value) : (contextFor m).m = m := rfl

theorem contextFor_s (m : Value) : (contextFor m).s.toNat = digitCount m.toNat := by
  have := digitCount_le m
  simp only [contextFor, BitVec.toNat_ofNat]
  exact Nat.mod_eq_of_lt (by omega)

theorem contextFor_mp (m : Value) (hodd : m.toNat % 2 = 1) : (contextFor m).mp.toNat = mPrime m.toNat := by
  have := (mul_mPrime m.toNat hodd).2
  simp only [contextFor, BitVec.toNat_ofNat]
  exact Nat.mod_eq_of_lt (by omega)

/-- A residue modulo a register's number fits a register (R137). -/
theorem mod_lt_register (m : Value) (x : Nat) (h : 0 < m.toNat) : x % m.toNat < 2 ^ 4096 :=
  lt_of_lt_of_le (Nat.mod_lt x h) (Nat.le_of_lt m.isLt)

theorem contextFor_r1 (m : Value) (h : 0 < m.toNat) :
    (contextFor m).r1.toNat = radix (digitCount m.toNat) % m.toNat := by
  simp only [contextFor, BitVec.toNat_ofNat]
  exact Nat.mod_eq_of_lt (mod_lt_register m _ h)

theorem contextFor_r2 (m : Value) (h : 0 < m.toNat) :
    (contextFor m).r2.toNat = radix (digitCount m.toNat) ^ 2 % m.toNat := by
  simp only [contextFor, BitVec.toNat_ofNat]
  exact Nat.mod_eq_of_lt (mod_lt_register m _ h)

theorem contextFor_r3 (m : Value) (h : 0 < m.toNat) :
    (contextFor m).r3.toNat = radix (digitCount m.toNat) ^ 3 % m.toNat := by
  simp only [contextFor, BitVec.toNat_ofNat]
  exact Nat.mod_eq_of_lt (mod_lt_register m _ h)

/-- What a sound context's numbers are, for the arithmetic of a command (R170, R172). -/
structure SoundField (f : FieldCtx) (R : Nat) : Prop where
  three_le : 3 ≤ f.p
  odd : f.p % 2 = 1
  p_lt : f.p < 2 ^ 4096
  r1 : f.r1 = R % f.p
  r2 : f.r2 = R ^ 2 % f.p
  r3 : f.r3 = R ^ 3 % f.p
  inv : R * f.rInv % f.p = 1

theorem Ctx.Sound.field {c : Ctx} (h : c.Sound) (hv : c.valid = true) (az : Bool) :
    SoundField (c.field az) (radix c.s.toNat) := by
  obtain ⟨h3, hodd, hc⟩ := h hv
  have hs : c.s.toNat = digitCount c.m.toNat := by rw [hc]; exact contextFor_s _
  refine ⟨h3, hodd, c.m.isLt, ?_, ?_, ?_, radix_mul_rInv c az (by omega) hodd⟩
  · rw [hs]; show c.r1.toNat = _; rw [hc]; exact contextFor_r1 _ (by omega)
  · rw [hs]; show c.r2.toNat = _; rw [hc]; exact contextFor_r2 _ (by omega)
  · rw [hs]; show c.r3.toNat = _; rw [hc]; exact contextFor_r3 _ (by omega)

/-! ### Arithmetic in Z/p -/

namespace SoundField

variable {f : FieldCtx} {R : Nat} (h : SoundField f R)
include h

theorem p_pos : 0 < f.p := by have := h.three_le; omega

theorem cast_R_mul_rInv : (R : ZMod f.p) * (f.rInv : ZMod f.p) = 1 := by
  have h1 : ((R * f.rInv % f.p : Nat) : ZMod f.p) = ((1 : Nat) : ZMod f.p) := by rw [h.inv]
  simpa using h1

theorem cast_rInv_mul_R : (f.rInv : ZMod f.p) * (R : ZMod f.p) = 1 := by rw [mul_comm]; exact h.cast_R_mul_rInv

theorem cast_r1 : (f.r1 : ZMod f.p) = R := by rw [h.r1]; simp
theorem cast_r2 : (f.r2 : ZMod f.p) = (R : ZMod f.p) ^ 2 := by rw [h.r2]; simp
theorem cast_r3 : (f.r3 : ZMod f.p) = (R : ZMod f.p) ^ 3 := by rw [h.r3]; simp

omit h in
theorem cast_montMul (a b : Nat) : (montMul f a b : ZMod f.p) = a * b * f.rInv := by simp [montMul]

omit h in
theorem cast_fadd (a b : Nat) : (fadd f a b : ZMod f.p) = a + b := by simp [fadd]

theorem cast_fsub (a b : Nat) : (fsub f a b : ZMod f.p) = a - b := by
  have hb : b % f.p ≤ f.p := Nat.le_of_lt (Nat.mod_lt _ h.p_pos)
  simp only [fsub, ZMod.natCast_mod, Nat.cast_add, Nat.cast_sub hb, ZMod.natCast_self]
  ring

omit h in
theorem cast_fscale (k a : Nat) : (fscale f k a : ZMod f.p) = k * a := by simp [fscale]

theorem lt_montMul (a b : Nat) : montMul f a b < f.p := Nat.mod_lt _ h.p_pos
theorem lt_fadd (a b : Nat) : fadd f a b < f.p := Nat.mod_lt _ h.p_pos
theorem lt_fsub (a b : Nat) : fsub f a b < f.p := Nat.mod_lt _ h.p_pos
theorem lt_fscale (k a : Nat) : fscale f k a < f.p := Nat.mod_lt _ h.p_pos
theorem lt_r1 : f.r1 < f.p := by rw [h.r1]; exact Nat.mod_lt _ h.p_pos
theorem lt_r2 : f.r2 < f.p := by rw [h.r2]; exact Nat.mod_lt _ h.p_pos
theorem lt_r3 : f.r3 < f.p := by rw [h.r3]; exact Nat.mod_lt _ h.p_pos

omit h in
/-- Residues below p are equal when they are equal in Z/p. -/
theorem eq_of_cast {a b : Nat} (ha : a < f.p) (hb : b < f.p) (e : (a : ZMod f.p) = b) : a = b := by
  have := (ZMod.natCast_eq_natCast_iff' a b f.p).mp e
  rwa [Nat.mod_eq_of_lt ha, Nat.mod_eq_of_lt hb] at this

omit h in
theorem cast_eq_zero {a : Nat} (ha : a < f.p) : (a : ZMod f.p) = 0 ↔ a = 0 := by
  rw [ZMod.natCast_eq_zero_iff]
  exact ⟨fun d => Nat.eq_zero_of_dvd_of_lt d ha, fun e => e ▸ dvd_zero _⟩

omit h in
/-- An equation of residues modulo p, said in Z/p. -/
theorem mod_eq_iff {a b : Nat} : a % f.p = b % f.p ↔ (a : ZMod f.p) = b :=
  (ZMod.natCast_eq_natCast_iff' a b f.p).symm

/-- A residue times R⁻¹ vanishes only when the residue does. -/
theorem mul_rInv_eq_zero {x : ZMod f.p} : x * f.rInv = 0 ↔ x = 0 := by
  constructor
  · intro e
    have := congrArg (· * (R : ZMod f.p)) e
    simpa [mul_assoc, h.cast_rInv_mul_R] using this
  · rintro rfl; simp

/-- MontMul by R1, the value 1 in Montgomery form, changes no reduced value (R172). -/
theorem montMul_r1 {a : Nat} (ha : a < f.p) : montMul f a f.r1 = a := by
  apply eq_of_cast (h.lt_montMul _ _) ha
  rw [cast_montMul, h.cast_r1, mul_assoc, h.cast_R_mul_rInv, mul_one]

/-- MontMul by R2 converts to Montgomery form, and by 1 back (R176, R177). -/
theorem montMul_one_montMul_r2 {a : Nat} (ha : a < f.p) : montMul f (montMul f a f.r2) 1 = a := by
  apply eq_of_cast (h.lt_montMul _ _) ha
  rw [cast_montMul, cast_montMul, h.cast_r2]
  have := h.cast_R_mul_rInv
  push_cast
  linear_combination (a : ZMod f.p) * ((R : ZMod f.p) * f.rInv + 1) * this

/-- Reduced numbers below p fit a register. -/
theorem toNat_ofNat {a : Nat} (ha : a < f.p) : (BitVec.ofNat 4096 a).toNat = a := by
  rw [BitVec.toNat_ofNat]; exact Nat.mod_eq_of_lt (ha.trans h.p_lt)

end SoundField

/-! ### Represented elements (R19, R35) -/

namespace SoundField

variable {f : FieldCtx} {R : Nat} (h : SoundField f R)
include h

/-- The element that a number below p stands for in Montgomery form. -/
theorem represented_ofNat {a : Nat} (ha : a < f.p) :
    represented f (BitVec.ofNat 4096 a) = (a : ZMod f.p) * f.rInv := by
  rw [represented, h.toNat_ofNat ha]

end SoundField

end Sys2Proof.Machine
end

