-- ==== Sys2Proof/Laws/Curve.lean ====
section
/-! SUPPORT. What the point formulas compute, said in the represented coordinates of Z/p (R205, R207, R208). -/

namespace Sys2Proof.Machine

namespace SoundField

variable {f : FieldCtx} {R : Nat} (h : SoundField f R)
include h

/-- The register that holds a reduced number represents that number over R. -/
theorem represented_montMul (a b : Nat) :
    represented f (BitVec.ofNat 4096 (montMul f a b)) = (a * f.rInv) * (b * f.rInv) := by
  rw [h.represented_ofNat (h.lt_montMul a b), cast_montMul]; ring

/-- The doubling formula in represented coordinates (R205). -/
theorem dbl_represented {q : Point} (hq : q.inf = false) :
    (dbl f q).inf = false ∧ (dbl f q).aff = false ∧ (dbl f q).mont = true ∧
      represented f (dbl f q).z = 2 * represented f q.y * represented f q.z ∧
      represented f (dbl f q).x =
        (3 * represented f q.x ^ 2 + curveA f * represented f q.z ^ 4) ^ 2 -
          8 * represented f q.x * represented f q.y ^ 2 ∧
      represented f (dbl f q).y =
        (3 * represented f q.x ^ 2 + curveA f * represented f q.z ^ 4) *
            (4 * represented f q.x * represented f q.y ^ 2 - represented f (dbl f q).x) -
          8 * represented f q.y ^ 4 := by
  have hmv : (dblSlope f q.x.toNat q.z.toNat : ZMod f.p) * f.rInv =
      3 * represented f q.x ^ 2 + curveA f * represented f q.z ^ 4 := by
    unfold dblSlope represented curveA
    split
    · simp only [cast_fscale, cast_montMul]; push_cast; ring
    · simp only [cast_fscale, cast_montMul, cast_fadd, h.cast_fsub]; push_cast; ring
  have e : dbl f q = jacobian true _ _ _ := if_neg (by simp [hq])
  rw [e]
  simp only [jacobian]
  rw [h.represented_ofNat (h.lt_fsub _ _), h.represented_ofNat (h.lt_fsub _ _), h.represented_ofNat (h.lt_fscale _ _)]
  simp only [cast_fscale, cast_montMul, h.cast_fsub]
  rw [← hmv]
  simp only [represented]
  push_cast
  refine ⟨trivial, trivial, trivial, by ring, by ring, by ring⟩

omit h in
/-- What the multiplication of a domain puts beside the product: R⁻¹ in the Montgomery domain, and 1 in the standard one
(R200). -/
theorem cast_fmul (d : Bool) (a b : Nat) :
    (fmul f d a b : ZMod f.p) = a * b * (if d then (f.rInv : ZMod f.p) else 1) := by
  cases d
  · simp [fmul]
  · simp [fmul, cast_montMul]

theorem lt_fmul (d : Bool) (a b : Nat) : fmul f d a b < f.p := by
  cases d
  · exact Nat.mod_lt _ h.p_pos
  · exact h.lt_montMul a b

/-- The inverse of R16 in Z/p. -/
theorem cast_mul_inv {a : Nat} (ha : a < f.p) (hg : Nat.gcd a f.p = 1) :
    (a : ZMod f.p) * (Sys2Proof.Machine.inv a f.p : Nat) = 1 := by
  have := congrArg (Nat.cast : Nat → ZMod f.p)
    (inv_spec ha (by have := h.three_le; omega) hg).2
  simpa using this

/-- `toA` of a finite point with an invertible Z: the affine coordinates, times the powers of Z, are X and Y (R211). -/
theorem toA_finite {q : Point} (hq : q.inf = false) (hz : q.z.toNat < f.p) (hg : Nat.gcd q.z.toNat f.p = 1) :
    ∃ x y : Nat, toA f q = some (affine q.mont x y) ∧ x < f.p ∧ y < f.p ∧
      let k : ZMod f.p := if q.mont then (f.rInv : ZMod f.p) else 1
      (x : ZMod f.p) * (q.z.toNat * k) ^ 2 = q.x.toNat ∧ (y : ZMod f.p) * (q.z.toNat * k) ^ 3 = q.y.toNat := by
  have e := toA.eq_1 f q
  rw [if_neg (by simp [hq]), if_neg (by simpa using hg)] at e
  refine ⟨_, _, e, h.lt_fmul _ _ _, h.lt_fmul _ _ _, ?_⟩
  have hR := h.cast_R_mul_rInv
  have hi := h.cast_mul_inv hz hg
  generalize (Sys2Proof.Machine.inv q.z.toNat f.p) = zi at hi
  have key : ∀ (w k : ZMod f.p), w * (q.z.toNat * k ^ 2) = 1 → ∀ X : ZMod f.p,
      X * (w * w * k) * k * (q.z.toNat * k) ^ 2 = X ∧ X * (w * w * k * w * k) * k * (q.z.toNat * k) ^ 3 = X := by
    intro w k hw X
    constructor
    · calc _ = X * (w * (q.z.toNat * k ^ 2)) ^ 2 := by ring
        _ = X := by rw [hw]; ring
    · calc _ = X * (w * (q.z.toNat * k ^ 2)) ^ 3 := by ring
        _ = X := by rw [hw]; ring
  simp only [cast_fmul]
  cases q.mont
  · exact ⟨(key zi 1 (by linear_combination hi) _).1, (key zi 1 (by linear_combination hi) _).2⟩
  · have hw : (montMul f zi f.r3 : ZMod f.p) * (q.z.toNat * (f.rInv : ZMod f.p) ^ 2) = 1 := by
      rw [cast_montMul, h.cast_r3]
      calc _ = (q.z.toNat * zi : ZMod f.p) * (R * f.rInv) ^ 3 := by ring
        _ = 1 := by rw [hi, hR]; ring
    exact ⟨(key _ _ hw _).1, (key _ _ hw _).2⟩

/-- The last part that the two addition formulas share, in represented coordinates (R207, R208). -/
theorem addFinish_represented (u1 s1 zz u v : Nat) :
    let U := (u1 : ZMod f.p) * f.rInv
    let S := (s1 : ZMod f.p) * f.rInv
    let H := (u : ZMod f.p) * f.rInv
    let r := (v : ZMod f.p) * f.rInv
    let q := addFinish f u1 s1 zz u v
    q.inf = false ∧ q.aff = false ∧ q.mont = true ∧
      represented f q.z = (zz : ZMod f.p) * f.rInv * H ∧
      represented f q.x = r ^ 2 - H ^ 3 - 2 * U * H ^ 2 ∧
      represented f q.y = r * (U * H ^ 2 - represented f q.x) - S * H ^ 3 := by
  intro U S H r q
  simp only [q, addFinish, jacobian]
  rw [h.represented_ofNat (h.lt_fsub _ _), h.represented_ofNat (h.lt_fsub _ _), h.represented_ofNat (h.lt_montMul _ _)]
  simp only [cast_fscale, cast_montMul, h.cast_fsub, U, S, H, r]
  push_cast
  refine ⟨trivial, trivial, trivial, by ring, by ring, by ring⟩

/-- The numbers H and r of JADD, over R, are the differences of the cross-multiplied coordinates (R208). -/
theorem jacAdd_differences (q q' : Point) :
    let za := q.z.toNat
    let zb := q'.z.toNat
    ((fsub f (montMul f q'.x.toNat (montMul f za za)) (montMul f q.x.toNat (montMul f zb zb)) : Nat) : ZMod f.p) * f.rInv =
      represented f q'.x * represented f q.z ^ 2 - represented f q.x * represented f q'.z ^ 2 ∧
    ((fsub f (montMul f q'.y.toNat (montMul f za (montMul f za za)))
        (montMul f q.y.toNat (montMul f zb (montMul f zb zb))) : Nat) : ZMod f.p) * f.rInv =
      represented f q'.y * represented f q.z ^ 3 - represented f q.y * represented f q'.z ^ 3 := by
  intro za zb
  simp only [cast_montMul, h.cast_fsub, represented, za, zb]
  constructor <;> ring

/-- JADD of two finite points, case by case, in represented coordinates (R208). -/
theorem jacAdd_cases {q q' : Point} (hq : q.inf = false) (hq' : q'.inf = false) :
    let u := represented f q'.x * represented f q.z ^ 2 - represented f q.x * represented f q'.z ^ 2
    let v := represented f q'.y * represented f q.z ^ 3 - represented f q.y * represented f q'.z ^ 3
    (u = 0 → v = 0 → jacAdd f q q' = dbl f q) ∧ (u = 0 → v ≠ 0 → jacAdd f q q' = infPoint false true) ∧
    (u ≠ 0 →
      (jacAdd f q q').inf = false ∧ (jacAdd f q q').aff = false ∧ (jacAdd f q q').mont = true ∧
      represented f (jacAdd f q q').z = represented f q.z * represented f q'.z * u ∧
      represented f (jacAdd f q q').x = v ^ 2 - u ^ 3 - 2 * (represented f q.x * represented f q'.z ^ 2) * u ^ 2 ∧
      represented f (jacAdd f q q').y =
        v * (represented f q.x * represented f q'.z ^ 2 * u ^ 2 - represented f (jacAdd f q q').x) -
          represented f q.y * represented f q'.z ^ 3 * u ^ 3) := by
  intro u v
  obtain ⟨hu, hv⟩ := h.jacAdd_differences q q'
  have e := jacAdd.eq_1 f q q'
  rw [if_neg (by simp [hq]), if_neg (by simp [hq'])] at e
  have hu0 : fsub f (montMul f q'.x.toNat (montMul f q.z.toNat q.z.toNat))
      (montMul f q.x.toNat (montMul f q'.z.toNat q'.z.toNat)) = 0 ↔ u = 0 := by
    rw [← cast_eq_zero (h.lt_fsub _ _), ← h.mul_rInv_eq_zero, hu]
  have hv0 : fsub f (montMul f q'.y.toNat (montMul f q.z.toNat (montMul f q.z.toNat q.z.toNat)))
      (montMul f q.y.toNat (montMul f q'.z.toNat (montMul f q'.z.toNat q'.z.toNat))) = 0 ↔ v = 0 := by
    rw [← cast_eq_zero (h.lt_fsub _ _), ← h.mul_rInv_eq_zero, hv]
  dsimp only at e
  refine ⟨?_, ?_, ?_⟩
  · intro h1 h2
    rw [e, if_pos (hu0.mpr h1), if_pos (hv0.mpr h2)]
  · intro h1 h2
    rw [e, if_pos (hu0.mpr h1), if_neg (mt hv0.mp h2)]
  · intro h1
    rw [if_neg (mt hu0.mp h1)] at e
    rw [e]
    obtain ⟨a1, a2, a3, a4, a5, a6⟩ := h.addFinish_represented (montMul f q.x.toNat (montMul f q'.z.toNat q'.z.toNat))
      (montMul f q.y.toNat (montMul f q'.z.toNat (montMul f q'.z.toNat q'.z.toNat))) (montMul f q.z.toNat q'.z.toNat)
      (fsub f (montMul f q'.x.toNat (montMul f q.z.toNat q.z.toNat))
        (montMul f q.x.toNat (montMul f q'.z.toNat q'.z.toNat)))
      (fsub f (montMul f q'.y.toNat (montMul f q.z.toNat (montMul f q.z.toNat q.z.toNat)))
        (montMul f q.y.toNat (montMul f q'.z.toNat (montMul f q'.z.toNat q'.z.toNat))))
    refine ⟨a1, a2, a3, ?_, ?_, ?_⟩
    · rw [a4, hu, cast_montMul]; simp only [represented, u]; ring
    · rw [a5, hu, hv, cast_montMul, cast_montMul]; simp only [represented, u, v]; ring
    · rw [a6, hu, hv]; simp only [cast_montMul, represented, u, v]; ring

end SoundField

end Sys2Proof.Machine
end

