-- ==== Sys2Proof/Laws/Decode.lean ====
section
/-! SUPPORT. The fields of an encoded word are the fields it was made of (R100, R106), and every command's fields fit. -/

namespace Sys2Proof

/-- Fields that fit their widths (R100). -/
def Fields.Fit (f : Fields) : Prop := f.op < 64 ∧ f.rd < 32 ∧ f.ra < 32 ∧ f.rb < 32 ∧ f.fn < 2048

/-- Reading back the fields of `enc` (R106). -/
theorem fieldsOf_enc (f : Fields) (h : f.Fit) : fieldsOf (enc f) = f := by
  obtain ⟨op, rd, ra, rb, fn⟩ := f
  obtain ⟨h1, h2, h3, h4, h5⟩ := h
  simp only at h1 h2 h3 h4 h5
  simp only [fieldsOf, bits, enc, BitVec.toNat_ofNat, Fields.mk.injEq]
  omega

/-- The fields of every command fit (R100, R103). -/
theorem fieldsFor_fit (i : Instr) : (fieldsFor i).Fit := by
  cases i <;> simp only [fieldsFor, opcode, domainBit, Fields.Fit] <;> (try split) <;> refine ⟨?_, ?_, ?_, ?_, ?_⟩ <;> omega

@[simp] theorem vreg_val (r : VReg) : vreg r.val = r := by ext; exact Nat.mod_eq_of_lt r.isLt

@[simp] theorem preg_val (r : PReg) : preg r.val = .ok r := by simp [preg]

end Sys2Proof
end

