-- ==== Sys2Proof/Laws/Frames.lean ====
section
/-! SUPPORT. The frames of a command's two usual ends: one value register written, or one point register written (R32, R118,
R119), and the shape of the point formulas' results (R201). -/

namespace Sys2Proof.Machine

variable {s : State}

/-- A command that writes one value register and succeeds leaves everything else (R32, R119). -/
theorem wroteOnlyV_setV (rd : VReg) (n : Nat) : WroteOnlyV s (s.setV rd n).completeOk (fun r => r = rd) := by
  refine ⟨?_, rfl, ⟨rfl, rfl, rfl⟩, rfl, ⟨rfl, rfl, rfl, rfl, rfl, rfl, rfl, rfl⟩, rfl, rfl, rfl, rfl⟩
  intro i h
  rw [State.completeOk_getV, State.getV_setV_ne _ _ _ _ h]

/-- A command that writes one point register and succeeds leaves everything else (R119). -/
theorem wroteOnlyPT_setPT (rd : PReg) (p : Point) : WroteOnlyPT s (s.setPT rd p).completeOk (fun r => r = rd) := by
  refine ⟨rfl, ?_, ⟨rfl, rfl, rfl⟩, rfl, ⟨rfl, rfl, rfl, rfl, rfl, rfl, rfl, rfl⟩, rfl, rfl, rfl, rfl⟩
  intro i h
  rw [State.completeOk_getPT, State.getPT_setPT, if_neg (Ne.symm h)]

/-- The written point register, read after completion. -/
theorem completeOk_setPT_getPT (rd : PReg) (p : Point) : (s.setPT rd p).completeOk.getPT rd = p := by
  rw [State.completeOk_getPT, State.getPT_setPT, if_pos rfl]

/-- A number below the modulus, written and read after completion. -/
theorem completeOk_setV_valV (rd : VReg) (n : Nat) (h : n < s.modulus) : (s.setV rd n).completeOk.valV rd = n := by
  rw [State.completeOk_valV, State.valV_setV_self _ _ _ (h.trans s.ctx.m.isLt)]

/-- The numbers of a state with a sound context (R170). -/
theorem State.soundField (hv : s.ctx.valid = true) (hs : s.ctx.Sound) :
    SoundField s.field (radix s.ctx.s.toNat) := hs.field hv s.azero

/-! ### The flags of the formulas' results -/

theorem dbl_flags (f : FieldCtx) (q : Point) : (dbl f q).aff = false ∧ (dbl f q).mont = true := by
  unfold dbl
  split <;> exact ⟨rfl, rfl⟩

theorem toJ_flags (f : FieldCtx) (a : Point) : (toJ f a).aff = false ∧ (toJ f a).mont = a.mont := by
  unfold toJ
  split <;> exact ⟨rfl, rfl⟩

theorem mixedAdd_flags (f : FieldCtx) {q a : Point} (h : q.aff = false) (h' : q.mont = true) (ha : a.mont = true) :
    (mixedAdd f q a).aff = false ∧ (mixedAdd f q a).mont = true := by
  unfold mixedAdd
  split
  · exact ⟨(toJ_flags f a).1, (toJ_flags f a).2.trans ha⟩
  split
  · exact ⟨h, h'⟩
  dsimp only
  split
  · split
    exacts [dbl_flags f q, ⟨rfl, rfl⟩]
  · exact ⟨rfl, rfl⟩

theorem jacAdd_flags (f : FieldCtx) {q a : Point} (h : q.aff = false) (h' : q.mont = true) (ha : a.aff = false)
    (ha' : a.mont = true) : (jacAdd f q a).aff = false ∧ (jacAdd f q a).mont = true := by
  unfold jacAdd
  split
  · exact ⟨ha, ha'⟩
  split
  · exact ⟨h, h'⟩
  dsimp only
  split
  · split
    exacts [dbl_flags f q, ⟨rfl, rfl⟩]
  · exact ⟨rfl, rfl⟩

theorem mixedDoubleAdd_flags (f : FieldCtx) {q a : Point} (h : q.aff = false) (h' : q.mont = true) (ha : a.mont = true) :
    (mixedDoubleAdd f q a).aff = false ∧ (mixedDoubleAdd f q a).mont = true := by
  unfold mixedDoubleAdd
  have m := mixedAdd_flags f h h' ha
  split
  · exact ⟨(toJ_flags f a).1, (toJ_flags f a).2.trans ha⟩
  split
  exacts [dbl_flags f q, jacAdd_flags f m.1 m.2 h h']

theorem canonical_flags (p : Point) :
    p.canonical.inf = p.inf ∧ p.canonical.aff = p.aff ∧ p.canonical.mont = p.mont := by
  unfold Point.canonical
  split
  · exact ⟨rfl, rfl, rfl⟩
  · split <;> exact ⟨rfl, rfl, rfl⟩

/-- The range check of R202 on a finite operand. -/
theorem Point.inRange_finite {p : Point} {m : Nat} (hi : p.inf = false) (h : p.inRange m = true) :
    p.x.toNat < m ∧ p.y.toNat < m ∧ (p.aff = false → p.z.toNat < m) := by
  simp only [Point.inRange, hi, Bool.false_or, Bool.or_eq_true, Bool.and_eq_true, decide_eq_true_eq] at h
  refine ⟨h.1.1, h.1.2, fun ha => ?_⟩
  rcases h.2 with h | h
  · rw [ha] at h; cases h
  · exact h

end Sys2Proof.Machine
end

