-- ==== Sys2Proof/Laws/Montgomery.lean ====
section
/-! SUPPORT. The fixed-window exponentiation computes the modular power (R178, R179). -/

namespace Sys2Proof.Machine

namespace SoundField

variable {f : FieldCtx} {R : Nat} (h : SoundField f R)
include h

/-- One window: two squarings and a multiplication by the window's entry, in Montgomery form (R178). -/
theorem window_step {b : ZMod f.p} {acc ent k d : Nat} (ha : (acc : ZMod f.p) = b ^ k * R)
    (he : (ent : ZMod f.p) = b ^ d * R) :
    (montMul f (montMul f (montMul f acc acc) (montMul f acc acc)) ent : ZMod f.p) = b ^ (4 * k + d) * R := by
  have hR := h.cast_R_mul_rInv
  have hpow : b ^ (4 * k + d) = (b ^ k) ^ 4 * b ^ d := by rw [pow_add, ← pow_mul, Nat.mul_comm k 4]
  simp only [cast_montMul, ha, he, hpow]
  generalize b ^ k = B
  generalize b ^ d = D
  calc _ = B ^ 4 * D * R * (R * f.rInv) ^ 4 := by ring
    _ = B ^ 4 * D * R := by rw [hR]; ring

/-- The window loop from an accumulator b^k: it appends the windows below `i` of the exponent (R178). -/
theorem cast_mexpLoop (b : ZMod f.p) (e : Nat) (tab : Nat × Nat × Nat × Nat) (h0 : (tab.1 : ZMod f.p) = b ^ 0 * R)
    (h1 : (tab.2.1 : ZMod f.p) = b ^ 1 * R) (h2 : (tab.2.2.1 : ZMod f.p) = b ^ 2 * R)
    (h3 : (tab.2.2.2 : ZMod f.p) = b ^ 3 * R) :
    ∀ i acc k : Nat, (acc : ZMod f.p) = b ^ k * R →
      (mexpLoop f tab e i acc : ZMod f.p) = b ^ (k * 4 ^ i + e % 4 ^ i) * R := by
  intro i
  induction i with
  | zero => intro acc k ha; simpa [mexpLoop, Nat.mod_one] using ha
  | succ n ih =>
    intro acc k ha
    have hd : e % 4 ^ (n + 1) = e % 4 ^ n + 4 ^ n * (e / 4 ^ n % 4) := Nat.mod_pow_succ
    have hlt : e / 4 ^ n % 4 < 4 := Nat.mod_lt _ (by decide)
    rw [mexpLoop, ih _ (4 * k + e / 4 ^ n % 4) (h.window_step ha ?_)]
    · congr 2
      rw [hd, pow_succ]; ring
    · have hcases : e / 4 ^ n % 4 = 0 ∨ e / 4 ^ n % 4 = 1 ∨ e / 4 ^ n % 4 = 2 ∨ e / 4 ^ n % 4 = 3 := by omega
      rcases hcases with hh | hh | hh | hh <;> rw [hh]
      exacts [h0, h1, h2, h3]

/-- The exponentiation of R178 is the modular power. -/
theorem mexp_eq (b e : Nat) : mexp f b e = b ^ e % f.p := by
  have hR := h.cast_R_mul_rInv
  apply eq_of_cast (h.lt_montMul _ _) (Nat.mod_lt _ h.p_pos)
  have hb : (montMul f b f.r2 : ZMod f.p) = (b : ZMod f.p) ^ 1 * R := by
    rw [cast_montMul, h.cast_r2]; linear_combination (b : ZMod f.p) * R * hR
  have hb2 : (montMul f (montMul f b f.r2) (montMul f b f.r2) : ZMod f.p) = (b : ZMod f.p) ^ 2 * R := by
    rw [cast_montMul, hb]; linear_combination (b : ZMod f.p) ^ 2 * R * hR
  have hb3 : (montMul f (montMul f (montMul f b f.r2) (montMul f b f.r2)) (montMul f b f.r2) : ZMod f.p) =
      (b : ZMod f.p) ^ 3 * R := by
    rw [cast_montMul, hb2, hb]; linear_combination (b : ZMod f.p) ^ 3 * R * hR
  have hone : (f.r1 : ZMod f.p) = (b : ZMod f.p) ^ 0 * R := by rw [h.cast_r1]; ring
  have hfit : e % 4 ^ ((bitLen e + 1) / 2) = e := by
    apply Nat.mod_eq_of_lt
    calc e < 2 ^ bitLen e := lt_two_pow_bitLen e
      _ ≤ 2 ^ (2 * ((bitLen e + 1) / 2)) := Nat.pow_le_pow_right (by decide) (by omega)
      _ = 4 ^ ((bitLen e + 1) / 2) := by rw [pow_mul]; norm_num
  rw [cast_montMul, h.cast_mexpLoop b e _ hone hb hb2 hb3 _ _ 0 hone, hfit]
  push_cast
  rw [ZMod.natCast_mod]
  push_cast
  linear_combination (b : ZMod f.p) ^ e * hR

end SoundField

end Sys2Proof.Machine
end

