-- ==== Sys2Proof/Laws/PerInstr.lean ====
section
/-! SUPPORT. A fact about every command as syntax, one lemma for each constructor: the opcode field of its word is the opcode
that R103 gives it. -/

namespace Sys2Proof.Laws.OpcodeField

/-- The OP field of the command's word is its opcode (R100, R103). -/
def Statement (i : Instr) : Prop := (fieldsOf (encode i)).op = opcode i

theorem of_fields (i : Instr) (h : (fieldsFor i).op = opcode i) : Statement i := by
  rw [Statement, encode, fieldsOf_enc _ (fieldsFor_fit i), h]

theorem nop : Statement .nop := of_fields _ rfl
theorem mov (rd ra : VReg) : Statement (.mov rd ra) := of_fields _ rfl
theorem madd (rd ra rb : VReg) : Statement (.madd rd ra rb) := of_fields _ rfl
theorem msub (rd ra rb : VReg) : Statement (.msub rd ra rb) := of_fields _ rfl
theorem mred (rd ra : VReg) : Statement (.mred rd ra) := of_fields _ rfl
theorem minv (rd ra rb : VReg) : Statement (.minv rd ra rb) := of_fields _ rfl
theorem binv (rd ra : VReg) (n1 : Fin 32) (mont : Bool) : Statement (.binv rd ra n1 mont) := of_fields _ rfl
theorem mctx (ra : VReg) : Statement (.mctx ra) := of_fields _ rfl
theorem mmul (rd ra rb : VReg) : Statement (.mmul rd ra rb) := of_fields _ rfl
theorem mtom (rd ra : VReg) : Statement (.mtom rd ra) := of_fields _ rfl
theorem mfrom (rd ra : VReg) : Statement (.mfrom rd ra) := of_fields _ rfl
theorem mexp (rd ra rb : VReg) : Statement (.mexp rd ra rb) := of_fields _ rfl
theorem pmov (rd ra : PReg) : Statement (.pmov rd ra) := of_fields _ rfl
theorem pdbl (rd ra : PReg) : Statement (.pdbl rd ra) := of_fields _ rfl
theorem pmadd (rd ra rb : PReg) : Statement (.pmadd rd ra rb) := of_fields _ rfl
theorem pmdadd (rd ra rb : PReg) : Statement (.pmdadd rd ra rb) := of_fields _ rfl
theorem pneg (rd ra : PReg) : Statement (.pneg rd ra) := of_fields _ rfl
theorem ptoj (rd ra : PReg) : Statement (.ptoj rd ra) := of_fields _ rfl
theorem ptoa (rd ra : PReg) : Statement (.ptoa rd ra) := of_fields _ rfl
theorem ptom (rd ra : PReg) : Statement (.ptom rd ra) := of_fields _ rfl
theorem pfrom (rd ra : PReg) : Statement (.pfrom rd ra) := of_fields _ rfl
theorem naf (ra : VReg) (w : Fin 16) : Statement (.naf ra w) := of_fields _ rfl
theorem ptab (ra : PReg) (w : Fin 16) : Statement (.ptab ra w) := of_fields _ rfl
theorem smul (rd ra : PReg) (rb : VReg) (mont : Bool) : Statement (.smul rd ra rb mont) := of_fields _ rfl

end Sys2Proof.Laws.OpcodeField
end

