-- ==== Sys2Proof/Laws/Scalar.lean ====
section
/-! SUPPORT. What the table builder and the scan do (R265, R272): the chain's entries, toA over a list, and the scan as a fold. -/

namespace Sys2Proof.Machine

variable {f : FieldCtx}

/-! ### The table (R265) -/

@[simp] theorem oddChain_length (f : FieldCtx) (d : Point) (n : Nat) (j : Point) : (oddChain f d n j).length = n := by
  induction n generalizing j with
  | zero => rfl
  | succ n ih => simp [oddChain, ih]

/-- The chain is J, J + D, J + 2D, …, with JADD. -/
theorem oddChain_getElem? (f : FieldCtx) (d : Point) (n : Nat) (j : Point) {i : Nat} (h : i < n) :
    (oddChain f d n j)[i]? = some ((fun q => jacAdd f q d)^[i] j) := by
  induction n generalizing i j with
  | zero => omega
  | succ n ih =>
    cases i with
    | zero => rfl
    | succ i => exact ih (jacAdd f j d) (by omega)

/-- `toA` has no result exactly for a finite point whose Z has no inverse (R211). -/
theorem toA_eq_none (f : FieldCtx) (q : Point) : toA f q = none ↔ ¬ (q.inf = true ∨ Nat.gcd q.z.toNat f.p = 1) := by
  unfold toA
  split
  · simp_all
  · split <;> simp_all

theorem toA_inf {q : Point} (h : q.inf = true) : toA f q = some (infPoint true q.mont) := if_pos h

theorem toAAll_cons (f : FieldCtx) (q : Point) (qs : List Point) :
    toAAll f (q :: qs) = (toA f q).bind fun p => (toAAll f qs).map (p :: ·) := by
  rw [toAAll]
  cases toA f q <;> cases toAAll f qs <;> rfl

/-- `toAAll` has no result exactly when some point has none. -/
theorem toAAll_eq_none (f : FieldCtx) (js : List Point) :
    toAAll f js = none ↔ ∃ q ∈ js, toA f q = none := by
  induction js with
  | nil => simp [toAAll]
  | cons q qs ih =>
    rw [toAAll_cons, List.exists_mem_cons_iff, ← ih]
    cases toA f q <;> cases toAAll f qs <;> simp

/-- A result of `toAAll` is, entry by entry, that of `toA`. -/
theorem toAAll_getElem? {js ts : List Point} (h : toAAll f js = some ts) (i : Nat) : ts[i]? = js[i]?.bind (toA f) := by
  induction js generalizing ts i with
  | nil => cases h; rfl
  | cons q qs ih =>
    rw [toAAll_cons] at h
    cases hp : toA f q with
    | none => simp [hp] at h
    | some p =>
      cases hps : toAAll f qs with
      | none => simp [hp, hps] at h
      | some ps =>
        simp only [hp, hps, Option.bind_some, Option.map_some, Option.some.injEq] at h
        subst h
        cases i with
        | zero => exact hp.symm
        | succ i => exact ih hps i

/-! ### The scan (R272) -/

/-- The scan folds its round over the digits, from the last to the first. -/
theorem scan_eq_foldr (f : FieldCtx) (t : List Point) (ds : List Int) :
    scan f t ds = ds.foldr (scanStep f t) (infPoint false true) := by
  induction ds with
  | nil => rfl
  | cons d ds ih => rw [List.foldr_cons, ← ih]; rfl

end Sys2Proof.Machine
end

