-- ==== Sys2Proof/Tests/Slice0.lean ====
section
/-! SUPPORT. The model's own tests: WellFormed refuses what it should, decode reads the words of 95_test_vectors.md, each command
gives a vector of that file in one step, and every statement with hypotheses has a witness that meets them. Every expected value
is the spec's. -/

namespace Sys2Proof.Tests

open Sys2Proof.Machine

-- One theorem after the other: a hundred at once would each hold a thread while they wait for the kernel.
set_option Elab.async false

/-! ## WellFormed -/

theorem test_wellFormed_binv_whole_file : WellFormed (.binv 0 0 31 true) = true := by decide
theorem test_wellFormed_refuses_binv_source_past_v31 : WellFormed (.binv 0 30 2 false) = false := by decide
theorem test_wellFormed_refuses_binv_destination_past_v31 : WellFormed (.binv 30 0 2 false) = false := by decide

/-! ## Decode: the words of L2.1 -/

theorem test_decode_basic :
    decode 0x00000000 = .ok .nop ∧ decode 0x04410000 = .ok (.mov 2 1) ∧ decode 0x08611000 = .ok (.madd 3 1 2) ∧
      decode 0x0C611000 = .ok (.msub 3 1 2) ∧ decode 0x10610000 = .ok (.mred 3 1) := by decide +kernel

theorem test_decode_inverse :
    decode 0x20611000 = .ok (.minv 3 1 2) ∧ decode 0x24800002 = .ok (.binv 4 0 2 false) ∧
      decode 0x24800022 = .ok (.binv 4 0 2 true) := by decide +kernel

theorem test_decode_montgomery :
    decode 0x401F0000 = .ok (.mctx 31) ∧ decode 0x44611000 = .ok (.mmul 3 1 2) ∧ decode 0x48610000 = .ok (.mtom 3 1) ∧
      decode 0x4C610000 = .ok (.mfrom 3 1) ∧ decode 0x50611000 = .ok (.mexp 3 1 2) := by decide +kernel

theorem test_decode_point :
    decode 0x80200000 = .ok (.pmov 1 0) ∧ decode 0x84200000 = .ok (.pdbl 1 0) ∧ decode 0x88410000 = .ok (.pmadd 2 1 0) ∧
      decode 0x8C410000 = .ok (.pmdadd 2 1 0) ∧ decode 0x90200000 = .ok (.pneg 1 0) ∧
      decode 0x94200000 = .ok (.ptoj 1 0) ∧ decode 0x98200000 = .ok (.ptoa 1 0) ∧ decode 0x9C200000 = .ok (.ptom 1 0) ∧
      decode 0xA0200000 = .ok (.pfrom 1 0) := by decide +kernel

theorem test_decode_scalar :
    decode 0xC0010005 = .ok (.naf 1 5) ∧ decode 0xC4000003 = .ok (.ptab 0 3) ∧
      decode 0xC8201000 = .ok (.smul 1 0 2 false) ∧ decode 0xC8201020 = .ok (.smul 1 0 2 true) := by decide +kernel

theorem test_decode_illegal :
    decode 0x00000001 = .error .illegal ∧ decode 0x04A11000 = .error .illegal ∧ decode 0x40200000 = .error .illegal ∧
      decode 0x24800040 = .error .illegal ∧ decode 0xC0010010 = .error .illegal ∧ decode 0xC8201001 = .error .illegal ∧
      decode 0x81000001 = .error .illegal := by decide +kernel

theorem test_decode_operand :
    decode 0x81000000 = .error .operand ∧ decode 0x88224800 = .error .operand ∧ decode 0xC4080005 = .error .operand ∧
      decode 0x241E0002 = .error .operand ∧ decode 0x27A00002 = .ok (.binv 29 0 2 false) ∧
      decode 0x2400003F = .ok (.binv 0 0 31 true) := by decide +kernel

/-! ## One command each: the vectors of L2.3–L2.8 -/

/-- The reset state with value registers loaded. -/
def withV (vs : List (VReg × Nat)) : State := vs.foldl (fun s p => s.setV p.1 p.2) State.reset

/-- The same with a context for the modulus `m`. -/
def withCtx (m : Nat) (vs : List (VReg × Nat)) : State := (withV vs).setCtx (contextFor (BitVec.ofNat 4096 m))

/-- Curve T1 (p = 101, a = −3, n = 109 in V30) with point registers loaded from PT0 on. -/
def onT1 (ps : List Point) (vs : List (VReg × Nat)) : State :=
  (List.zip [(0 : PReg), 1, 2, 3] ps).foldl (fun s p => s.setPT p.1 p.2) (((withCtx 101 ((30, 109) :: vs))).setCurve 0x1E00)

/-- The state one step after the command word `w` is placed. -/
def after (w : Nat) (s : State) : Option State :=
  match step (s.withFetchWord 32 w) with
  | .next t => some t
  | .fault _ => none
  | .refused _ => none

/-- A value register and STATUS after the command `w`. -/
def valueAfter (w : Nat) (s : State) (i : VReg) : Option (Nat × Word) :=
  (after w s).map fun t => (t.valV i, t.readLoc .status)

/-- A point register and STATUS after the command `w`. -/
def pointAfter (w : Nat) (s : State) (i : PReg) : Option (Point × Word) :=
  (after w s).map fun t => (t.getPT i, t.readLoc .status)

theorem test_nop_raises_done : valueAfter 0x00000000 (withV [(1, 7)]) 1 = some (7, 2) := by decide +kernel

theorem test_mov_copies_all_digits : valueAfter 0x04410000 (withV [(1, 2 ^ 4095 + 0x1234)]) 2 = some (2 ^ 4095 + 0x1234, 2) := by
  decide +kernel

theorem test_madd_wraps : valueAfter 0x08611000 (withCtx 101 [(1, 100), (2, 5)]) 3 = some (4, 2) := by decide +kernel
theorem test_madd_out_of_range : valueAfter 0x08611000 (withCtx 101 [(1, 101), (2, 0), (3, 0xDEAD)]) 3 = some (0xDEAD, 0x506) := by
  decide +kernel

theorem test_msub_wraps : valueAfter 0x0C611000 (withCtx 101 [(1, 3), (2, 5)]) 3 = some (99, 2) := by decide +kernel
theorem test_msub_equal : valueAfter 0x0C611000 (withCtx 101 [(1, 5), (2, 5)]) 3 = some (0, 2) := by decide +kernel

theorem test_mred_top_digit : valueAfter 0x10610000 (withCtx 101 [(1, 2 ^ 4095)]) 3 = some (60, 2) := by decide +kernel
theorem test_mred_no_context : valueAfter 0x10610000 (withV [(1, 1000)]) 3 = some (0, 0x306) := by decide +kernel

theorem test_minv_even_modulus : valueAfter 0x20611000 (withV [(1, 17), (2, 3120)]) 3 = some (2753, 2) := by decide +kernel
theorem test_minv_no_inverse : valueAfter 0x20611000 (withV [(1, 6), (2, 9), (3, 0xDEAD)]) 3 = some (0xDEAD, 0x806) := by
  decide +kernel

theorem test_binv_overlapping :
    (after 0x24200002 (withCtx 101 [(0, 2), (1, 3), (2, 4)])).map (fun t => [t.valV 0, t.valV 1, t.valV 2, t.valV 3]) =
      some [2, 51, 34, 76] := by decide +kernel
theorem test_binv_montgomery :
    (after 0x24800022 (withCtx 101 [(0, 2), (1, 3), (2, 4)])).map (fun t => [t.valV 4, t.valV 5, t.valV 6]) =
      some [0x5A, 0x3C, 0x2D] := by decide +kernel

theorem test_mctx_two_digits :
    (after 0x401F0000 (withV [(31, 2 ^ 61 - 1)])).map
        (fun t => [t.ctx.s.toNat, t.ctx.mp.toNat, t.ctx.r1.toNat, t.ctx.r2.toNat, t.ctx.r3.toNat]) =
      some [2, 1, 0x8, 0x40, 0x200] := by decide +kernel
theorem test_mctx_even : (after 0x401F0000 (withV [(31, 100)])).map (fun t => (t.ctx.valid, t.readLoc .status)) =
    some (false, 0x606) := by decide +kernel

theorem test_mmul_two_digits :
    valueAfter 0x44611000 (withCtx (2 ^ 61 - 1) [(1, 0x1000000000000003), (2, 0x080000000000000B)]) 3 =
      some (0x1D80000000000004, 2) := by decide +kernel
theorem test_mmul_in_place : valueAfter 0x44210800 (withCtx 101 [(1, 5)]) 1 = some (0x58, 2) := by decide +kernel

theorem test_mtom : valueAfter 0x48610000 (withCtx 101 [(1, 100)]) 3 = some (0x21, 2) := by decide +kernel
theorem test_mfrom : valueAfter 0x4C610000 (withCtx 101 [(1, 5)]) 3 = some (0x3A, 2) := by decide +kernel

theorem test_mexp : valueAfter 0x50611000 (withCtx 497 [(1, 4), (2, 13)]) 3 = some (445, 2) := by decide +kernel
theorem test_mexp_zero_to_zero : valueAfter 0x50611000 (withCtx 497 [(1, 0), (2, 0)]) 3 = some (1, 2) := by decide +kernel

/-- T1's G in affine Montgomery form, and in Jacobian Montgomery form (L2.7). -/
def gM : Point := affine true 0 0x1A
def gJ : Point := jacobian true 0 0x1A 0x44

theorem test_pmov_verbatim :
    pointAfter 0x80200000 ((withV []).setPT 0 ⟨5, 0, 0, true, true, true⟩) 1 = some (⟨5, 0, 0, true, true, true⟩, 2) := by
  decide +kernel
theorem test_pdbl : pointAfter 0x84200000 (onT1 [gJ] []) 1 = some (jacobian true 6 0x1C 0x34, 2) := by decide +kernel
theorem test_pdbl_affine : pointAfter 0x84200000 (onT1 [gM] []) 1 = some (Point.zero, 0x406) := by decide +kernel
theorem test_pmadd : pointAfter 0x88410000 (onT1 [gM, jacobian true 6 0x1C 0x34] []) 2 =
    some (jacobian true 0x40 0x5F 0x25, 2) := by decide +kernel
theorem test_pmadd_inverse_points : pointAfter 0x88410000 (onT1 [affine true 0 0x4B, gJ] []) 2 =
    some (infPoint false true, 2) := by decide +kernel
theorem test_pmdadd : pointAfter 0x8C410000 (onT1 [gM, gJ] []) 2 = some (jacobian true 0x40 0x5F 0x25, 2) := by decide +kernel
theorem test_pmdadd_infinite_affine : pointAfter 0x8C410000 (onT1 [infPoint true true, gJ] []) 2 =
    some (jacobian true 6 0x1C 0x34, 2) := by decide +kernel
theorem test_pneg : pointAfter 0x90200000 (onT1 [gM] []) 1 = some (affine true 0 0x4B, 2) := by decide +kernel
theorem test_pneg_out_of_range : pointAfter 0x90200000 (onT1 [affine true 101 0] []) 1 = some (Point.zero, 0x506) := by
  decide +kernel
theorem test_ptoj : pointAfter 0x94200000 (onT1 [affine false 0 39] []) 1 = some (jacobian false 0 39 1, 2) := by
  decide +kernel
theorem test_ptoa : pointAfter 0x98200000 (onT1 [jacobian true 6 0x1C 0x34] []) 1 = some (affine true 0x4C 8, 2) := by
  decide +kernel
theorem test_ptom : pointAfter 0x9C200000 (onT1 [affine false 0 39] []) 1 = some (gM, 2) := by decide +kernel
theorem test_pfrom : pointAfter 0xA0200000 (onT1 [affine true 0x4C 8] []) 1 = some (affine false 13 12, 2) := by
  decide +kernel

theorem test_naf_negative_digit :
    (after 0xC0010005 (withV [(1, 0x1234567)])).map (fun t => (t.nafLen, t.getNaf 10, t.getNaf 21, t.getNaf 22)) =
      some (22, 0xFFFFFFF1, 9, 0) := by decide +kernel
theorem test_naf_width : (after 0xC0010007 (withV [(1, 5)])).map (fun t => (t.nafLen, t.readLoc .status)) =
    some (0, 0x706) := by decide +kernel

theorem test_ptab :
    (after 0xC4000005 (onT1 [gM] [])).map (fun t => [t.getTbl 1, t.getTbl 7, t.getTbl 8]) =
      some [⟨0x2F, 0x19, false, true, true⟩, ⟨0x36, 0x0B, false, true, true⟩, TblEntry.zero] := by decide +kernel
theorem test_ptab_order_two :
    (after 0xC4000003 ((withCtx 23 []).setPT 0 (affine true (13 * 2 ^ 32 % 23) 0))).map (fun t => t.readLoc .status) =
      some 0x806 := by decide +kernel

theorem test_smul :
    (after 0xC8201000 (onT1 [affine false 0 39] [(2, 108)])).map (fun t => (t.getPT 1, t.nafLen, t.getNaf 2, t.readLoc .status)) =
      some (affine false 0 62, 8, 0xFFFFFFFB, 2) := by decide +kernel
theorem test_smul_order : pointAfter 0xC8201000 (onT1 [affine false 0 39] [(2, 109)]) 1 = some (Point.zero, 0x506) := by
  decide +kernel

/-! ## The bus and the life of a command: the vectors of L2.2 -/

/-- A four-byte read, and a four-byte write. -/
def ld32 (a : Nat) : Event := .bus { kind := .read, addr := BitVec.ofNat 17 a, size := .four, wdata := 0 }
def st32 (a w : Nat) : Event :=
  .bus { kind := .write, addr := BitVec.ofNat 17 a, size := .four, wdata := BitVec.ofNat 32 w }

/-- A state with its next events. -/
def next (es : List Event) (s : State) : State := { s with schedule := es }

/-- What is left of a run of `n` steps. -/
def ran (n : Nat) (s : State) : Option State :=
  match stepsFrom n s with
  | .next t => some t
  | .fault _ => none
  | .refused _ => none

theorem test_read_id : (ran 1 (next [ld32 0] State.reset)).map State.response = some (.okayRead 0x4D4D4331) := by decide +kernel
theorem test_read_hwcfg : (ran 1 (next [ld32 4] State.reset)).map State.response = some (.okayRead 0x08200080) := by
  decide +kernel
theorem test_reserved_offset : (ran 1 (next [ld32 0x5604] State.reset)).map State.response = some .error := by decide +kernel
theorem test_write_read_only : (ran 1 (next [st32 0x18000 1] State.reset)).map State.response = some .error := by
  decide +kernel
theorem test_flags_write : (ran 2 (next [st32 0x5600 0xFFFFFFFF, ld32 0x5600] State.reset)).map State.response =
    some (.okayRead 7) := by decide +kernel
theorem test_curve_write : (ran 2 (next [st32 0x14 0xFFFFFFFF, ld32 0x14] State.reset)).map State.response =
    some (.okayRead 0x1F01) := by decide +kernel
theorem test_busy_cmd_write_sets_haz :
    (ran 3 (next [st32 0x10 0, st32 0x10 0, ld32 0xC] State.reset)).map State.response = some (.okayRead 9) := by decide +kernel
theorem test_soft_reset_abandons :
    (ran 3 (next [st32 0x10 0, st32 0x8 3, ld32 0xC] (withCtx 101 []))).map (fun t => (t.response, t.inFlight, t.ctx.valid)) =
      some (.okayRead 0, none, false) := by decide +kernel
theorem test_cios_final_subtraction : cios 0xFFFFFFFB 1 0xCCCCCCCD 0xFFFFFFFA 0xFFFFFFFA = 0xCCCCCCC9 := by decide +kernel

/-! ## Witnesses: for each statement with hypotheses, states and operands that meet them, at the ends of their ranges -/

theorem witness_EncodingFunctionAndExamples :
    let f : Fields := ⟨63, 31, 31, 31, 2047⟩
    f.op < 64 ∧ f.rd < 32 ∧ f.ra < 32 ∧ f.rb < 32 ∧ f.fn < 2048 := by decide

theorem witness_DecodeAndEncodeAgree :
    WellFormed (.binv 0 0 31 true) = true ∧ decode 0x2400003F = .ok (.binv 0 0 31 true) := by decide +kernel

theorem witness_DecodeFollowsTheOpcodeMap :
    let pmov : Row := ⟨"PMOV", 0x80000000, 0xFC00FFFF⟩
    let binv : Row := ⟨"BINV", 0x24000000, 0xFC00FFC0⟩
    (∀ r ∈ opcodeMap, r.admits 0xFFFFFFFF = false) ∧ pmov ∈ opcodeMap ∧ binv ∈ opcodeMap ∧
      (pmov.admits 0x81000000 = true ∧ operandFault (fieldsOf 0x81000000) = true) ∧
      (pmov.admits 0x80E70000 = true ∧ operandFault (fieldsOf 0x80E70000) = false) ∧
      (binv.admits 0x241E0002 = true ∧ operandFault (fieldsOf 0x241E0002) = true) ∧
      (binv.admits 0x241E0001 = true ∧ operandFault (fieldsOf 0x241E0001) = false) := by decide +kernel

theorem witness_UndefinedEncodingsRaiseIllegal :
    [0x14000000, 0x1C000000, 0x28000000, 0x3C000000, 0x54000000, 0x7C000000, 0xA4000000, 0xBC000000, 0xCC000000,
        0xFC000000].map (fun w : Word => bits w 26 6) = [0x05, 0x07, 0x0A, 0x0F, 0x15, 0x1F, 0x29, 0x2F, 0x33, 0x3F] ∧
      decode 0x00000001 = .error .illegal := by decide +kernel

theorem witness_StepRunsTheCommandInFlight :
    let s := next [.completes] (State.reset.issue 0)
    let u := State.reset.issue 0
    let e := next [.completes] (State.reset.issue 1)
    let f := State.reset.issue 1
    (s.rstN = true ∧ s.inFlight = some 0 ∧ s.schedule = .completes :: [] ∧ decode 0 = .ok .nop) ∧
      (u.rstN = true ∧ u.inFlight = some 0 ∧ u.schedule = []) ∧
      (e.rstN = true ∧ e.inFlight = some 1 ∧ e.schedule = .completes :: [] ∧ decode 1 = .error .illegal) ∧
      (f.rstN = true ∧ f.inFlight = some 1 ∧ f.schedule = []) := by
  decide +kernel

theorem witness_CmdWriteIssuesWhileIdle :
    let s := next [st32 0x10 0x44611000] State.reset
    s.rstN = true ∧ s.busy = false ∧
      s.schedule = .bus { kind := .write, addr := 0x10, size := .four, wdata := 0x44611000 } :: [] := by decide +kernel

/-- Operands at the ends of their range below, and at, the modulus 101; and no context at all. -/
def small : State := withCtx 101 [(1, 100), (2, 100)]
def large : State := withCtx 101 [(1, 101), (2, 100)]
def large' : State := withCtx 101 [(1, 100), (2, 101)]
def bare : State := withV [(1, 100), (2, 100)]

theorem witness_MaddAddsModulo :
    bare.ctx.valid = false ∧ (large.ctx.valid = true ∧ large.modulus ≤ large.valV 1) ∧
      (large'.ctx.valid = true ∧ large'.modulus ≤ large'.valV 2) ∧
      (small.ctx.valid = true ∧ small.valV 1 < small.modulus ∧ small.valV 2 < small.modulus) := by decide +kernel

theorem witness_MsubSubtractsModulo :
    bare.ctx.valid = false ∧ (large.ctx.valid = true ∧ large.modulus ≤ large.valV 1) ∧
      (large'.ctx.valid = true ∧ large'.modulus ≤ large'.valV 2) ∧
      (small.ctx.valid = true ∧ small.valV 1 < small.modulus ∧ small.valV 2 < small.modulus) := by decide +kernel

theorem witness_MredReducesAnyValue : bare.ctx.valid = false ∧ large.ctx.valid = true := by decide +kernel

theorem witness_MinvGivesTheInverse :
    (withV [(2, 1)]).valV 2 < 2 ∧
      (2 ≤ (withV [(1, 6), (2, 9)]).valV 2 ∧
        Nat.gcd ((withV [(1, 6), (2, 9)]).valV 1) ((withV [(1, 6), (2, 9)]).valV 2) ≠ 1) ∧
      (2 ≤ (withV [(1, 3), (2, 2)]).valV 2 ∧
        Nat.gcd ((withV [(1, 3), (2, 2)]).valV 1) ((withV [(1, 3), (2, 2)]).valV 2) = 1) := by decide +kernel

/-- The values of a batch at V29, V30, V31. -/
def batch (a b c : Nat) : State := withCtx 101 [(29, a), (30, b), (31, c)]

theorem witness_BinvInvertsEveryInput :
    WellFormed (.binv 0 30 2 true) = false ∧ (WellFormed (.binv 0 29 2 true) = true ∧ bare.ctx.valid = false) ∧
      ((batch 2 3 101).ctx.valid = true ∧ (batch 2 3 101).modulus ≤ (batch 2 3 101).valV (regPlus 29 2)) ∧
      ((batch 0 3 4).ctx.valid = true ∧
        (∀ k ≤ (2 : Fin 32).val, (batch 0 3 4).valV (regPlus 29 k) < (batch 0 3 4).modulus) ∧
        Nat.gcd ((batch 0 3 4).valV (regPlus 29 0)) (batch 0 3 4).modulus ≠ 1) ∧
      ((batch 1 3 100).ctx.valid = true ∧ (batch 1 3 100).ctx.Sound ∧
        ∀ k ≤ (2 : Fin 32).val, (batch 1 3 100).valV (regPlus 29 k) < (batch 1 3 100).modulus ∧
          Nat.gcd ((batch 1 3 100).valV (regPlus 29 k)) (batch 1 3 100).modulus = 1) := by decide +kernel

/-- The context of T1's field. -/
def ctx101 : Ctx := contextFor 101

theorem witness_BatchedInversionGivesTheInverses :
    ctx101.valid = true ∧ ctx101.Sound ∧ (∀ x ∈ [1, 3, 100], x < ctx101.m.toNat ∧ Nat.gcd x ctx101.m.toNat = 1) ∧
      (∀ x ∈ [2, 0], x < ctx101.m.toNat) ∧ Nat.gcd 0 ctx101.m.toNat ≠ 1 := by decide +kernel

theorem witness_MctxLoadsTheContext :
    (withV [(0, 2)]).valV 0 < 3 ∧ (withV [(0, 2 ^ 4096 - 2)]).valV 0 % 2 = 0 ∧
      (3 ≤ (withV [(0, 3)]).valV 0 ∧ (withV [(0, 3)]).valV 0 % 2 = 1) ∧
      (3 ≤ (withV [(0, 2 ^ 4096 - 1)]).valV 0 ∧ (withV [(0, 2 ^ 4096 - 1)]).valV 0 % 2 = 1) := by decide +kernel

theorem witness_MmulIsTheMontgomeryProduct :
    bare.ctx.valid = false ∧ (large.ctx.valid = true ∧ large.modulus ≤ large.valV 1) ∧
      (large'.ctx.valid = true ∧ large'.modulus ≤ large'.valV 2) ∧
      (small.ctx.valid = true ∧ small.ctx.Sound ∧ small.valV 1 < small.modulus ∧ small.valV 2 < small.modulus) := by
  decide +kernel

theorem witness_MtomMultipliesByTheRadix :
    bare.ctx.valid = false ∧ (large.ctx.valid = true ∧ large.modulus ≤ large.valV 1) ∧
      (small.ctx.valid = true ∧ small.ctx.Sound ∧ small.valV 1 < small.modulus) := by decide +kernel

theorem witness_MfromDividesByTheRadix :
    bare.ctx.valid = false ∧ (large.ctx.valid = true ∧ large.modulus ≤ large.valV 1) ∧
      (small.ctx.valid = true ∧ small.ctx.Sound ∧ small.valV 1 < small.modulus) := by decide +kernel

theorem witness_MfromAfterMtomIsIdentity :
    small.ctx.valid = true ∧ small.ctx.Sound ∧ small.valV 1 < small.modulus := by decide +kernel

theorem witness_MexpIsTheModularPower :
    bare.ctx.valid = false ∧ small.ctx.valid = true ∧ small.ctx.Sound := by decide +kernel

theorem witness_CiosGivesMontMul :
    ctx101.valid = true ∧ ctx101.Sound ∧ 100 < ctx101.m.toNat ∧ 0 < ctx101.m.toNat := by decide +kernel

/-- T1 with G in affine Montgomery form in PT0 and in Jacobian Montgomery form in PT1; and G in standard form. -/
def points : State := onT1 [gM, gJ] []
def standardPoint : State := onT1 [affine false 0 39] []

theorem witness_WrongPointStateRaisesPtstate :
    points.ctx.valid = true ∧ standardPoint.ctx.valid = true ∧
      ((points.getPT 0).aff = true ∧ (points.getPT 0).mont = true) ∧
      ((points.getPT 1).aff = false ∧ (points.getPT 1).mont = true) ∧ (standardPoint.getPT 0).mont = false := by
  decide +kernel

theorem witness_UnreducedCoordinateRaisesRange :
    let s := onT1 [affine true 101 0, jacobian true 0 0 101, affine false 0 101] []
    s.ctx.valid = true ∧
      ((s.getPT 0).inf = false ∧ s.modulus ≤ (s.getPT 0).x.toNat ∧ (s.getPT 0).aff = true ∧ (s.getPT 0).mont = true) ∧
      ((s.getPT 1).inf = false ∧ (s.getPT 1).aff = false ∧ s.modulus ≤ (s.getPT 1).z.toNat ∧
        (s.getPT 1).mont = true) ∧
      ((s.getPT 2).inf = false ∧ s.modulus ≤ (s.getPT 2).y.toNat ∧ (s.getPT 2).mont = false) := by decide +kernel

/-- RA = PT1 is unreduced beside an in-range RB = PT0; and RB = PT2 is unreduced beside an in-range RA = PT3. -/
theorem witness_UnreducedCoordinateRaisesRange_mixed :
    let s := onT1 [gM, jacobian true 0 101 1, affine true 101 0, gJ] []
    s.ctx.valid = true ∧
      ((s.getPT 1).aff = false ∧ (s.getPT 1).mont = true ∧ (s.getPT 0).aff = true ∧ (s.getPT 0).mont = true ∧
        ((s.getPT 1).inf = false ∧ s.modulus ≤ (s.getPT 1).y.toNat) ∧ (s.getPT 0).inRange s.modulus = true) ∧
      ((s.getPT 3).aff = false ∧ (s.getPT 3).mont = true ∧ (s.getPT 2).aff = true ∧ (s.getPT 2).mont = true ∧
        ((s.getPT 2).inf = false ∧ s.modulus ≤ (s.getPT 2).x.toNat) ∧ (s.getPT 3).inRange s.modulus = true) := by
  decide +kernel

theorem witness_PdblDoubles :
    points.ctx.valid = true ∧ (points.getPT 1).aff = false ∧ (points.getPT 1).mont = true ∧
      (points.getPT 1).inRange points.modulus = true := by decide +kernel

theorem witness_PmaddAndPmdaddAdd :
    points.ctx.valid = true ∧ (points.getPT 1).aff = false ∧ (points.getPT 1).mont = true ∧
      (points.getPT 0).aff = true ∧ (points.getPT 0).mont = true ∧ (points.getPT 1).inRange points.modulus = true ∧
      (points.getPT 0).inRange points.modulus = true := by decide +kernel

/-- The numbers of T1, and 2G and −G in Jacobian Montgomery form (L2.7). -/
@[irreducible] def f101 : FieldCtx := ctx101.field false
def gJ2 : Point := jacobian true 6 0x1C 0x34
def gJneg : Point := jacobian true 0 0x4B 0x44

theorem witness_DoublingFollowsTheTangentRule :
    ctx101.valid = true ∧ ctx101.Sound ∧ (infPoint false true).inf = true ∧ gJ.inf = false ∧
      (0 : ZMod f101.p) * represented f101 gJ.z ^ 2 = represented f101 gJ.x ∧
      (39 : ZMod f101.p) * represented f101 gJ.z ^ 3 = represented f101 gJ.y ∧
      (66 : ZMod f101.p) * (2 * 39) = 3 * 0 ^ 2 + curveA f101 := by decide +kernel

theorem witness_AdditionFollowsTheChordRule :
    let z := represented f101 gJ.z
    let z' := represented f101 gJ2.z
    let u := represented f101 gJ2.x * z ^ 2 - represented f101 gJ.x * z' ^ 2
    ctx101.valid = true ∧ ctx101.Sound ∧ (infPoint false true).inf = true ∧ gJ.inf = false ∧ gJ2.inf = false ∧ u ≠ 0 ∧
      (0 : ZMod f101.p) * z ^ 2 = represented f101 gJ.x ∧ (39 : ZMod f101.p) * z ^ 3 = represented f101 gJ.y ∧
      (13 : ZMod f101.p) * z' ^ 2 = represented f101 gJ2.x ∧ (12 : ZMod f101.p) * z' ^ 3 = represented f101 gJ2.y ∧
      (29 : ZMod f101.p) * (13 - 0) = 12 - 39 ∧
      (represented f101 gJneg.x * z ^ 2 - represented f101 gJ.x * represented f101 gJneg.z ^ 2 = 0 ∧
        represented f101 gJneg.y * z ^ 3 - represented f101 gJ.y * represented f101 gJneg.z ^ 3 ≠ 0) ∧
      gJ.inRange ctx101.m.toNat = true ∧ gJ.aff = false ∧ gM.inRange ctx101.m.toNat = true ∧ gM.aff = true ∧
      gM.mont = true := by decide +kernel

theorem witness_PnegNegatesY :
    points.ctx.valid = true ∧ (points.getPT 0).inRange points.modulus = true ∧ (points.getPT 0).inf = false ∧
      (points.getPT 2).inRange points.modulus = true := by decide +kernel

theorem witness_PtojMakesJacobian :
    points.ctx.valid = true ∧ (points.getPT 0).aff = true ∧ (points.getPT 0).inRange points.modulus = true := by
  decide +kernel

theorem witness_PtoaDividesByPowersOfZ :
    let s := onT1 [jacobian true 6 0x1C 0, infPoint false true, gJ2] []
    s.ctx.valid = true ∧ s.ctx.Sound ∧
      ((s.getPT 0).aff = false ∧ (s.getPT 0).inRange s.modulus = true ∧ (s.getPT 0).inf = false ∧
        Nat.gcd (s.getPT 0).z.toNat s.modulus ≠ 1) ∧
      ((s.getPT 1).aff = false ∧ (s.getPT 1).inRange s.modulus = true ∧ (s.getPT 1).inf = true) ∧
      ((s.getPT 2).aff = false ∧ (s.getPT 2).inRange s.modulus = true ∧ (s.getPT 2).inf = false ∧
        Nat.gcd (s.getPT 2).z.toNat s.modulus = 1) := by decide +kernel

theorem witness_PtomConvertsToMontgomery :
    standardPoint.ctx.valid = true ∧ standardPoint.ctx.Sound ∧ (standardPoint.getPT 0).mont = false ∧
      (standardPoint.getPT 0).inRange standardPoint.modulus = true := by decide +kernel

theorem witness_PfromConvertsToStandard :
    points.ctx.valid = true ∧ points.ctx.Sound ∧ (points.getPT 1).mont = true ∧
      (points.getPT 1).inRange points.modulus = true := by decide +kernel

theorem witness_PfromAfterPtomIsIdentity :
    standardPoint.ctx.valid = true ∧ standardPoint.ctx.Sound ∧ (standardPoint.getPT 0).mont = false ∧
      (standardPoint.getPT 0).inRange standardPoint.modulus = true := by decide +kernel

theorem witness_WnafProperties :
    (2 ≤ 2 ∧ 2 ≤ 6) ∧ (2 ≤ 6 ∧ 6 ≤ 6) ∧ 2 ^ 64 - 1 < 2 ^ 4096 ∧ (wnaf 7 2).getD 0 0 ≠ 0 := by decide +kernel

theorem witness_NafWritesTheDigits :
    (1 : Fin 16).val < 2 ∧ 6 < (7 : Fin 16).val ∧ 2 ≤ (2 : Fin 16).val ∧ (6 : Fin 16).val ≤ 6 := by decide

/-- T3 (p = 23, a = −3) with its point of order 2 in affine Montgomery form (L2.7), an order of 30 in V30 and k = 1 in V2. -/
def orderTwo : State :=
  ((withCtx 23 [(30, 30), (2, 1)]).setCurve 0x1E00).setPT 0 (affine true (13 * 2 ^ 32 % 23) 0)

/-- J[i] of TABLE(PT0, w) (R265). -/
def oddMultiple (s : State) (i : Nat) : Point :=
  (fun q => jacAdd s.field q (dbl s.field (toJ s.field (s.getPT 0))))^[i] (toJ s.field (s.getPT 0))

/-- G with the widest table; and the point of order 2, whose 3P has no invertible Z, with w = 3. -/
theorem witness_PtabWritesTheTable :
    (points.ctx.valid = true ∧ (points.getPT 0).aff = true ∧ (points.getPT 0).mont = true ∧
      (points.getPT 0).inRange points.modulus = true ∧
      ∀ i, 1 ≤ i → i < 2 ^ ((6 : Fin 16).val - 2) →
        (oddMultiple points i).inf = true ∨ Nat.gcd (oddMultiple points i).z.toNat points.modulus = 1) ∧
    (orderTwo.ctx.valid = true ∧ (orderTwo.getPT 0).aff = true ∧ (orderTwo.getPT 0).mont = true ∧
      (orderTwo.getPT 0).inRange orderTwo.modulus = true ∧ (orderTwo.getPT 0).inf = false ∧
      ¬ ∀ i, 1 ≤ i → i < 2 ^ ((3 : Fin 16).val - 2) →
        (oddMultiple orderTwo i).inf = true ∨ Nat.gcd (oddMultiple orderTwo i).z.toNat orderTwo.modulus = 1) := by
  have h : ∀ i < 16, 1 ≤ i →
      (oddMultiple points i).inf = true ∨ Nat.gcd (oddMultiple points i).z.toNat points.modulus = 1 := by decide +kernel
  have h' : ¬ ((oddMultiple orderTwo 1).inf = true ∨
      Nat.gcd (oddMultiple orderTwo 1).z.toNat orderTwo.modulus = 1) := by decide +kernel
  exact ⟨⟨by decide +kernel, by decide +kernel, by decide +kernel, by decide +kernel, fun i h1 h2 => h i h2 h1⟩,
    by decide +kernel, by decide +kernel, by decide +kernel, by decide +kernel, by decide +kernel,
    fun k => h' (k 1 (by decide) (by decide))⟩

/-- Widths on either side of 2..6, with a point that meets every other check. -/
theorem witness_PtabWritesTheTable_width :
    points.ctx.valid = true ∧ (points.getPT 0).aff = true ∧ (points.getPT 0).mont = true ∧
      (points.getPT 0).inRange points.modulus = true ∧ (1 : Fin 16).val < 2 ∧ 6 < (7 : Fin 16).val := by decide +kernel

/-- The infinite point, at both ends of the widths. -/
theorem witness_PtabWritesTheTable_infinity :
    let s := onT1 [infPoint true true] []
    s.ctx.valid = true ∧ (s.getPT 0).aff = true ∧ (s.getPT 0).mont = true ∧ (s.getPT 0).inRange s.modulus = true ∧
      (s.getPT 0).inf = true ∧ (2 ≤ (2 : Fin 16).val ∧ (6 : Fin 16).val ≤ 6) := by decide +kernel

/-- w = 2: a table of one entry, for which no inverse is asked, not even of the point of order 2. -/
theorem witness_PtabWritesTheTable_oneEntry :
    (orderTwo.getPT 0).inf = false ∧ 2 ≤ (2 : Fin 16).val ∧ (2 : Fin 16).val ≤ 6 ∧
      ∀ i, 1 ≤ i → i < 2 ^ ((2 : Fin 16).val - 2) →
        (oddMultiple orderTwo i).inf = true ∨ Nat.gcd (oddMultiple orderTwo i).z.toNat orderTwo.modulus = 1 :=
  ⟨by decide +kernel, by decide, by decide, fun i h1 h2 => absurd h2 (Nat.not_lt.mpr h1)⟩

theorem witness_BatchedNormalisationGivesTheTable :
    ctx101.valid = true ∧ ctx101.Sound ∧
      ∀ j ∈ [gJ2, infPoint false true, gJ], j.aff = false ∧ j.mont = true ∧ j.inRange ctx101.m.toNat = true := by
  decide +kernel

theorem witness_SmulEarlyResult :
    let s := onT1 [infPoint true false, affine false 0 39] [(2, 0)]
    s.ctx.valid = true ∧ ((s.getPT 0).aff = true ∧ (s.getPT 0).inRange s.modulus = true ∧ (s.getPT 0).inf = true) ∧
      ((s.getPT 1).aff = true ∧ (s.getPT 1).inRange s.modulus = true ∧ s.valV 2 = 0) := by decide +kernel

theorem witness_SmulWritesResultTableAndDigits :
    let s := onT1 [gM] [(1, 109), (2, 108)]
    let t := table s.field gM 5
    (s.ctx.valid = true ∧ (s.getPT 0).aff = true ∧ (s.getPT 0).inRange s.modulus = true ∧ (s.getPT 0).inf = false ∧
      s.getPT 0 = gM ∧ 0 < s.valV 2 ∧ s.valV s.ord ≤ s.valV 1 ∧ s.valV 2 < s.valV s.ord ∧ bitLen s.modulus ≤ 192 ∧
      t.isSome = true ∧ (t.bind fun ts =>
        toA s.field ((wnaf (s.valV 2) 5).foldr (scanStep s.field ts) (infPoint false true))).isSome = true) ∧
    (orderTwo.ctx.valid = true ∧ (orderTwo.getPT 0).inRange orderTwo.modulus = true ∧
      orderTwo.valV 2 < orderTwo.valV orderTwo.ord ∧ table orderTwo.field (orderTwo.getPT 0) 5 = none) := by
  decide +kernel

theorem witness_ContextIsCheckedFirst :
    (WellFormed (.madd 3 1 2) = true ∧ raises .noctx (.madd 3 1 2) = true ∧ bare.ctx.valid = false) ∧
      raises .noctx .nop = false ∧ exec .nop bare = .next bare.completeOk :=
  ⟨by decide +kernel, rfl, rfl⟩

theorem runWord_illegal (s : State) : runWord 1 s = .next (s.completeErr .illegal) := by
  have h : decode 1 = .error .illegal := by decide +kernel
  unfold runWord
  rw [h]
  rfl

theorem witness_ErrorsArePrecise :
    runWord 1 bare = .next (bare.completeErr .illegal) ∧ (bare.completeErr .illegal).errCode ≠ 0 :=
  ⟨runWord_illegal bare, by decide +kernel⟩

theorem witness_OnlyListedErrorsAreRaised :
    (exec (.mexp 3 1 2) bare = .next (bare.completeErr .noctx) ∧
        (bare.completeErr .noctx).errCode = CmdError.code .noctx) ∧
      decode 1 = .error .illegal ∧ runWord 1 bare = .next (bare.completeErr .illegal) :=
  ⟨⟨rfl, rfl⟩, by decide +kernel, runWord_illegal bare⟩

theorem witness_StatusAfterCompletion :
    bare.haz = false ∧ runWord 1 (bare.issue 1) = .next ((bare.issue 1).completeErr .illegal) :=
  ⟨by decide +kernel, runWord_illegal _⟩

theorem witness_InterruptFollowsDone :
    runWord 1 bare = .next (bare.completeErr .illegal) ∧ (2 : Word).getLsbD 1 = true :=
  ⟨runWord_illegal bare, by decide⟩

theorem witness_ResetValues :
    (let s : State := { next [.resetRises] small with rstN := false }
     s.rstN = false ∧ s.schedule = .resetRises :: []) ∧
    (let s := next [st32 0x8 3] small
     s.rstN = true ∧ (3 : Word).getLsbD 1 = true ∧
       s.schedule = .bus { kind := .write, addr := 0x8, size := .four, wdata := 3 } :: []) := by decide +kernel

theorem witness_StatusWriteOneToClear :
    let s := next [st32 0xC 0xE] small
    s.rstN = true ∧ s.schedule = .bus { kind := .write, addr := 0xC, size := .four, wdata := 0xE } :: [] := by
  decide +kernel

/-- A step that only takes the completion event of an idle machine. -/
theorem step_idle : step (next [.completes] small) = .next (next [] small) := rfl

theorem witness_OnlyMctxAndResetWriteTheContext : ∃ s t : State, step s = .next t := ⟨_, _, step_idle⟩

theorem witness_CommandsWriteOnlyTheirDestinations :
    WellFormed .nop = true ∧ exec .nop small = .next small.completeOk := ⟨rfl, rfl⟩

/-- A command that writes digits and one that writes none. -/
theorem witness_OldTableAndDigitsAreNeverRead :
    exec (.naf 1 5) small = .next (small.setNaf (wnaf (small.valV 1) 5)).completeOk ∧
      exec .nop small = .next small.completeOk := ⟨rfl, rfl⟩

theorem witness_StepKeepsTheInvariant :
    (next [.completes] small).Sound ∧ step (next [.completes] small) = .next (next [] small) :=
  ⟨by decide +kernel, step_idle⟩

theorem witness_OnlyBusInResetIsRefused :
    small.rstN = true ∧ step { next [ld32 0] small with rstN := false } = .refused .busInReset := ⟨by decide +kernel, rfl⟩

theorem witness_AddressMapIsOneToOne :
    0x1C000 % 4 = 0 ∧ Loc.ofOffset 0x1C000 = some (.nafDigit 4096) := by decide +kernel

theorem witness_BusErrorsChangeNothing :
    let tr : Transaction := { kind := .read, addr := 0x1C004, size := .four, wdata := 0 }
    (next [.bus tr] small).rstN = true ∧ (next [.bus tr] small).schedule = .bus tr :: [] ∧
      busCheck tr = .error .reserved := by decide +kernel

theorem witness_DigitWriteThenRead :
    let s : Nat → Nat → State := fun a w => next [st32 a w] small
    let o : Nat → Nat → List Event := fun a w =>
      [.bus { kind := .write, addr := BitVec.ofNat 17 a, size := .four, wdata := BitVec.ofNat 32 w }]
    ((s 0x8 0xFFFFFFFD).rstN = true ∧ (s 0x8 0xFFFFFFFD).busy = false) ∧
      (s 0x04FFC 5).schedule = o (0x1000 + 0x200 * (31 : VReg).val + 4 * (127 : Fin 128).val) 5 ∧
      (s 0x08DFC 5).schedule = o (0x5000 + 0x800 * (7 : PReg).val + 0x400 + 4 * (127 : Fin 128).val) 5 ∧
      (s 0x08E00 0xFFFFFFFF).schedule = o (0x5000 + 0x800 * (7 : PReg).val + 0x600) 0xFFFFFFFF ∧
      (s 0x14 0xFFFFFFFF).schedule = o 0x14 0xFFFFFFFF ∧
      ((s 0x8 0xFFFFFFFD).schedule = o 0x8 0xFFFFFFFD ∧ (0xFFFFFFFD : Word).getLsbD 1 = false) := by decide +kernel

theorem witness_IdleReadHasNoSideEffect :
    let tr : Transaction := { kind := .read, addr := 0x04FFC, size := .four, wdata := 0 }
    (next [.bus tr] small).rstN = true ∧ (next [.bus tr] small).busy = false ∧
      (next [.bus tr] small).schedule = .bus tr :: [] ∧ busCheck tr = .ok (.vDigit 31 127) := by decide +kernel

/-- A machine that executes a NOP, with a transaction before its completion. -/
def busyWith (tr : Transaction) : State := next [.bus tr, .completes] (small.issue 0)

theorem witness_BusyTimeRules :
    let rd : Nat → Transaction := fun a => { kind := .read, addr := BitVec.ofNat 17 a, size := .four, wdata := 0 }
    let wr : Nat → Transaction := fun a => { kind := .write, addr := BitVec.ofNat 17 a, size := .four, wdata := 2 }
    ((busyWith (rd 0)).rstN = true ∧ (busyWith (rd 0)).busy = true ∧
      (busyWith (rd 0)).schedule = .bus (rd 0) :: [.completes]) ∧
      [0x10, 0x14, 0x1000, 0x5000, 0x5600, 0x8, 0xC].map (fun a => busCheck (wr a)) =
        [.ok .cmd, .ok .curve, .ok (.vDigit 0 0), .ok (.ptDigit 0 .x 0), .ok (.ptFlags 0), .ok .ctrl, .ok .status] ∧
      [0x0, 0x14, 0x18, 0x1C000].map (fun a => busCheck (rd a)) =
        [.ok .id, .ok .curve, .ok .ctxStat, .ok (.nafDigit 4096)] := by decide +kernel

theorem witness_OperandsAreHeldWhileBusy :
    let s := next [.resetFalls] (small.issue 0)
    step s = .next { next [] (small.issue 0) with rstN := false } ∧ s.busy = true ∧
      ({ next [] (small.issue 0) with rstN := false } : State).busy = true := ⟨rfl, rfl, rfl⟩

theorem witness_BusyTrafficDoesNotChangeTheOutcome :
    let tr : Transaction := { kind := .write, addr := 0x8, size := .four, wdata := 1 }
    (busyWith tr).rstN = true ∧ (busyWith tr).inFlight = some 0 ∧ (busyWith tr).done = false ∧
      (busyWith tr).err = false ∧ (busyWith tr).errCode = 0 ∧ (∀ t ∈ [tr], NotSoftReset t) ∧
      (busyWith tr).schedule = [tr].map .bus ++ [.completes] := by decide +kernel

end Sys2Proof.Tests
end

section
/-! The frame of every command: it writes its destinations and STATUS alone (R32, R38, R39, R41, R56). -/

namespace Sys2Proof.Machine

/-! ### What holds of every state an outcome answers -/

/-- Every next state that the outcome answers satisfies `P`. -/
def Yields (o : Host.Outcome State Fault Refusal) (P : State → Prop) : Prop := ∀ t, o = .next t → P t

section
variable {s u : State} {e : CmdError} {P : State → Prop} {o k l : Host.Outcome State Fault Refusal}

theorem Yields.raise (h : P (s.completeErr e)) : Yields (raise e s) P := by
  rintro t ⟨⟩
  exact h

theorem Yields.succeed (h : P u.completeOk) : Yields (succeed u) P := by
  rintro t ⟨⟩
  exact h

theorem Yields.ite {c : Prop} [Decidable c] (hk : c → Yields k P) (hl : ¬ c → Yields l P) :
    Yields (if c then k else l) P := by
  split
  exacts [hk ‹_›, hl ‹_›]

/-- An operand check, given by its `_cases` lemma, answers an error completion or what its continuation answers. -/
theorem Yields.check {A : Prop} {B : CmdError → Prop} (hc : (o = k ∧ A) ∨ ∃ e, o = Machine.raise e s ∧ B e)
    (he : ∀ e, P (s.completeErr e)) (hk : Yields k P) : Yields o P := by
  rcases hc with ⟨rfl, -⟩ | ⟨e, rfl, -⟩
  exacts [hk, .raise (he e)]

end

/-! ### The registers that a command leaves (R32, R38, R39, R41, R56) -/

/-- `t` holds what `s` held in every register and buffer that the command `i` does not name as its destination. -/
structure KeepsOthers (i : Instr) (s t : State) : Prop where
  v : KeepsV s t (fun r => writesV i r = true)
  pt : KeepsPT s t (fun r => writesPT i r = true)
  tbl : writesTbl i = false → t.tbl = s.tbl
  naf : writesNaf i = false → t.naf = s.naf ∧ t.nafLen = s.nafLen
  ctx : writesCtx i = false → t.ctx = s.ctx

namespace KeepsOthers

variable {i : Instr} {s t u : State}

theorem refl (i : Instr) (s : State) : KeepsOthers i s s :=
  ⟨fun _ _ => rfl, fun _ _ => rfl, fun _ => rfl, fun _ => ⟨rfl, rfl⟩, fun _ => rfl⟩

theorem trans (h : KeepsOthers i s t) (h' : KeepsOthers i t u) : KeepsOthers i s u where
  v r hr := (h'.v r hr).trans (h.v r hr)
  pt r hr := (h'.pt r hr).trans (h.pt r hr)
  tbl hw := (h'.tbl hw).trans (h.tbl hw)
  naf hw := ⟨(h'.naf hw).1.trans (h.naf hw).1, (h'.naf hw).2.trans (h.naf hw).2⟩
  ctx hw := (h'.ctx hw).trans (h.ctx hw)

/-- A completion with an error writes STATUS alone (R300). -/
theorem completeErr (i : Instr) (s : State) (e : CmdError) : KeepsOthers i s (s.completeErr e) :=
  ⟨fun _ _ => rfl, fun _ _ => rfl, fun _ => rfl, fun _ => ⟨rfl, rfl⟩, fun _ => rfl⟩

/-- A completion after the writes of a success writes STATUS alone (R119). -/
theorem completeOk (h : KeepsOthers i s u) : KeepsOthers i s u.completeOk := ⟨h.v, h.pt, h.tbl, h.naf, h.ctx⟩

theorem putV {rd : VReg} (x : Value) (hw : writesV i rd = true := by simp [writesV]) :
    KeepsOthers i s (s.putV rd x) where
  v r hr := by rw [State.getV_putV, if_neg (by rintro rfl; exact hr hw)]
  pt _ _ := rfl
  tbl _ := rfl
  naf _ := ⟨rfl, rfl⟩
  ctx _ := rfl

theorem setV {rd : VReg} (n : Nat) (hw : writesV i rd = true := by simp [writesV]) :
    KeepsOthers i s (s.setV rd n) := putV _ hw

theorem setPT {rd : PReg} (p : Point) (hw : writesPT i rd = true := by simp [writesPT]) :
    KeepsOthers i s (s.setPT rd p) where
  v _ _ := rfl
  pt r hr := by rw [State.getPT_setPT, if_neg (by rintro rfl; exact hr hw)]
  tbl _ := rfl
  naf _ := ⟨rfl, rfl⟩
  ctx _ := rfl

theorem setTbl (ts : List TblEntry) (hw : writesTbl i = true) : KeepsOthers i s (s.setTbl ts) where
  v _ _ := rfl
  pt _ _ := rfl
  tbl h := absurd hw (by simp [h])
  naf _ := ⟨rfl, rfl⟩
  ctx _ := rfl

theorem setNaf (ds : List Int) (hw : writesNaf i = true) : KeepsOthers i s (s.setNaf ds) where
  v _ _ := rfl
  pt _ _ := rfl
  tbl _ := rfl
  naf h := absurd hw (by simp [h])
  ctx _ := rfl

theorem setCtx (c : Ctx) (hw : writesCtx i = true) : KeepsOthers i s (s.setCtx c) where
  v _ _ := rfl
  pt _ _ := rfl
  tbl _ := rfl
  naf _ := ⟨rfl, rfl⟩
  ctx h := absurd hw (by simp [h])

/-- BINV's writes stay in its destination range, which the command has checked to lie within V0..V31 (R105, R155). -/
theorem setRange {rd ra : VReg} {n1 : Fin 32} {mont : Bool} {ys : List Nat} (hfit : rangeFits rd n1 = true)
    (hlen : ys.length = n1.val + 1) : KeepsOthers (.binv rd ra n1 mont) s (s.setRange rd 0 ys) := by
  obtain ⟨hpt, htbl, hnaf, hlenNaf, hctx⟩ := setRange_others s rd 0 ys
  have hfit : rd.val + (n1.val + 1) ≤ 32 := by simpa [rangeFits] using hfit
  refine ⟨fun r hr => ?_, fun r _ => ?_, fun _ => htbl, fun _ => ⟨hnaf, hlenNaf⟩, fun _ => hctx⟩
  · have hr : ¬ (rd.val ≤ r.val ∧ r.val ≤ rd.val + n1.val) := by simpa [writesV] using hr
    rw [setRange_getV s rd ys 0 (by omega), if_neg (by omega)]
  · rw [State.getPT, hpt, State.getPT]

end KeepsOthers

section
variable {i : Instr} {s u : State} {e : CmdError} {o k : Host.Outcome State Fault Refusal}

theorem keepsOthers_raise : Yields (raise e s) (KeepsOthers i s) := .raise (.completeErr i s e)

theorem keepsOthers_succeed (h : KeepsOthers i s u) : Yields (succeed u) (KeepsOthers i s) := .succeed h.completeOk

theorem keepsOthers_check {A : Prop} {B : CmdError → Prop} (hc : (o = k ∧ A) ∨ ∃ e, o = raise e s ∧ B e)
    (hk : Yields k (KeepsOthers i s)) : Yields o (KeepsOthers i s) := .check hc (.completeErr i s) hk

theorem keepsOthers_needCtx (hk : Yields k (KeepsOthers i s)) : Yields (needCtx s k) (KeepsOthers i s) :=
  .ite (fun _ => hk) (fun _ => keepsOthers_raise)

end

/-- Every command writes its destinations alone (R56). -/
theorem exec_keepsOthers (i : Instr) (s : State) : Yields (exec i s) (KeepsOthers i s) := by
  cases i with
  | nop => exact keepsOthers_succeed (.refl ..)
  | mov rd ra => exact keepsOthers_succeed (.putV ..)
  | madd rd ra rb => exact keepsOthers_check (needBothBelow_cases ..) (keepsOthers_succeed (.setV ..))
  | msub rd ra rb => exact keepsOthers_check (needBothBelow_cases ..) (keepsOthers_succeed (.setV ..))
  | mred rd ra => exact keepsOthers_needCtx (keepsOthers_succeed (.setV ..))
  | minv rd ra rb =>
    exact .ite (fun _ => keepsOthers_raise) fun _ => .ite (fun _ => keepsOthers_raise) fun _ =>
      keepsOthers_succeed (.setV ..)
  | binv rd ra n1 mont =>
    refine .ite (fun _ => keepsOthers_raise) fun hfit => keepsOthers_needCtx (.ite (fun _ => keepsOthers_raise) fun _ =>
      .ite (fun _ => keepsOthers_raise) fun _ => keepsOthers_succeed (.setRange ?_ ?_))
    · have hfit : rangeFits ra n1 = true ∧ rangeFits rd n1 = true := by simpa using hfit
      exact hfit.2
    · rw [List.length_map, valRange_length]
  | mctx ra => exact .ite (fun _ => keepsOthers_raise) fun _ => keepsOthers_succeed (.setCtx _ rfl)
  | mmul rd ra rb => exact keepsOthers_check (needBothBelow_cases ..) (keepsOthers_succeed (.setV ..))
  | mtom rd ra => exact keepsOthers_check (needBelow_cases ..) (keepsOthers_succeed (.setV ..))
  | mfrom rd ra => exact keepsOthers_check (needBelow_cases ..) (keepsOthers_succeed (.setV ..))
  | mexp rd ra rb => exact keepsOthers_needCtx (keepsOthers_succeed (.setV ..))
  | pmov rd ra => exact keepsOthers_succeed (.setPT ..)
  | pdbl rd ra => exact keepsOthers_check (needPoint_cases ..) (keepsOthers_succeed (.setPT ..))
  | pmadd rd ra rb => exact keepsOthers_check (needTwoPoints_cases ..) (keepsOthers_succeed (.setPT ..))
  | pmdadd rd ra rb => exact keepsOthers_check (needTwoPoints_cases ..) (keepsOthers_succeed (.setPT ..))
  | pneg rd ra => exact keepsOthers_check (needPoint_cases ..) (keepsOthers_succeed (.setPT ..))
  | ptoj rd ra => exact keepsOthers_check (needPoint_cases ..) (keepsOthers_succeed (.setPT ..))
  | ptoa rd ra =>
    refine keepsOthers_check (needPoint_cases ..) ?_
    split
    exacts [keepsOthers_raise, keepsOthers_succeed (.setPT ..)]
  | ptom rd ra => exact keepsOthers_check (needPoint_cases ..) (keepsOthers_succeed (.setPT ..))
  | pfrom rd ra => exact keepsOthers_check (needPoint_cases ..) (keepsOthers_succeed (.setPT ..))
  | naf ra w => exact .ite (fun _ => keepsOthers_raise) fun _ => keepsOthers_succeed (.setNaf _ rfl)
  | ptab ra w =>
    refine keepsOthers_check (needPoint_cases ..) (.ite (fun _ => keepsOthers_raise) fun _ => ?_)
    split
    exacts [keepsOthers_raise, keepsOthers_succeed (.setTbl _ rfl)]
  | smul rd ra rb mont =>
    refine keepsOthers_check (needPoint_cases ..) (.ite
      (fun _ => keepsOthers_succeed (.setPT ..)) fun _ => .ite (fun _ => keepsOthers_raise) fun _ => ?_)
    split
    · exact keepsOthers_raise
    · exact keepsOthers_succeed (((KeepsOthers.setTbl _ rfl).trans (.setNaf _ rfl)).trans (.setPT ..))

/-- A command's end leaves CTRL.IE, HAZ, CURVE and the model's own fields (R44, R48, R119). -/
theorem Ends.keepsControl {s t : State} {o : Host.Outcome State Fault Refusal} (h : Ends s o) (ht : o = .next t) :
    KeepsControl s t := by
  rcases h with ⟨e, rfl⟩ | ⟨u, rfl, hu⟩
  · cases ht
    exact ⟨rfl, rfl, rfl, rfl, rfl, rfl, rfl, rfl⟩
  · cases ht
    exact ⟨hu.ie, hu.haz, hu.azero, hu.ord, hu.rstN, hu.schedule, hu.response, hu.draws⟩

end Sys2Proof.Machine
end

section
/-! What each part of a step does to CTX (R41). -/

namespace Sys2Proof.Machine

/-- MCTX loads the context of an odd modulus of at least 3, and leaves CTX otherwise (R170). -/
theorem execMctx_ctx (s : State) (ra : VReg) :
    Yields (exec (.mctx ra) s) fun t =>
      t.ctx = s.ctx ∨ 3 ≤ s.valV ra ∧ s.valV ra % 2 = 1 ∧ t.ctx = contextFor (s.getV ra) :=
  .ite (fun _ => .raise (.inl rfl)) fun hm => .succeed (.inr ⟨by omega, by omega, rfl⟩)

/-- The end of a command word leaves CTX, unless the word is an MCTX that succeeds (R41). -/
theorem runWord_ctx {w : Word} {s t : State} (h : runWord w s = .next t) :
    t.ctx = s.ctx ∨ ∃ ra, decode w = .ok (.mctx ra) ∧ 3 ≤ s.valV ra ∧ s.valV ra % 2 = 1 ∧
      t.ctx = contextFor (s.getV ra) := by
  unfold runWord at h
  split at h
  · cases h
    exact .inl rfl
  · next i hd =>
    cases hw : writesCtx i with
    | false => exact .inl ((exec_keepsOthers i s t h).ctx hw)
    | true =>
      cases i with
      | mctx ra => exact (execMctx_ctx s ra t h).imp id fun hc => ⟨ra, hd, hc⟩
      | _ => cases hw

theorem busRead_ctx (s : State) (l : Loc) : (s.busRead l).ctx = s.ctx := by
  unfold State.busRead
  split <;> rfl

/-- A bus write leaves CTX, unless it is a soft reset (R41, R341). -/
theorem busWrite_ctx (s : State) (l : Loc) (w : Word) :
    (s.busWrite l w).ctx = s.ctx ∨ l = .ctrl ∧ w.getLsbD 1 = true ∧
      s.busWrite l w = { s.applyReset with response := .okayWrite } := by
  unfold State.busWrite
  split
  · exact .inl rfl
  · cases l with
    | ctrl =>
      simp only [State.writeLoc, State.writeCtrl]
      split
      · next hw => exact .inr ⟨trivial, hw, rfl⟩
      · exact .inl rfl
    | _ => exact .inl rfl

/-- Only the word at offset 8 is CTRL (R71). -/
theorem div_four_of_ofOffset_ctrl {a : Nat} (h : Loc.ofOffset a = some .ctrl) : a / 4 = 2 := by
  simp only [Loc.ofOffset] at h
  split_ifs at h
  · unfold csrAt at h
    split at h <;> simp_all
  · unfold ctxAt at h
    split at h <;> simp at h
  · simp at h
  · simp only [ptAt] at h
    split_ifs at h <;> simp at h
  · simp only [tblAt] at h
    split_ifs at h <;> simp at h
  · simp at h

theorem addr_of_busCheck_ctrl {tr : Transaction} (h : busCheck tr = .ok .ctrl) : tr.addr = 0x8 := by
  simp only [busCheck] at h
  split at h
  · cases h
  split at h
  · cases h
  split at h
  · cases h
  next hal _ l hl =>
    split at h
    · cases h
    cases h
    have := div_four_of_ofOffset_ctrl hl
    apply BitVec.eq_of_toNat_eq
    show tr.addr.toNat = 8
    omega

end Sys2Proof.Machine
end

section
/-! STATUS, the interrupt output and the reset values (R45, R46, R55, R57). -/

namespace Sys2Proof.Machine

/-! ### STATUS and the interrupt output (R45, R46, R55) -/

/-- A flag `b` after an acknowledgement by the bit `c` (R46). -/
theorem and_not_eq_ite (b c : Bool) : (b && !c) = if c then false else b := by cases c <;> simp

/-- A success after an issue with HAZ = 0 shows DONE alone in STATUS (R45, R116, R119). -/
theorem statusWord_success {c : Word} {s u : State} (hz : s.haz = false) (hu : DataStep (s.issue c) u) :
    u.completeOk.statusWord = 2 := by
  have herr : u.err = false := hu.err
  have hhaz : u.haz = false := hu.haz.trans hz
  simp [State.statusWord, bitNat, herr, hhaz]

/-- An error after an issue with HAZ = 0 shows DONE, ERR and its code in STATUS (R45, R119, R301). -/
theorem statusWord_error {c : Word} {s : State} (e : CmdError) (hz : s.haz = false) :
    ((s.issue c).completeErr e).statusWord = 6 + 0x100 * (CmdError.code e).setWidth 32 := by
  cases e <;> simp [State.statusWord, bitNat, hz, CmdError.code]

theorem runWord_done {w : Word} {s t : State} (h : runWord w s = .next t) : t.done = true := by
  rcases runWord_ends w s with ⟨e, ho⟩ | ⟨u, ho, -⟩
  all_goals
    rw [ho] at h
    cases h
    rfl

/-! ### Reset values (R57) -/

/-- The values that R57 gives, field by field. -/
structure Cleared (t : State) : Prop where
  nafLen : t.nafLen = 0
  valid : t.ctx.valid = false
  ie : t.ie = false
  done : t.done = false
  err : t.err = false
  haz : t.haz = false
  errCode : t.errCode = 0
  azero : t.azero = false
  ord : t.ord = 0
  inFlight : t.inFlight = none

theorem cleared_reset : Cleared State.reset := by constructor <;> rfl

/-- Both resets clear the control state, whatever the pin and the response port hold after them. -/
theorem cleared_applyReset (s : State) (pin : Bool) (r : Response) :
    Cleared { s.applyReset with rstN := pin, response := r } := by constructor <;> rfl

/-- The words that a host reads when the control state holds the values of R57, and the interrupt output. -/
theorem Cleared.view {t : State} (h : Cleared t) :
    t.readLoc .id = 0x4D4D4331 ∧ t.readLoc .hwcfg = 0x08200080 ∧ t.readLoc .ctrl = 0 ∧ t.readLoc .status = 0 ∧
      t.readLoc .curve = 0 ∧ t.readLoc .ctxStat = 0 ∧ t.readLoc .ctxMp = 0 ∧ t.readLoc .nafLen = 0 ∧
      (∀ f j, t.readLoc (.ctxDigit f j) = 0) ∧ t.ctx.valid = false ∧ t.inFlight = none ∧ t.irq = false := by
  obtain ⟨hlen, hvalid, hie, hdone, herr, hhaz, hcode, hazero, hord, hfl⟩ := h
  refine ⟨rfl, rfl, ?_, ?_, ?_, ?_, ?_, ?_, fun f j => ?_, hvalid, hfl, ?_⟩
  · simp [State.readLoc, State.ctrlWord, hie, bitNat]
  · simp [State.readLoc, State.statusWord, State.busy, hfl, hdone, herr, hhaz, hcode, bitNat]
  · simp [State.readLoc, State.curveWord, hazero, hord, bitNat]
  · simp [State.readLoc, State.ctxStatWord, hvalid]
  · simp [State.readLoc, State.ctxMpWord, hvalid]
  · simp [State.readLoc, State.nafLenWord, hlen]
  · simp [State.readLoc, hvalid]
  · simp [State.irq, hie]

/-! ### Writes that a busy machine accepts too (R350) -/

/-- The step of a write to a location that a busy machine does not drop: its own effect, busy or idle, and OKAY. -/
theorem step_write_undropped {s : State} {w : Word} {rest : List Event} {o : Nat} {l : Loc} (hr : s.rstN = true)
    (hs : s.schedule = .bus { kind := .write, addr := BitVec.ofNat 17 o, size := .four, wdata := w } :: rest)
    (h1 : o < 2 ^ 17) (h2 : o % 4 = 0) (h : Loc.ofOffset o = some l) (hro : l.readOnly = false)
    (hd : l.droppedBusy = false) :
    step s = .next { ({ s with schedule := rest } : State).writeLoc w l with response := .okayWrite } := by
  rw [step_write hr hs rfl (busCheck_write w h1 h2 h hro)]
  simp [State.busWrite, hd]

end Sys2Proof.Machine
end

section
/-! The statements of 10_state.md, settled. -/

open Sys2Proof Sys2Proof.Machine

/-- Settles O49: each command's meaning is its checks around writes to its destinations. -/
theorem commandsWriteOnlyTheirDestinations : Obligations.CommandsWriteOnlyTheirDestinations := by
  intro i s t _ h
  obtain ⟨hv, hpt, htbl, hnaf, hctx⟩ := exec_keepsOthers i s t h
  exact ⟨hv, hpt, htbl, hnaf, hctx, (exec_ends i s).keepsControl h⟩

/-- Settles O48, by the cases of a step. -/
theorem onlyMctxAndResetWriteTheContext : Obligations.OnlyMctxAndResetWriteTheContext := by
  intro s t h
  rcases step_cases h with ⟨-, rfl⟩ | ⟨w, -, hf, hw⟩ | ⟨tr, -, hs, hbus⟩ | ⟨-, rfl⟩ | ⟨hs, rfl⟩
  case inl => exact .inl rfl
  case inr.inl => exact (runWord_ctx hw).imp id fun ⟨ra, hc⟩ => .inl ⟨w, ra, hf, hc⟩
  case inr.inr.inl =>
    rcases hbus with ⟨e, -, rfl⟩ | ⟨l, -, -, rfl⟩ | ⟨l, hc, hk, rfl⟩
    · exact .inl rfl
    · exact .inl (busRead_ctx _ l)
    · rcases busWrite_ctx { s with schedule := s.schedule.tail } l tr.wdata with hctx | ⟨rfl, hb, e⟩
      · exact .inl hctx
      · rw [e]
        exact .inr (.inr ⟨rfl, rfl, .inr ⟨tr, hs, hk, addr_of_busCheck_ctrl hc, hb⟩⟩)
  case inr.inr.inr.inl => exact .inl rfl
  case inr.inr.inr.inr =>
    unfold resetRises
    split
    · exact .inl rfl
    · exact .inr (.inr ⟨rfl, rfl, .inl hs⟩)

/-- Settles O44, by the two ends of a command word. -/
theorem statusAfterCompletion : Obligations.StatusAfterCompletion := by
  intro c w s t hz h
  rcases runWord_ends w (s.issue c) with ⟨e, ho⟩ | ⟨u, ho, hu⟩
  · cases ho.symm.trans h
    exact .inr ⟨e, statusWord_error e hz⟩
  · cases ho.symm.trans h
    exact .inl (statusWord_success hz hu)

/-- Settles O45: a command's end sets DONE and keeps CTRL.IE; an acknowledgement and an issue clear DONE. -/
theorem interruptFollowsDone : Obligations.InterruptFollowsDone := by
  refine ⟨fun _ => rfl, fun w s t h => ?_, fun s w hw => ?_, fun s w => ?_⟩
  · have hie : t.ie = s.ie := ((runWord_ends w s).keepsControl h).1
    rw [State.irq, hie, runWord_done h, Bool.and_true]
  · simp [State.irq, State.ackStatus, hw]
  · simp [State.irq]

/-- Settles O46: both resets and power-on give the control state the same values. -/
theorem resetValues : Obligations.ResetValues := by
  refine ⟨cleared_reset.view, fun s rest hr hs => ?_, fun s w rest hr hw hs => ?_⟩
  · refine ⟨{ ({ s with schedule := rest } : State).applyReset with rstN := true }, ?_, ?_, rfl⟩
    · simp [step, stepCore, hs, perform, resetRises, hr]
    · exact (cleared_applyReset _ true _).view
  · refine ⟨_, step_write_undropped (l := .ctrl) hr hs (by decide) (by decide) rfl rfl rfl, ?_, rfl⟩
    rw [State.writeLoc, State.writeCtrl, if_pos hw]
    exact (cleared_applyReset _ _ .okayWrite).view

/-- Settles O47: STATUS is not among the locations whose write a busy machine drops. -/
theorem statusWriteOneToClear : Obligations.StatusWriteOneToClear := by
  intro s w rest hr hs
  exact ⟨_, step_write_undropped (l := .status) hr hs (by decide) (by decide) rfl rfl rfl, and_not_eq_ite ..,
    and_not_eq_ite .., rfl, and_not_eq_ite .., ⟨rfl, rfl, rfl, rfl, rfl, rfl, rfl, rfl⟩, rfl, rfl⟩

/-- Settles O52: the values of R57 make an empty context, a clear STATUS and no digits. -/
theorem resetMeetsTheInvariant : Obligations.ResetMeetsTheInvariant := by
  refine ⟨?_, ⟨?_, ?_, ?_⟩, ?_⟩
  · rintro ⟨⟩
  · decide
  · decide
  · rintro ⟨⟩
  · decide
end

section
/-! The address map and the bus errors (R71, R80). -/

namespace Sys2Proof.Machine

/-! ### Blocks of digits (R71) -/

theorem CtxField.block_bound (f : CtxField) : f.block % 0x200 = 0 ∧ f.block ≤ 0x600 := by cases f <;> decide

theorem Coord.block_bound (c : Coord) : c.block % 0x200 = 0 ∧ c.block ≤ 0x400 := by cases c <;> decide

theorem TblCoord.block_bound (c : TblCoord) : c.block % 0x200 = 0 ∧ c.block ≤ 0x200 := by cases c <;> decide

/-- The digit index counts from the start of a block. -/
theorem digitIndex_add {b : Nat} (hb : b % 0x200 = 0) (j : Fin 128) : digitIndex (b + 4 * j.val) = j := by
  apply Fin.ext
  simp only [digitIndex, Fin.ofNat]
  omega

/-! ### From a location to its offset and back (R71) -/

/-- Every location lies at an aligned offset inside the window of 128 KiB. -/
theorem Loc.offset_bound (l : Loc) : l.offset < 2 ^ 17 ∧ l.offset % 4 = 0 := by
  cases l with
  | ctxDigit f j => have := f.block_bound; simp only [Loc.offset]; omega
  | ptDigit i c j => have := c.block_bound; simp only [Loc.offset]; omega
  | tblDigit i c j => have := c.block_bound; simp only [Loc.offset]; omega
  | vDigit i j => simp only [Loc.offset]; omega
  | ptFlags i => simp only [Loc.offset]; omega
  | tblFlags i => simp only [Loc.offset]; omega
  | nafDigit j => simp only [Loc.offset]; omega
  | _ => decide

theorem ofOffset_ctxDigit (f : CtxField) (j : Fin 128) :
    Loc.ofOffset (0x800 + f.block + 4 * j.val) = some (.ctxDigit f j) := by
  have hf := f.block_bound
  have hblock : (0x800 + f.block + 4 * j.val - 0x800) / 0x200 = f.block / 0x200 := by omega
  have hdigit : digitIndex (0x800 + f.block + 4 * j.val) = j := digitIndex_add (by omega) j
  rw [Loc.ofOffset, if_neg (by omega), if_neg (by omega), if_pos (by omega), ctxAt, hblock, hdigit]
  cases f <;> rfl

theorem ofOffset_ptDigit (i : PReg) (c : Coord) (j : Fin 128) :
    Loc.ofOffset (0x5000 + 0x800 * i.val + c.block + 4 * j.val) = some (.ptDigit i c j) := by
  have hc := c.block_bound
  rw [Nat.add_assoc _ c.block, ofOffset_pt i (by omega), digitIndex_add hc.1]
  cases c with
  | x => have hx : Coord.x.block = 0 := rfl; rw [if_pos (by omega)]
  | y => have hy : Coord.y.block = 0x200 := rfl; rw [if_neg (by omega), if_pos (by omega)]
  | z => have hz : Coord.z.block = 0x400 := rfl; rw [if_neg (by omega), if_neg (by omega), if_pos (by omega)]

/-- The offset `r` within table entry `i`'s block. -/
theorem ofOffset_tbl (i : Fin 16) {r : Nat} (hr : r < 0x800) :
    Loc.ofOffset (0x9000 + 0x800 * i.val + r) =
      if r < 0x200 then some (.tblDigit i .x (digitIndex r))
      else if r < 0x400 then some (.tblDigit i .y (digitIndex r))
      else if r < 0x404 then some (.tblFlags i)
      else none := by
  have hi : Fin.ofNat 16 ((0x9000 + 0x800 * i.val + r - 0x9000) / 0x800) = i := by
    apply Fin.ext
    simp only [Fin.ofNat]
    omega
  have hr' : (0x9000 + 0x800 * i.val + r - 0x9000) % 0x800 = r := by omega
  rw [Loc.ofOffset, if_neg (by omega), if_neg (by omega), if_neg (by omega), if_neg (by omega), if_neg (by omega),
    if_pos (by omega)]
  simp only [tblAt, hi, hr']

theorem ofOffset_tblDigit (i : Fin 16) (c : TblCoord) (j : Fin 128) :
    Loc.ofOffset (0x9000 + 0x800 * i.val + c.block + 4 * j.val) = some (.tblDigit i c j) := by
  have hc := c.block_bound
  rw [Nat.add_assoc _ c.block, ofOffset_tbl i (by omega), digitIndex_add hc.1]
  cases c with
  | x => have hx : TblCoord.x.block = 0 := rfl; rw [if_pos (by omega)]
  | y => have hy : TblCoord.y.block = 0x200 := rfl; rw [if_neg (by omega), if_pos (by omega)]

theorem ofOffset_tblFlags (i : Fin 16) : Loc.ofOffset (0x9000 + 0x800 * i.val + 0x400) = some (.tblFlags i) := by
  rw [ofOffset_tbl i (by omega)]
  rfl

theorem ofOffset_nafDigit (j : Fin 4097) : Loc.ofOffset (0x18000 + 4 * j.val) = some (.nafDigit j) := by
  have hj : Fin.ofNat 4097 ((0x18000 + 4 * j.val - 0x18000) / 4) = j := by
    apply Fin.ext
    simp only [Fin.ofNat]
    omega
  rw [Loc.ofOffset, if_neg (by omega), if_neg (by omega), if_neg (by omega), if_neg (by omega), if_neg (by omega),
    if_neg (by omega), if_neg (by omega), if_pos (by omega), hj]

/-- The offset of a location reads back as that location. -/
theorem ofOffset_offset (l : Loc) : Loc.ofOffset l.offset = some l := by
  cases l with
  | ctxDigit f j => exact ofOffset_ctxDigit f j
  | vDigit i j => exact ofOffset_vDigit i j
  | ptDigit i c j => exact ofOffset_ptDigit i c j
  | ptFlags i => exact ofOffset_ptFlags i
  | tblDigit i c j => exact ofOffset_tblDigit i c j
  | tblFlags i => exact ofOffset_tblFlags i
  | nafDigit j => exact ofOffset_nafDigit j
  | _ => rfl

/-! ### From an aligned offset to its location and back (R71) -/

section
variable {a : Nat} {l : Loc}

theorem offset_of_csrAt (ha : a % 4 = 0) (h : csrAt a = some l) : l.offset = a := by
  unfold csrAt at h
  split at h <;> cases h <;> simp only [Loc.offset] <;> omega

theorem offset_ctxAt (ha : a % 4 = 0) (h1 : 0x800 ≤ a) (h2 : a < 0x1000) : (ctxAt a).offset = a := by
  have hblock : (a - 0x800) / 0x200 = 0 ∨ (a - 0x800) / 0x200 = 1 ∨ (a - 0x800) / 0x200 = 2 ∨
      (a - 0x800) / 0x200 = 3 := by omega
  rcases hblock with h | h | h | h <;>
    simp only [ctxAt, h, Loc.offset, CtxField.block, digitIndex, Fin.ofNat] <;> omega

theorem offset_of_ptAt (ha : a % 4 = 0) (h1 : 0x5000 ≤ a) (h2 : a < 0x9000) (h : ptAt a = some l) : l.offset = a := by
  simp only [ptAt] at h
  split_ifs at h <;> cases h <;> simp only [Loc.offset, Coord.block, digitIndex, Fin.ofNat] <;> omega

theorem offset_of_tblAt (ha : a % 4 = 0) (h1 : 0x9000 ≤ a) (h2 : a < 0x11000) (h : tblAt a = some l) :
    l.offset = a := by
  simp only [tblAt] at h
  split_ifs at h <;> cases h <;> simp only [Loc.offset, TblCoord.block, digitIndex, Fin.ofNat] <;> omega

/-- An aligned offset that reads as a location is that location's offset. -/
theorem offset_of_ofOffset (ha : a % 4 = 0) (h : Loc.ofOffset a = some l) : l.offset = a := by
  unfold Loc.ofOffset at h
  split_ifs at h
  · exact offset_of_csrAt ha h
  · cases h
    exact offset_ctxAt ha (by omega) (by omega)
  · cases h
    simp only [Loc.offset, digitIndex, Fin.ofNat]
    omega
  · exact offset_of_ptAt ha (by omega) (by omega) h
  · exact offset_of_tblAt ha (by omega) (by omega) h
  · cases h
    simp only [Loc.offset, Fin.ofNat]
    omega

end

/-! ### Bus errors (R80) -/

/-- The read-only locations that R80 lists. -/
theorem Loc.readOnly_iff (l : Loc) : l.readOnly = true ↔
    l = .id ∨ l = .hwcfg ∨ l = .ctxStat ∨ l = .ctxMp ∨ l = .nafLen ∨ (∃ f j, l = .ctxDigit f j) ∨
      (∃ i c j, l = .tblDigit i c j) ∨ (∃ i, l = .tblFlags i) ∨ ∃ j, l = .nafDigit j := by
  cases l <;> simp [Loc.readOnly]

/-- When a transaction gets ERROR, by the four reasons of R80 in order. -/
theorem busCheck_error_iff (tr : Transaction) : (∃ e, busCheck tr = .error e) ↔
    tr.size ≠ .four ∨ tr.addr.toNat % 4 ≠ 0 ∨ Loc.ofOffset tr.addr.toNat = none ∨
      (tr.kind = .write ∧ ∃ l, Loc.ofOffset tr.addr.toNat = some l ∧ l.readOnly = true) := by
  unfold busCheck
  by_cases hsize : tr.size = .four
  case neg => simp [hsize]
  by_cases halign : tr.addr.toNat % 4 = 0
  case neg => simp [hsize, halign]
  cases hloc : Loc.ofOffset tr.addr.toNat with
  | none => simp [hsize, halign]
  | some l => by_cases hro : tr.kind = .write ∧ l.readOnly = true <;> simp [hsize, halign, hro]

end Sys2Proof.Machine
end

section
/-! The words that locations read as, field by field (R44–R51, R73). -/

namespace Sys2Proof.Machine

/-! ### Fields side by side -/

theorem bitNat_eq_toNat (b : Bool) : bitNat b = b.toNat := by cases b <;> rfl

/-- Bit fields side by side, as a number. -/
theorem toNat_append_add {m n : Nat} (x : BitVec m) (y : BitVec n) : (x ++ y).toNat = x.toNat * 2 ^ n + y.toNat := by
  rw [BitVec.toNat_append, ← Nat.shiftLeft_add_eq_or_of_lt y.isLt, Nat.shiftLeft_eq]

theorem eq_append_of_toNat {m n : Nat} {w : BitVec (m + n)} {x : BitVec m} {y : BitVec n}
    (h : w.toNat = x.toNat * 2 ^ n + y.toNat) : w = x ++ y :=
  BitVec.eq_of_toNat_eq (h.trans (toNat_append_add x y).symm)

/-- FLAGS reads as MONT, AFF, INF below 29 zeros (R73). -/
theorem flagsWord_eq_append (inf aff mont : Bool) :
    flagsWord inf aff mont = 0#29 ++ BitVec.ofBool mont ++ BitVec.ofBool aff ++ BitVec.ofBool inf := by
  cases inf <;> cases aff <;> cases mont <;> rfl

/-- CTRL reads as IE below 31 zeros (R44). -/
theorem ctrlWord_eq_append (s : State) : s.ctrlWord = 0#31 ++ BitVec.ofBool s.ie := by
  unfold State.ctrlWord
  cases s.ie <;> rfl

/-- STATUS reads as ERRCODE at bits 11:8 and HAZ, ERR, DONE, BUSY at bits 3:0 (R45). -/
theorem statusWord_eq_append (s : State) :
    s.statusWord = 0#20 ++ s.errCode ++ 0#4 ++ BitVec.ofBool s.haz ++ BitVec.ofBool s.err ++ BitVec.ofBool s.done ++
      BitVec.ofBool s.busy := by
  refine eq_append_of_toNat (m := 20 + 4 + 4 + 1 + 1 + 1) (n := 1) ?_
  have hb := s.busy.toNat_le
  have hd := s.done.toNat_le
  have he := s.err.toNat_le
  have hh := s.haz.toNat_le
  simp only [State.statusWord, bitNat_eq_toNat, toNat_append_add, BitVec.toNat_ofBool, BitVec.toNat_ofNat]
  omega

/-- CURVE reads as ORD at bits 12:8 and AZERO at bit 0 (R48). -/
theorem curveWord_eq_append (s : State) :
    s.curveWord = 0#19 ++ BitVec.ofNat 5 s.ord.val ++ 0#7 ++ BitVec.ofBool s.azero := by
  refine eq_append_of_toNat (m := 19 + 5 + 7) (n := 1) ?_
  have ha := s.azero.toNat_le
  simp only [State.curveWord, bitNat_eq_toNat, toNat_append_add, BitVec.toNat_ofBool, BitVec.toNat_ofNat]
  omega

/-- While VALID = 1, CTXSTAT reads as S at bits 15:8 and 1 at bit 0 (R49). -/
theorem ctxStatWord_eq_append (s : State) :
    s.ctxStatWord = if s.ctx.valid then 0#16 ++ s.ctx.s ++ 0#7 ++ 1#1 else 0 := by
  refine congrArg (fun w => if s.ctx.valid then w else 0) (eq_append_of_toNat (m := 16 + 8 + 7) (n := 1) ?_)
  simp only [toNat_append_add, BitVec.toNat_ofNat]
  omega

/-- NAFLEN reads as its 13 bits (R51). -/
theorem nafLenWord_eq_append (s : State) : s.nafLenWord = 0#19 ++ s.nafLen := by
  refine eq_append_of_toNat (m := 19) (n := 13) ?_
  simp only [State.nafLenWord, BitVec.toNat_ofNat]
  omega

/-! ### The word without its reserved bits -/

theorem bitNat_getLsbD (w : Word) (k : Nat) : bitNat (w.getLsbD k) = w.toNat / 2 ^ k % 2 := by
  rw [bitNat_eq_toNat, BitVec.getLsbD, Nat.toNat_testBit]

/-- FLAGS after a write reads as the word's bits 2:0 (R73). -/
theorem flagsWord_getLsbD (w : Word) : flagsWord (w.getLsbD 0) (w.getLsbD 1) (w.getLsbD 2) = w &&& 7 := by
  apply BitVec.eq_of_toNat_eq
  have hand : (w &&& 7).toNat = w.toNat % 2 ^ 3 := Nat.and_two_pow_sub_one_eq_mod w.toNat 3
  rw [hand, flagsWord, BitVec.toNat_ofNat]
  simp only [bitNat_getLsbD]
  omega

/-- CTRL after a write that is no soft reset reads as the word's bit 0 (R44). -/
theorem ofNat_bitNat_getLsbD_zero (w : Word) : BitVec.ofNat 32 (bitNat (w.getLsbD 0)) = w &&& 1 := by
  apply BitVec.eq_of_toNat_eq
  have hand : (w &&& 1).toNat = w.toNat % 2 ^ 1 := Nat.and_two_pow_sub_one_eq_mod w.toNat 1
  rw [hand, BitVec.toNat_ofNat, bitNat_getLsbD]
  omega

/-- CURVE after a write reads as the word's bits 12:8 and 0 (R48). -/
theorem setCurve_curveWord (s : State) (w : Word) : (s.setCurve w).curveWord = w &&& 0x1F01 := by
  apply BitVec.eq_of_toNat_eq
  have hord : (w.toNat &&& 0x1F01) / 2 ^ 8 = w.toNat / 2 ^ 8 % 2 ^ 5 := by
    rw [Nat.and_div_two_pow]
    exact Nat.and_two_pow_sub_one_eq_mod _ 5
  have hazero : (w.toNat &&& 0x1F01) % 2 ^ 8 = w.toNat % 2 ^ 8 % 2 ^ 1 := by
    rw [Nat.and_mod_two_pow]
    exact Nat.and_two_pow_sub_one_eq_mod _ 1
  have hand : (w &&& 0x1F01).toNat = w.toNat &&& 0x1F01 := rfl
  rw [hand, State.curveWord, State.setCurve, bitNat_getLsbD, BitVec.toNat_ofNat]
  simp only
  omega

end Sys2Proof.Machine
end

section
/-! What a write to V, PT or FLAGS leaves there, digit by digit (R72, R73). -/

namespace Sys2Proof.Machine

/-! ### One digit written, read back (R72) -/

theorem digit_toNat (x : Value) (k : Nat) : (digit x k).toNat = x.toNat / 2 ^ (32 * k) % 2 ^ 32 :=
  BitVec.toNat_ofNat ..

/-- The digits from `m` on are those of the quotient by 2^(32·m). -/
theorem digit_eq_of_div_eq {x y : Value} {m k : Nat} (h : x.toNat / 2 ^ (32 * m) = y.toNat / 2 ^ (32 * m))
    (hk : m ≤ k) : digit x k = digit y k := by
  have hsplit : (2 : Nat) ^ (32 * k) = 2 ^ (32 * m) * 2 ^ (32 * (k - m)) := by
    rw [← Nat.pow_add, ← Nat.mul_add, Nat.add_sub_cancel' hk]
  rw [digit, digit, hsplit, ← Nat.div_div_eq_div_mul, h, Nat.div_div_eq_div_mul]

/-- The digits below `m` are those of the remainder modulo 2^(32·m). -/
theorem digit_eq_of_mod_eq {x y : Value} {m k : Nat} (h : x.toNat % 2 ^ (32 * m) = y.toNat % 2 ^ (32 * m))
    (hk : k < m) : digit x k = digit y k := by
  have hdvd : 2 ^ (32 * k) * 2 ^ 32 ∣ 2 ^ (32 * m) := by
    rw [← Nat.pow_add]
    exact Nat.pow_dvd_pow 2 (by omega)
  have hmod : x.toNat % (2 ^ (32 * k) * 2 ^ 32) = y.toNat % (2 ^ (32 * k) * 2 ^ 32) := by
    rw [← Nat.mod_mod_of_dvd _ hdvd, h, Nat.mod_mod_of_dvd _ hdvd]
  apply BitVec.eq_of_toNat_eq
  rw [digit_toNat, digit_toNat, ← Nat.mod_mul_right_div_self, hmod, Nat.mod_mul_right_div_self]

/-- The value after a digit is written, split at that digit's lower end. -/
theorem setDigit_split (x : Value) (j : Fin 128) (d : Word) :
    (setDigit x j.val d).toNat / 2 ^ (32 * j.val) = x.toNat / 2 ^ (32 * (j.val + 1)) * 2 ^ 32 + d.toNat ∧
      (setDigit x j.val d).toNat % 2 ^ (32 * j.val) = x.toNat % 2 ^ (32 * j.val) := by
  have hpow : (2 : Nat) ^ (32 * (j.val + 1)) = 2 ^ 32 * 2 ^ (32 * j.val) := by
    rw [← Nat.pow_add]
    exact congrArg (2 ^ ·) (by omega)
  have hsum : (setDigit x j.val d).toNat = x.toNat % 2 ^ (32 * j.val) +
      2 ^ (32 * j.val) * (x.toNat / 2 ^ (32 * (j.val + 1)) * 2 ^ 32 + d.toNat) := by
    rw [setDigit_toNat, hpow]
    ring
  have hlow : x.toNat % 2 ^ (32 * j.val) < 2 ^ (32 * j.val) := Nat.mod_lt _ (Nat.two_pow_pos _)
  rw [hsum, Nat.add_mul_div_left _ _ (Nat.two_pow_pos _), Nat.div_eq_of_lt hlow, Nat.zero_add, Nat.add_mul_mod_self_left,
    Nat.mod_eq_of_lt hlow]
  exact ⟨rfl, rfl⟩

/-- A digit written is the word, and every other digit is as before (R72). -/
theorem digit_setDigit (x : Value) (j k : Fin 128) (w : Word) :
    digit (setDigit x j.val w) k.val = if k = j then w else digit x k.val := by
  obtain ⟨hdiv, hmod⟩ := setDigit_split x j w
  rcases Nat.lt_trichotomy k.val j.val with hlt | heq | hgt
  · rw [if_neg (by omega)]
    exact digit_eq_of_mod_eq hmod hlt
  · rw [if_pos (Fin.ext heq), heq]
    apply BitVec.eq_of_toNat_eq
    rw [digit_toNat, hdiv]
    omega
  · rw [if_neg (by omega)]
    refine digit_eq_of_div_eq ?_ (Nat.succ_le_of_lt hgt)
    rw [Nat.mul_succ, Nat.pow_add, ← Nat.div_div_eq_div_mul, hdiv, ← Nat.pow_add, ← Nat.mul_succ]
    generalize x.toNat / 2 ^ (32 * (j.val + 1)) = high
    omega

theorem get_setCoordDigit (p : Point) (c c' : Coord) (j : Nat) (w : Word) :
    (p.setCoordDigit c j w).get c' = if c' = c then setDigit (p.get c) j w else p.get c' := by
  cases c <;> cases c' <;> rfl

theorem setCoordDigit_flags (p : Point) (c : Coord) (j : Nat) (w : Word) :
    (p.setCoordDigit c j w).inf = p.inf ∧ (p.setCoordDigit c j w).aff = p.aff ∧
      (p.setCoordDigit c j w).mont = p.mont := by
  cases c <;> exact ⟨rfl, rfl, rfl⟩

/-! ### One write to a register file, read back -/

/-- A digit of V written in a machine, and every digit of V read back (R72). -/
theorem digit_getV_putV (s : State) (i i' : VReg) (j j' : Fin 128) (w : Word) :
    digit ((s.putV i (setDigit (s.getV i) j.val w)).getV i') j'.val =
      if i' = i ∧ j' = j then w else digit (s.getV i') j'.val := by
  rw [State.getV_putV]
  by_cases hi : i = i'
  · subst hi
    simp only [if_true, true_and, digit_setDigit]
  · rw [if_neg hi, if_neg fun h => hi h.1.symm]

/-- A digit of a coordinate written in a machine, and every digit of PT read back (R73). -/
theorem digit_getPT_setPT (s : State) (i i' : PReg) (c c' : Coord) (j j' : Fin 128) (w : Word) :
    digit (((s.setPT i ((s.getPT i).setCoordDigit c j.val w)).getPT i').get c') j'.val =
      if i' = i ∧ c' = c ∧ j' = j then w else digit ((s.getPT i').get c') j'.val := by
  rw [State.getPT_setPT]
  by_cases hi : i = i'
  · subst hi
    rw [if_pos rfl, get_setCoordDigit]
    by_cases hc : c' = c
    · subst hc
      simp only [if_true, true_and, digit_setDigit]
    · rw [if_neg hc, if_neg fun h => hc h.2.1]
  · rw [if_neg hi, if_neg fun h => hi h.1.symm]

theorem flags_getPT_setPT (s : State) (i i' : PReg) (c : Coord) (j : Nat) (w : Word) :
    let p := (s.setPT i ((s.getPT i).setCoordDigit c j w)).getPT i'
    p.inf = (s.getPT i').inf ∧ p.aff = (s.getPT i').aff ∧ p.mont = (s.getPT i').mont := by
  rw [State.getPT_setPT]
  by_cases hi : i = i'
  · subst hi
    rw [if_pos rfl]
    exact setCoordDigit_flags ..
  · rw [if_neg hi]
    exact ⟨rfl, rfl, rfl⟩

theorem readLoc_ptFlags_withFlags (s : State) (i : PReg) (w : Word) :
    (s.setPT i ((s.getPT i).withFlags w)).readLoc (.ptFlags i) = w &&& 7 := by
  rw [State.readLoc, State.getPT_setPT, if_pos rfl]
  exact flagsWord_getLsbD w

end Sys2Proof.Machine
end

section
/-! The steps of an idle machine (R82, R83), and what any step answers (R340, U4). -/

namespace Sys2Proof.Machine

/-! ### Steps of an idle machine (R82, R83) -/

section
variable {s : State} {rest : List Event}

/-- The step of a 4-byte write at the offset of a writable location: the location's own effect, and OKAY. -/
theorem step_write_at_offset (hr : s.rstN = true) (hb : s.busy = false) {l : Loc} (hro : l.readOnly = false) {w : Word}
    (hs : s.schedule = .bus { kind := .write, addr := BitVec.ofNat 17 l.offset, size := .four, wdata := w } :: rest) :
    step s = .next { ({ s with schedule := rest } : State).writeLoc w l with response := .okayWrite } :=
  step_write_idle hr hb hs l.offset_bound.1 l.offset_bound.2 (ofOffset_offset l) hro

/-- The step of an accepted read: the location's word, and OKAY. -/
theorem step_read_idle (hr : s.rstN = true) (hb : s.busy = false) {tr : Transaction} {l : Loc}
    (hs : s.schedule = .bus tr :: rest) (hk : tr.kind = .read) (hc : busCheck tr = .ok l) :
    step s = .next { s with schedule := rest, response := .okayRead (s.readLoc l) } := by
  have hidle : ({ s with schedule := rest } : State).busy = false := hb
  rw [step_read hr hs hk hc, State.busRead, hidle]
  cases l <;> rfl

end

/-! ### What a step answers (R340, U4) -/

theorem engine_next (s : State) : ∃ t, engine s = .next t := by
  unfold engine
  split
  · exact ⟨s, rfl⟩
  · split
    · exact ⟨s, rfl⟩
    · next w _ =>
      rcases runWord_ends w s with ⟨e, h⟩ | ⟨u, h, -⟩
      exacts [⟨_, h⟩, ⟨_, h⟩]

/-- Out of reset a bus transaction answers a next state, an ERROR included. -/
theorem busAccess_next (tr : Transaction) {s : State} (hr : s.rstN = true) : ∃ t, busAccess tr s = .next t := by
  cases hc : busCheck tr with
  | error e => exact ⟨_, by simp only [busAccess, hr, hc]; rfl⟩
  | ok l => cases hk : tr.kind <;> exact ⟨_, by simp only [busAccess, hr, hc, hk]; rfl⟩

/-- A step answers a next state, or it refuses a bus transaction while `rst_n` is low. -/
theorem step_next_or_refused (s : State) :
    (∃ t, step s = .next t) ∨
      step s = .refused .busInReset ∧ s.rstN = false ∧ ∃ tr, s.schedule.head? = some (.bus tr) := by
  unfold step stepCore
  cases hs : s.schedule with
  | nil => exact .inl (engine_next s)
  | cons ev rest =>
    cases ev with
    | completes => exact .inl (engine_next _)
    | resetFalls => exact .inl ⟨_, rfl⟩
    | resetRises => exact .inl ⟨_, rfl⟩
    | bus tr =>
      cases hr : s.rstN with
      | true => exact .inl (busAccess_next tr rfl)
      | false => exact .inr ⟨by simp [perform, busAccess], rfl, tr, rfl⟩

end Sys2Proof.Machine
end

section
/-! The statements of 20_memory.md, settled. -/

open Sys2Proof Sys2Proof.Machine

/-- Settles O54: on aligned offsets, `Loc.ofOffset` and `Loc.offset` are inverse to each other. -/
theorem addressMapIsOneToOne : Obligations.AddressMapIsOneToOne :=
  ⟨fun l => ⟨l.offset_bound.1, l.offset_bound.2, ofOffset_offset l⟩, fun _ _ => offset_of_ofOffset, rfl,
    fun _ => ⟨rfl, rfl, rfl, rfl⟩, fun _ _ => rfl, fun _ _ => ⟨rfl, rfl, rfl⟩, fun _ => rfl,
    fun _ _ => ⟨rfl, rfl⟩, fun _ => rfl, fun _ => rfl⟩

/-- Settles O55, by the four reasons of R80. -/
theorem busErrorsChangeNothing : Obligations.BusErrorsChangeNothing := by
  refine ⟨fun tr => ?_, fun _ _ _ _ => step_error⟩
  simp only [← Loc.readOnly_iff]
  exact busCheck_error_iff tr

/-- Settles O56: each writable location's step, and what its own effect then reads as. -/
theorem digitWriteThenRead : Obligations.DigitWriteThenRead := by
  refine ⟨digit_setDigit, fun _ _ _ => rfl, fun _ _ _ _ => rfl, fun _ _ => flagsWord_eq_append .., ?_⟩
  intro s w rest hr hb
  refine ⟨fun i j hs => ?_, fun i c j hs => ?_, fun i hs => ?_, fun hs => ?_, fun hs hw => ?_⟩
  · exact ⟨_, step_write_at_offset (l := .vDigit i j) hr hb rfl hs, fun i' j' => digit_getV_putV s i i' j j' w⟩
  · have hstep := step_write_at_offset (l := .ptDigit i c j) (w := w) (rest := rest) hr hb rfl (by cases c <;> exact hs)
    exact ⟨_, hstep, fun i' c' j' => digit_getPT_setPT s i i' c c' j j' w,
      fun i' => flags_getPT_setPT s i i' c j.val w⟩
  · exact ⟨_, step_write_at_offset (l := .ptFlags i) hr hb rfl hs, readLoc_ptFlags_withFlags s i w,
      (State.getPT_setPT s i i _).trans (if_pos rfl),
      fun i' hi' => (State.getPT_setPT s i i' _).trans (if_neg hi'.symm)⟩
  · exact ⟨_, rfl, step_write_at_offset (l := .curve) hr hb rfl hs, setCurve_curveWord s w⟩
  · refine ⟨(step_write_at_offset (l := .ctrl) hr hb rfl hs).trans ?_, ofNat_bitNat_getLsbD_zero w⟩
    rw [State.writeLoc, State.writeCtrl, hw]
    rfl

/-- Settles O53, from the two answers that a step can give. -/
theorem onlyBusInResetIsRefused : Obligations.OnlyBusInResetIsRefused := by
  refine ⟨fun s hr => ?_, fun s r h => ?_⟩
  · rcases step_next_or_refused s with h | ⟨-, hr', -⟩
    · exact h
    · exact absurd hr (by simp [hr'])
  · rcases step_next_or_refused s with ⟨t, ht⟩ | ⟨hs, hr, htr⟩
    · cases ht.symm.trans h
    · cases hs.symm.trans h
      exact ⟨rfl, hr, htr⟩

/-- Settles O57: the words are those of the accessors, field by field. -/
theorem idleReadHasNoSideEffect : Obligations.IdleReadHasNoSideEffect :=
  ⟨fun _ _ _ _ hr hb hs hk hc => step_read_idle hr hb hs hk hc, fun s =>
    ⟨rfl, rfl, rfl, ctrlWord_eq_append s, statusWord_eq_append s, curveWord_eq_append s, ctxStatWord_eq_append s, rfl,
      nafLenWord_eq_append s, fun _ => ⟨rfl, rfl, rfl, rfl⟩, fun _ _ => rfl, fun _ _ => ⟨rfl, rfl, rfl⟩,
      fun _ => flagsWord_eq_append .., fun _ _ => ⟨rfl, rfl⟩, fun _ => flagsWord_eq_append .., fun _ => rfl⟩⟩

end

section
/-! Words as field tuples (R100), and membership in a row of the opcode map field by field (R103). -/

namespace Sys2Proof

/-! ### Words and their fields (R100, R106) -/

theorem fieldsOf_fit (w : Word) : (fieldsOf w).Fit :=
  ⟨Nat.mod_lt _ (by decide), Nat.mod_lt _ (by decide), Nat.mod_lt _ (by decide), Nat.mod_lt _ (by decide),
    Nat.mod_lt _ (by decide)⟩

theorem enc_toNat {f : Fields} (h : f.Fit) :
    (enc f).toNat = f.op * 2 ^ 26 + f.rd * 2 ^ 21 + f.ra * 2 ^ 16 + f.rb * 2 ^ 11 + f.fn := by
  obtain ⟨hop, hrd, hra, hrb, hfn⟩ := h
  rw [enc, BitVec.toNat_ofNat]
  omega

/-- A word is the encoding of its own fields. -/
theorem enc_fieldsOf (w : Word) : enc (fieldsOf w) = w := by
  apply BitVec.eq_of_toNat_eq
  rw [enc_toNat (fieldsOf_fit w)]
  simp only [fieldsOf, bits]
  omega

theorem fieldsOf_injective : Function.Injective fieldsOf := Function.LeftInverse.injective enc_fieldsOf

/-- The bitwise AND of two field tuples. -/
def Fields.and (f m : Fields) : Fields :=
  { op := f.op &&& m.op, rd := f.rd &&& m.rd, ra := f.ra &&& m.ra, rb := f.rb &&& m.rb, fn := f.fn &&& m.fn }

theorem bits_and (w m : Word) (lo width : Nat) : bits (w &&& m) lo width = bits w lo width &&& bits m lo width := by
  rw [bits, BitVec.toNat_and, Nat.and_div_two_pow, Nat.and_mod_two_pow, bits, bits]

theorem fieldsOf_and (w m : Word) : fieldsOf (w &&& m) = (fieldsOf w).and (fieldsOf m) := by
  simp only [fieldsOf, bits_and, Fields.and]

/-! ### Masks (R103) -/

/-- A number of `n` bits under a mask of `n` ones. -/
theorem and_ones {x : Nat} (n : Nat) (h : x < 2 ^ n) : x &&& (2 ^ n - 1) = x := by
  rw [Nat.and_two_pow_sub_one_eq_mod, Nat.mod_eq_of_lt h]

theorem and_31 {x : Nat} (h : x < 32) : x &&& 31 = x := and_ones 5 h

theorem and_63 {x : Nat} (h : x < 64) : x &&& 63 = x := and_ones 6 h

theorem and_2047 {x : Nat} (h : x < 2048) : x &&& 2047 = x := and_ones 11 h

/-- The reserved FN bits of NAF and PTAB (R102). -/
theorem and_7F0_eq_zero_iff {x : Nat} (h : x < 2048) : x &&& 0x7F0 = 0 ↔ x / 16 = 0 := by
  have hdiv : (x &&& 0x7F0) / 2 ^ 4 = x / 2 ^ 4 % 2 ^ 7 := by
    rw [Nat.and_div_two_pow]
    exact Nat.and_two_pow_sub_one_eq_mod _ 7
  have hmod : (x &&& 0x7F0) % 2 ^ 4 = 0 := by
    rw [Nat.and_mod_two_pow]
    exact Nat.and_zero _
  omega

/-- The reserved FN bits of BINV (R102). -/
theorem and_7C0_eq_zero_iff {x : Nat} (h : x < 2048) : x &&& 0x7C0 = 0 ↔ x / 64 = 0 := by
  have hdiv : (x &&& 0x7C0) / 2 ^ 6 = x / 2 ^ 6 % 2 ^ 5 := by
    rw [Nat.and_div_two_pow]
    exact Nat.and_two_pow_sub_one_eq_mod _ 5
  have hmod : (x &&& 0x7C0) % 2 ^ 6 = 0 := by
    rw [Nat.and_mod_two_pow]
    exact Nat.and_zero _
  omega

/-- The reserved FN bits of SMUL (R102). -/
theorem and_7DF_eq_zero_iff {x : Nat} (h : x < 2048) : x &&& 0x7DF = 0 ↔ x % 32 = 0 ∧ x / 64 = 0 := by
  have hdiv : (x &&& 0x7DF) / 2 ^ 6 = x / 2 ^ 6 % 2 ^ 5 := by
    rw [Nat.and_div_two_pow]
    exact Nat.and_two_pow_sub_one_eq_mod _ 5
  have hmod : (x &&& 0x7DF) % 2 ^ 6 = x % 2 ^ 6 % 2 ^ 5 := by
    rw [Nat.and_mod_two_pow]
    exact Nat.and_two_pow_sub_one_eq_mod _ 5
  omega

/-! ### Rows (R103) -/

/-- The OP field that a row asks for. -/
def Row.op (r : Row) : Nat := (fieldsOf r.pattern).op

theorem Row.admits_iff (r : Row) (w : Word) :
    r.admits w = true ↔ (fieldsOf w).and (fieldsOf r.mask) = fieldsOf r.pattern := by
  rw [Row.admits, beq_iff_eq, ← fieldsOf_and, fieldsOf_injective.eq_iff]

/-- The opcodes of the map's rows, in order. -/
theorem opcodeMap_op : opcodeMap.map Row.op =
    [0x00, 0x01, 0x02, 0x03, 0x04, 0x08, 0x09, 0x10, 0x11, 0x12, 0x13, 0x14, 0x20, 0x21, 0x22, 0x23, 0x24, 0x25, 0x26,
      0x27, 0x28, 0x30, 0x31, 0x32] := by
  decide

/-- Every row asks for its opcode in full and for zeros under the rest of its mask. -/
theorem opcodeMap_mask_pattern :
    ∀ r ∈ opcodeMap, (fieldsOf r.mask).op = 63 ∧ fieldsOf r.pattern = ⟨r.op, 0, 0, 0, 0⟩ := by
  decide

/-- No two rows have one opcode. -/
theorem row_eq_of_op_eq {r r' : Row} (hr : r ∈ opcodeMap) (hr' : r' ∈ opcodeMap) (h : r.op = r'.op) : r = r' := by
  have hnodup : (opcodeMap.map Row.op).Nodup := by rw [opcodeMap_op]; decide
  exact List.inj_on_of_nodup_map hnodup hr hr' h

/-- For a word of the row's opcode the row's mask asks for zeros in the fields below OP. -/
theorem Row.admits_iff_zeros {r : Row} {w : Word} {rd ra rb fn : Nat} (hr : r ∈ opcodeMap)
    (hw : fieldsOf w = ⟨r.op, rd, ra, rb, fn⟩) :
    r.admits w = true ↔ rd &&& (fieldsOf r.mask).rd = 0 ∧ ra &&& (fieldsOf r.mask).ra = 0 ∧
      rb &&& (fieldsOf r.mask).rb = 0 ∧ fn &&& (fieldsOf r.mask).fn = 0 := by
  obtain ⟨hmask, hpat⟩ := opcodeMap_mask_pattern r hr
  have hfit := fieldsOf_fit w
  rw [hw] at hfit
  rw [Row.admits_iff, hw, hpat, Fields.and, hmask, Fields.mk.injEq]
  exact and_iff_right (and_63 hfit.1)

/-- A row admits only words of its opcode. -/
theorem op_eq_of_admits {r : Row} {w : Word} (hr : r ∈ opcodeMap) (h : r.admits w = true) : (fieldsOf w).op = r.op := by
  obtain ⟨hmask, hpat⟩ := opcodeMap_mask_pattern r hr
  have hop : (fieldsOf w).op &&& (fieldsOf r.mask).op = (fieldsOf r.pattern).op :=
    congrArg Fields.op ((r.admits_iff w).mp h)
  rw [hmask, hpat] at hop
  exact (and_63 (fieldsOf_fit w).1).symm.trans hop

end Sys2Proof
end

section
/-! How a word of each opcode decodes: first by the mask of the opcode's row, then by its operands (R103, R105). -/

namespace Sys2Proof.Machine

/-! ### Reading the operands (R101, R105) -/

/-- `i` is a well-formed command called `name` with the fields `f`. -/
def Spells (i : Instr) (name : String) (f : Fields) : Prop := mnemonic i = name ∧ WellFormed i = true ∧ fieldsFor i = f

/-- `k` is what R105 asks once the encoding check has passed: E_OPERAND when an operand of the fields `f` is out of its class
or range, and otherwise a command called `name` with exactly those fields. -/
def Reads (name : String) (f : Fields) (k : Except CmdError Instr) : Prop :=
  (operandFault f = true ∧ k = .error .operand) ∨ (operandFault f = false ∧ ∃ i, k = .ok i ∧ Spells i name f)

section
variable {name : String} {f : Fields}

theorem Reads.ok {i : Instr} (hf : operandFault f = false) (hi : Spells i name f) : Reads name f (.ok i) :=
  .inr ⟨hf, i, rfl, hi⟩

theorem Reads.fault (hf : operandFault f = true) : Reads name f (.error .operand) := .inl ⟨hf, rfl⟩

theorem vreg_of_lt {n : Nat} (h : n < 32) : ((vreg n : VReg) : Nat) = n := Nat.mod_eq_of_lt h

theorem preg_of_lt {n : Nat} (h : n < 8) : preg n = .ok ⟨n, h⟩ := dif_pos h

theorem preg_of_le {n : Nat} (h : 8 ≤ n) : preg n = .error .operand := dif_neg (Nat.not_lt.mpr h)

/-- Two point registers are read when both indices are below 8. -/
theorem Reads.onPP {c : PReg → PReg → Instr} (hf : operandFault f = (decide (8 ≤ f.rd) || decide (8 ≤ f.ra)))
    (hc : ∀ d a : PReg, f.rd = d → f.ra = a → Spells (c d a) name f) : Reads name f (onPP f c) := by
  unfold Sys2Proof.onPP
  by_cases hd : f.rd < 8
  case neg =>
    rw [preg_of_le (Nat.not_lt.mp hd)]
    exact .fault (by simp [hf, Nat.not_lt.mp hd])
  by_cases ha : f.ra < 8
  case neg =>
    rw [preg_of_lt hd, preg_of_le (Nat.not_lt.mp ha)]
    exact .fault (by simp [hf, Nat.not_lt.mp ha])
  rw [preg_of_lt hd, preg_of_lt ha]
  exact .ok (by simp [hf, hd, ha]) (hc _ _ rfl rfl)

/-- Three point registers are read when all three indices are below 8. -/
theorem Reads.onPPP {c : PReg → PReg → PReg → Instr}
    (hf : operandFault f = (decide (8 ≤ f.rd) || decide (8 ≤ f.ra) || decide (8 ≤ f.rb)))
    (hc : ∀ d a b : PReg, f.rd = d → f.ra = a → f.rb = b → Spells (c d a b) name f) : Reads name f (onPPP f c) := by
  unfold Sys2Proof.onPPP
  by_cases hd : f.rd < 8
  case neg =>
    rw [preg_of_le (Nat.not_lt.mp hd)]
    exact .fault (by simp [hf, Nat.not_lt.mp hd])
  by_cases ha : f.ra < 8
  case neg =>
    rw [preg_of_lt hd, preg_of_le (Nat.not_lt.mp ha)]
    exact .fault (by simp [hf, Nat.not_lt.mp ha])
  by_cases hb : f.rb < 8
  case neg =>
    rw [preg_of_lt hd, preg_of_lt ha, preg_of_le (Nat.not_lt.mp hb)]
    exact .fault (by simp [hf, Nat.not_lt.mp hb])
  rw [preg_of_lt hd, preg_of_lt ha, preg_of_lt hb]
  exact .ok (by simp [hf, hd, ha, hb]) (hc _ _ _ rfl rfl rfl)

end

/-! ### The masks of the rows (R103) -/

section
variable {r : Row} {w : Word} {op rd ra rb fn : Nat}

theorem fit_of_fieldsOf (hw : fieldsOf w = ⟨op, rd, ra, rb, fn⟩) : rd < 32 ∧ ra < 32 ∧ rb < 32 ∧ fn < 2048 := by
  have hfit := fieldsOf_fit w
  rw [hw] at hfit
  exact hfit.2

variable (hr : r ∈ opcodeMap) (hw : fieldsOf w = ⟨r.op, rd, ra, rb, fn⟩)

include hr hw

/-- The mask of the rows that leave RB and FN unused. -/
theorem admits_iff_rb_fn (hm : fieldsOf r.mask = ⟨63, 0, 0, 31, 2047⟩) :
    r.admits w = true ↔ (rb == 0 && fn == 0) = true := by
  obtain ⟨-, -, hrb, hfn⟩ := fit_of_fieldsOf hw
  simp [r.admits_iff_zeros hr hw, hm, and_31 hrb, and_2047 hfn]

/-- The mask of the rows that leave FN unused. -/
theorem admits_iff_fn (hm : fieldsOf r.mask = ⟨63, 0, 0, 0, 2047⟩) : r.admits w = true ↔ (fn == 0) = true := by
  obtain ⟨-, -, -, hfn⟩ := fit_of_fieldsOf hw
  simp [r.admits_iff_zeros hr hw, hm, and_2047 hfn]

/-- NOP's mask. -/
theorem admits_iff_all (hm : fieldsOf r.mask = ⟨63, 31, 31, 31, 2047⟩) :
    r.admits w = true ↔ (rd == 0 && ra == 0 && rb == 0 && fn == 0) = true := by
  obtain ⟨hrd, hra, hrb, hfn⟩ := fit_of_fieldsOf hw
  simp [r.admits_iff_zeros hr hw, hm, and_31 hrd, and_31 hra, and_31 hrb, and_2047 hfn, and_assoc]

/-- MCTX's mask. -/
theorem admits_iff_rd_rb_fn (hm : fieldsOf r.mask = ⟨63, 31, 0, 31, 2047⟩) :
    r.admits w = true ↔ (rd == 0 && rb == 0 && fn == 0) = true := by
  obtain ⟨hrd, -, hrb, hfn⟩ := fit_of_fieldsOf hw
  simp [r.admits_iff_zeros hr hw, hm, and_31 hrd, and_31 hrb, and_2047 hfn, and_assoc]

/-- The mask of the rows with a width at FN[3:0]. -/
theorem admits_iff_width (hm : fieldsOf r.mask = ⟨63, 31, 0, 31, 0x7F0⟩) :
    r.admits w = true ↔ (rd == 0 && rb == 0 && fn / 16 == 0) = true := by
  obtain ⟨hrd, -, hrb, hfn⟩ := fit_of_fieldsOf hw
  simp only [r.admits_iff_zeros hr hw, hm, and_31 hrd, and_31 hrb, and_7F0_eq_zero_iff hfn, Nat.and_zero, true_and,
    Bool.and_eq_true, beq_iff_eq, and_assoc]

/-- BINV's mask. -/
theorem admits_iff_count_domain (hm : fieldsOf r.mask = ⟨63, 0, 0, 31, 0x7C0⟩) :
    r.admits w = true ↔ (rb == 0 && fn / 64 == 0) = true := by
  obtain ⟨-, -, hrb, hfn⟩ := fit_of_fieldsOf hw
  simp only [r.admits_iff_zeros hr hw, hm, and_31 hrb, and_7C0_eq_zero_iff hfn, Nat.and_zero, true_and,
    Bool.and_eq_true, beq_iff_eq]

/-- SMUL's mask. -/
theorem admits_iff_domain (hm : fieldsOf r.mask = ⟨63, 0, 0, 0, 0x7DF⟩) :
    r.admits w = true ↔ (fn % 32 == 0 && fn / 64 == 0) = true := by
  obtain ⟨-, -, -, hfn⟩ := fit_of_fieldsOf hw
  simp only [r.admits_iff_zeros hr hw, hm, and_7DF_eq_zero_iff hfn, Nat.and_zero, true_and, Bool.and_eq_true,
    beq_iff_eq]

end

/-! ### One opcode (R103) -/

/-- The word `w` decodes as the row `r` says: E_ILLEGAL unless the row admits it, and otherwise by its operands. -/
def Governs (r : Row) (w : Word) : Prop :=
  ∃ k, decode w = legal (r.admits w) k ∧ (r.admits w = true → Reads r.mnemonic (fieldsOf w) k)

section
variable {r : Row} {w : Word} {rd ra rb fn : Nat} (hr : r ∈ opcodeMap) (hw : fieldsOf w = ⟨r.op, rd, ra, rb, fn⟩)

include hw in
/-- The encoding check that `decodeFields` makes for the row's opcode is the row's mask. -/
theorem Governs.of_legal {ok : Bool} {k : Except CmdError Instr} (hok : r.admits w = true ↔ ok = true)
    (hd : decodeFields ⟨r.op, rd, ra, rb, fn⟩ = legal ok k)
    (hk : ok = true → Reads r.mnemonic ⟨r.op, rd, ra, rb, fn⟩ k) : Governs r w := by
  refine ⟨k, ?_, fun h => hw ▸ hk (hok.mp h)⟩
  rw [decode, hw, hd, Bool.eq_iff_iff.mpr hok]

include hr hw

/-- The rows with two value registers. -/
theorem Governs.vv {c : VReg → VReg → Instr} (hm : fieldsOf r.mask = ⟨63, 0, 0, 31, 2047⟩)
    (hd : decodeFields ⟨r.op, rd, ra, rb, fn⟩ = legal (rb == 0 && fn == 0) (.ok (c (vreg rd) (vreg ra))))
    (hf : operandFault ⟨r.op, rd, ra, rb, fn⟩ = false)
    (hc : ∀ d a : VReg, Spells (c d a) r.mnemonic ⟨r.op, d, a, 0, 0⟩) : Governs r w := by
  refine .of_legal hw (admits_iff_rb_fn hr hw hm) hd fun hz => .ok hf ?_
  obtain ⟨hrd, hra, -, -⟩ := fit_of_fieldsOf hw
  obtain ⟨rfl, rfl⟩ : rb = 0 ∧ fn = 0 := by simpa using hz
  simpa only [vreg_of_lt hrd, vreg_of_lt hra] using hc (vreg rd) (vreg ra)

/-- The rows with three value registers. -/
theorem Governs.vvv {c : VReg → VReg → VReg → Instr} (hm : fieldsOf r.mask = ⟨63, 0, 0, 0, 2047⟩)
    (hd : decodeFields ⟨r.op, rd, ra, rb, fn⟩ = legal (fn == 0) (.ok (c (vreg rd) (vreg ra) (vreg rb))))
    (hf : operandFault ⟨r.op, rd, ra, rb, fn⟩ = false)
    (hc : ∀ d a b : VReg, Spells (c d a b) r.mnemonic ⟨r.op, d, a, b, 0⟩) : Governs r w := by
  refine .of_legal hw (admits_iff_fn hr hw hm) hd fun hz => .ok hf ?_
  obtain ⟨hrd, hra, hrb, -⟩ := fit_of_fieldsOf hw
  obtain rfl : fn = 0 := by simpa using hz
  simpa only [vreg_of_lt hrd, vreg_of_lt hra, vreg_of_lt hrb] using hc (vreg rd) (vreg ra) (vreg rb)

/-- The rows with two point registers. -/
theorem Governs.pp {c : PReg → PReg → Instr} (hm : fieldsOf r.mask = ⟨63, 0, 0, 31, 2047⟩)
    (hd : decodeFields ⟨r.op, rd, ra, rb, fn⟩ = legal (rb == 0 && fn == 0) (onPP ⟨r.op, rd, ra, rb, fn⟩ c))
    (hf : operandFault ⟨r.op, rd, ra, rb, fn⟩ = (decide (8 ≤ rd) || decide (8 ≤ ra)))
    (hc : ∀ d a : PReg, Spells (c d a) r.mnemonic ⟨r.op, d, a, 0, 0⟩) : Governs r w := by
  refine .of_legal hw (admits_iff_rb_fn hr hw hm) hd fun hz => .onPP hf ?_
  obtain ⟨rfl, rfl⟩ : rb = 0 ∧ fn = 0 := by simpa using hz
  rintro d a rfl rfl
  exact hc d a

/-- The rows with three point registers. -/
theorem Governs.ppp {c : PReg → PReg → PReg → Instr} (hm : fieldsOf r.mask = ⟨63, 0, 0, 0, 2047⟩)
    (hd : decodeFields ⟨r.op, rd, ra, rb, fn⟩ = legal (fn == 0) (onPPP ⟨r.op, rd, ra, rb, fn⟩ c))
    (hf : operandFault ⟨r.op, rd, ra, rb, fn⟩ = (decide (8 ≤ rd) || decide (8 ≤ ra) || decide (8 ≤ rb)))
    (hc : ∀ d a b : PReg, Spells (c d a b) r.mnemonic ⟨r.op, d, a, b, 0⟩) : Governs r w := by
  refine .of_legal hw (admits_iff_fn hr hw hm) hd fun hz => .onPPP hf ?_
  obtain rfl : fn = 0 := by simpa using hz
  rintro d a b rfl rfl rfl
  exact hc d a b

end

/-- A count or a width in the low bits of FN and the domain flag at FN[5], put together again (R102). -/
theorem domainBit_add (fn : Nat) (h : fn / 64 = 0) : domainBit (fn / 32 % 2 == 1) + fn % 32 = fn := by
  have h0 : domainBit false = 0 := rfl
  have h1 : domainBit true = 32 := rfl
  rcases Nat.mod_two_eq_zero_or_one (fn / 32) with hb | hb
  · rw [hb, beq_eq_false_iff_ne.mpr Nat.zero_ne_one, h0]
    omega
  · rw [hb, beq_self_eq_true, h1]
    omega

/-! ### The rows one by one (R103) -/

section
variable {w : Word} {rd ra rb fn : Nat}

theorem governs_nop (hr : ⟨"NOP", 0x00000000, 0xFFFFFFFF⟩ ∈ opcodeMap) (hw : fieldsOf w = ⟨0x00, rd, ra, rb, fn⟩) :
    Governs ⟨"NOP", 0x00000000, 0xFFFFFFFF⟩ w := by
  refine .of_legal hw (admits_iff_all hr hw rfl) rfl fun hz => .ok rfl ?_
  obtain ⟨⟨⟨rfl, rfl⟩, rfl⟩, rfl⟩ : ((rd = 0 ∧ ra = 0) ∧ rb = 0) ∧ fn = 0 := by simpa using hz
  exact ⟨rfl, rfl, rfl⟩

theorem governs_mctx (hr : ⟨"MCTX", 0x40000000, 0xFFE0FFFF⟩ ∈ opcodeMap) (hw : fieldsOf w = ⟨0x10, rd, ra, rb, fn⟩) :
    Governs ⟨"MCTX", 0x40000000, 0xFFE0FFFF⟩ w := by
  refine .of_legal hw (admits_iff_rd_rb_fn hr hw rfl) rfl fun hz => .ok rfl ⟨rfl, rfl, ?_⟩
  obtain ⟨-, hra, -, -⟩ := fit_of_fieldsOf hw
  obtain ⟨⟨rfl, rfl⟩, rfl⟩ : (rd = 0 ∧ rb = 0) ∧ fn = 0 := by simpa using hz
  simp only [fieldsFor, vreg_of_lt hra]
  rfl

theorem governs_binv (hr : ⟨"BINV", 0x24000000, 0xFC00FFC0⟩ ∈ opcodeMap) (hw : fieldsOf w = ⟨0x09, rd, ra, rb, fn⟩) :
    Governs ⟨"BINV", 0x24000000, 0xFC00FFC0⟩ w := by
  refine .of_legal hw (admits_iff_count_domain hr hw rfl) rfl fun hz => ?_
  obtain ⟨hrd, hra, -, -⟩ := fit_of_fieldsOf hw
  obtain ⟨rfl, hfn⟩ : rb = 0 ∧ fn / 64 = 0 := by simpa using hz
  have hn : fn % 32 < 32 := Nat.mod_lt _ (by decide)
  have hwf : WellFormed (.binv (vreg rd) (vreg ra) (vreg (fn % 32)) (fn / 32 % 2 == 1)) =
      !operandFault ⟨0x09, rd, ra, 0, fn⟩ := by
    simp [WellFormed, rangeFits, operandFault, vreg_of_lt hrd, vreg_of_lt hra, vreg_of_lt hn, ← decide_not]
  cases hf : operandFault ⟨0x09, rd, ra, 0, fn⟩ with
  | true =>
    simp only [hwf, hf]
    exact .fault hf
  | false =>
    simp only [hwf, hf]
    refine .ok hf ⟨rfl, by rw [hwf, hf]; rfl, ?_⟩
    simp only [fieldsFor, vreg_of_lt hrd, vreg_of_lt hra, vreg_of_lt hn, domainBit_add fn hfn]
    rfl

theorem governs_naf (hr : ⟨"NAF", 0xC0000000, 0xFFE0FFF0⟩ ∈ opcodeMap) (hw : fieldsOf w = ⟨0x30, rd, ra, rb, fn⟩) :
    Governs ⟨"NAF", 0xC0000000, 0xFFE0FFF0⟩ w := by
  refine .of_legal hw (admits_iff_width hr hw rfl) rfl fun hz => .ok rfl ⟨rfl, rfl, ?_⟩
  obtain ⟨-, hra, -, -⟩ := fit_of_fieldsOf hw
  obtain ⟨⟨rfl, rfl⟩, hfn⟩ : (rd = 0 ∧ rb = 0) ∧ fn / 16 = 0 := by simpa using hz
  have hwidth : fn % 16 = fn := by omega
  simp only [fieldsFor, vreg_of_lt hra, Fin.ofNat, hwidth]
  rfl

theorem governs_ptab (hr : ⟨"PTAB", 0xC4000000, 0xFFE0FFF0⟩ ∈ opcodeMap) (hw : fieldsOf w = ⟨0x31, rd, ra, rb, fn⟩) :
    Governs ⟨"PTAB", 0xC4000000, 0xFFE0FFF0⟩ w := by
  refine .of_legal hw (admits_iff_width hr hw rfl) rfl fun hz => ?_
  obtain ⟨⟨rfl, rfl⟩, hfn⟩ : (rd = 0 ∧ rb = 0) ∧ fn / 16 = 0 := by simpa using hz
  have hf : operandFault ⟨0x31, 0, ra, 0, fn⟩ = decide (8 ≤ ra) := rfl
  by_cases ha : ra < 8
  · have hwidth : fn % 16 = fn := by omega
    simp only [preg_of_lt ha]
    refine .ok (hf.trans (by simp [ha])) ⟨rfl, rfl, ?_⟩
    simp only [fieldsFor, Fin.ofNat, hwidth]
    rfl
  · simp only [preg_of_le (Nat.not_lt.mp ha)]
    exact .fault (hf.trans (by simp [Nat.not_lt.mp ha]))

theorem governs_smul (hr : ⟨"SMUL", 0xC8000000, 0xFC0007DF⟩ ∈ opcodeMap) (hw : fieldsOf w = ⟨0x32, rd, ra, rb, fn⟩) :
    Governs ⟨"SMUL", 0xC8000000, 0xFC0007DF⟩ w := by
  refine .of_legal (k := onPP ⟨0x32, rd, ra, rb, fn⟩ fun d a => .smul d a (vreg rb) (fn / 32 % 2 == 1)) hw
    (admits_iff_domain hr hw rfl) rfl fun hz => .onPP rfl ?_
  obtain ⟨-, -, hrb, -⟩ := fit_of_fieldsOf hw
  obtain ⟨hlow, hhigh⟩ : fn % 32 = 0 ∧ fn / 64 = 0 := by simpa using hz
  have hdomain : domainBit (fn / 32 % 2 == 1) = fn := by simpa [hlow] using domainBit_add fn hhigh
  rintro d a rfl rfl
  refine ⟨rfl, rfl, ?_⟩
  simp only [fieldsFor, vreg_of_lt hrb, hdomain]
  rfl

end

/-- Every row of the map says how the words of its opcode decode. -/
theorem governs {r : Row} {w : Word} (hr : r ∈ opcodeMap) (ho : (fieldsOf w).op = r.op) : Governs r w := by
  obtain ⟨rd, ra, rb, fn, hw⟩ : ∃ rd ra rb fn, fieldsOf w = ⟨r.op, rd, ra, rb, fn⟩ := ⟨_, _, _, _, by rw [← ho]⟩
  have hrow := hr
  simp only [opcodeMap, List.cons_append, List.nil_append, List.mem_cons, List.not_mem_nil, or_false] at hrow
  rcases hrow with rfl | rfl | rfl | rfl | rfl | rfl | rfl | rfl | rfl | rfl | rfl | rfl | rfl | rfl | rfl | rfl | rfl |
    rfl | rfl | rfl | rfl | rfl | rfl | rfl
  · exact governs_nop hr hw
  · exact .vv (c := .mov) hr hw rfl rfl rfl fun _ _ => ⟨rfl, rfl, rfl⟩
  · exact .vvv (c := .madd) hr hw rfl rfl rfl fun _ _ _ => ⟨rfl, rfl, rfl⟩
  · exact .vvv (c := .msub) hr hw rfl rfl rfl fun _ _ _ => ⟨rfl, rfl, rfl⟩
  · exact .vv (c := .mred) hr hw rfl rfl rfl fun _ _ => ⟨rfl, rfl, rfl⟩
  · exact .vvv (c := .minv) hr hw rfl rfl rfl fun _ _ _ => ⟨rfl, rfl, rfl⟩
  · exact governs_binv hr hw
  · exact governs_mctx hr hw
  · exact .vvv (c := .mmul) hr hw rfl rfl rfl fun _ _ _ => ⟨rfl, rfl, rfl⟩
  · exact .vv (c := .mtom) hr hw rfl rfl rfl fun _ _ => ⟨rfl, rfl, rfl⟩
  · exact .vv (c := .mfrom) hr hw rfl rfl rfl fun _ _ => ⟨rfl, rfl, rfl⟩
  · exact .vvv (c := .mexp) hr hw rfl rfl rfl fun _ _ _ => ⟨rfl, rfl, rfl⟩
  · exact .pp (c := .pmov) hr hw rfl rfl rfl fun _ _ => ⟨rfl, rfl, rfl⟩
  · exact .pp (c := .pdbl) hr hw rfl rfl rfl fun _ _ => ⟨rfl, rfl, rfl⟩
  · exact .ppp (c := .pmadd) hr hw rfl rfl rfl fun _ _ _ => ⟨rfl, rfl, rfl⟩
  · exact .ppp (c := .pmdadd) hr hw rfl rfl rfl fun _ _ _ => ⟨rfl, rfl, rfl⟩
  · exact .pp (c := .pneg) hr hw rfl rfl rfl fun _ _ => ⟨rfl, rfl, rfl⟩
  · exact .pp (c := .ptoj) hr hw rfl rfl rfl fun _ _ => ⟨rfl, rfl, rfl⟩
  · exact .pp (c := .ptoa) hr hw rfl rfl rfl fun _ _ => ⟨rfl, rfl, rfl⟩
  · exact .pp (c := .ptom) hr hw rfl rfl rfl fun _ _ => ⟨rfl, rfl, rfl⟩
  · exact .pp (c := .pfrom) hr hw rfl rfl rfl fun _ _ => ⟨rfl, rfl, rfl⟩
  · exact governs_naf hr hw
  · exact governs_ptab hr hw
  · exact governs_smul hr hw

/-! ### Any word (R104, R105) -/

/-- A word whose opcode no row has is undefined (R104). -/
theorem decode_of_op_undefined {w : Word} (h : (fieldsOf w).op ∉ opcodeMap.map Row.op) :
    decode w = .error .illegal := by
  rw [opcodeMap_op] at h
  unfold decode decodeFields
  split
  case h_25 => rfl
  all_goals
    next ho =>
      rw [ho] at h
      exact absurd h (by decide)

/-- What a word decodes to: E_ILLEGAL when no row admits it, and otherwise what the one row that does asks of its
operands. -/
theorem decode_cases (w : Word) :
    (decode w = .error .illegal ∧ ∀ r ∈ opcodeMap, r.admits w = false) ∨
      ∃ r ∈ opcodeMap, r.admits w = true ∧ Reads r.mnemonic (fieldsOf w) (decode w) := by
  by_cases hop : (fieldsOf w).op ∈ opcodeMap.map Row.op
  case neg =>
    refine .inl ⟨decode_of_op_undefined hop, fun r hr => Bool.eq_false_iff.mpr fun h => hop ?_⟩
    rw [op_eq_of_admits hr h]
    exact List.mem_map_of_mem hr
  obtain ⟨r, hr, ho⟩ := List.mem_map.mp hop
  obtain ⟨k, hd, hk⟩ := governs hr ho.symm
  cases ha : r.admits w with
  | true =>
    rw [ha] at hd
    exact .inr ⟨r, hr, ha, hd ▸ hk ha⟩
  | false =>
    rw [ha] at hd
    refine .inl ⟨hd, fun r' hr' => Bool.eq_false_iff.mpr fun h => ?_⟩
    have hrr : r' = r := row_eq_of_op_eq hr' hr ((op_eq_of_admits hr' h).symm.trans ho.symm)
    rw [hrr, ha] at h
    cases h

/-- No word is admitted by two rows (R103). -/
theorem row_eq_of_admits {w : Word} {r r' : Row} (hr : r ∈ opcodeMap) (hr' : r' ∈ opcodeMap) (h : r.admits w = true)
    (h' : r'.admits w = true) : r = r' :=
  row_eq_of_op_eq hr hr' ((op_eq_of_admits hr h).symm.trans (op_eq_of_admits hr' h'))

theorem reads_of_admits {w : Word} {r : Row} (hr : r ∈ opcodeMap) (h : r.admits w = true) :
    Reads r.mnemonic (fieldsOf w) (decode w) := by
  rcases decode_cases w with ⟨-, hnone⟩ | ⟨r', hr', h', hreads⟩
  · exact absurd h (by simp [hnone r hr])
  · exact row_eq_of_admits hr hr' h h' ▸ hreads

theorem Reads.ne_illegal {name : String} {f : Fields} {k : Except CmdError Instr} (h : Reads name f k) :
    k ≠ .error .illegal := by
  rcases h with ⟨-, rfl⟩ | ⟨-, i, rfl, -⟩ <;> simp

/-- E_ILLEGAL is the answer to the words that no row admits, and to no others (R104, R105). -/
theorem decode_illegal_iff (w : Word) : decode w = .error .illegal ↔ ∀ r ∈ opcodeMap, r.admits w = false := by
  rcases decode_cases w with ⟨hd, hnone⟩ | ⟨r, hr, ha, hreads⟩
  · exact iff_of_true hd hnone
  · exact iff_of_false hreads.ne_illegal fun hnone => absurd ha (by simp [hnone r hr])

/-- A word that decodes is well formed and has the fields of its command. -/
theorem fieldsFor_of_decode {w : Word} {i : Instr} (h : decode w = .ok i) :
    WellFormed i = true ∧ fieldsFor i = fieldsOf w := by
  rcases decode_cases w with ⟨hd, -⟩ | ⟨r, -, -, ⟨-, hd⟩ | ⟨-, j, hd, -, hwf, hfields⟩⟩
  · cases hd.symm.trans h
  · cases hd.symm.trans h
  · cases hd.symm.trans h
    exact ⟨hwf, hfields⟩

/-- The domain flag at FN[5] and a count in the bits below it, read back (R102). -/
theorem domainBit_add_split (mont : Bool) (n : Fin 32) :
    (domainBit mont + n.val) / 64 = 0 ∧ (domainBit mont + n.val) % 32 = n.val ∧
      ((domainBit mont + n.val) / 32 % 2 == 1) = mont := by
  cases mont with
  | false =>
    have h0 : domainBit false = 0 := rfl
    exact ⟨by omega, by omega, beq_eq_false_iff_ne.mpr (by omega)⟩
  | true =>
    have h1 : domainBit true = 32 := rfl
    exact ⟨by omega, by omega, beq_iff_eq.mpr (by omega)⟩

/-- The fields of a well-formed command decode to it (R101–R103). -/
theorem decodeFields_fieldsFor (i : Instr) (h : WellFormed i = true) : decodeFields (fieldsFor i) = .ok i := by
  cases i with
  | binv rd ra n1 mont =>
    obtain ⟨hhigh, hcount, hdomain⟩ := domainBit_add_split mont n1
    simp only [fieldsFor, opcode, decodeFields, hhigh, hcount, hdomain, vreg_val, h]
    rfl
  | naf ra width => 
    have hhigh : width.val / 16 = 0 := by omega
    simp [fieldsFor, opcode, decodeFields, legal, hhigh]
  | ptab ra width => 
    have hhigh : width.val / 16 = 0 := by omega
    simp [fieldsFor, opcode, decodeFields, legal, hhigh]
  | smul rd ra rb mont =>
    obtain ⟨hhigh, hcount, hdomain⟩ := domainBit_add_split mont 0
    rw [Fin.val_zero, Nat.add_zero] at hhigh hcount hdomain
    simp [fieldsFor, opcode, decodeFields, legal, hhigh, hcount, hdomain]
  | _ => simp [fieldsFor, opcode, decodeFields, legal, Sys2Proof.onPP, Sys2Proof.onPPP]

theorem decode_encode (i : Instr) (h : WellFormed i = true) : decode (encode i) = .ok i := by
  rw [decode, encode, fieldsOf_enc _ (fieldsFor_fit i), decodeFields_fieldsFor i h]

end Sys2Proof.Machine
end

section
/-! The statements of 30_encoding.md about words and commands, settled. -/

open Sys2Proof Sys2Proof.Machine

/-- Settles O1: the fields lie side by side in the word, and the five words are evaluated. -/
theorem encodingFunctionAndExamples : Obligations.EncodingFunctionAndExamples :=
  ⟨fun _ hop hrd hra hrb hfn => enc_toNat ⟨hop, hrd, hra, hrb, hfn⟩, ⟨rfl, rfl⟩, ⟨rfl, rfl⟩, ⟨rfl, rfl⟩, ⟨rfl, rfl⟩,
    ⟨rfl, rfl⟩⟩

/-- Settles O2: a word and its fields determine each other, and so do a well-formed command and its fields. -/
theorem decodeAndEncodeAgree : Obligations.DecodeAndEncodeAgree := by
  refine ⟨decode_encode, fun w i h => ?_⟩
  obtain ⟨hwf, hfields⟩ := fieldsFor_of_decode h
  exact ⟨hwf, by rw [encode, hfields, enc_fieldsOf]⟩

/-- Settles O3: a word decodes as the one row says that admits it. -/
theorem decodeFollowsTheOpcodeMap : Obligations.DecodeFollowsTheOpcodeMap := by
  refine ⟨fun w => (decode_illegal_iff w).mpr, fun w r hr h => ?_, fun w r r' hr hr' => row_eq_of_admits hr hr'⟩
  rcases reads_of_admits hr h with ⟨hf, hd⟩ | ⟨hf, i, hd, hname, -⟩
  · exact ⟨fun _ => hd, fun hf' => by simp [hf] at hf'⟩
  · exact ⟨fun hf' => by simp [hf] at hf', fun _ => ⟨i, hd, hname⟩⟩

/-- Settles O4: no row has an undefined opcode. -/
theorem undefinedEncodingsRaiseIllegal : Obligations.UndefinedEncodingsRaiseIllegal := by
  refine ⟨fun w => ?_, decode_illegal_iff, fun w s h => ?_⟩
  · intro op hop
    apply decode_of_op_undefined
    show op ∉ _
    rw [opcodeMap_op]
    simp only [List.mem_cons, List.not_mem_nil, or_false]
    omega
  · rw [runWord, h]

end

section
/-! The life of a command: its issue, the step that runs it, and its completion (R116, R117, R119). -/

namespace Sys2Proof.Machine

variable {s t : State} {w : Word}

/-- With nothing scheduled, a step runs the command in flight (R119, R360). -/
theorem step_in_flight (hr : s.rstN = true) (hs : s.schedule = []) (hf : s.inFlight = some w) :
    step s = runWord w s := by
  simp [step, stepCore, hs, engine, hr, hf]

theorem runWord_ok {i : Instr} (h : decode w = .ok i) : runWord w s = exec i s := by rw [runWord, h]

theorem runWord_error {e : CmdError} (h : decode w = .error e) : runWord w s = raise e s := by rw [runWord, h]

/-- The step after a word is placed runs that word on the state of its issue (R116, R117). -/
theorem step_withFetchWord (s : State) (w : Word) :
    step (s.withFetchWord 32 w.toNat) = runWord w { s.issue w with rstN := true } := by
  have hword : BitVec.ofNat 32 (w.toNat % 2 ^ 32) = w := by
    rw [Nat.mod_eq_of_lt w.isLt, BitVec.ofNat_toNat, BitVec.setWidth_eq]
  rw [State.withFetchWord, hword]
  exact step_completes rfl rfl rfl

/-- Every end of a command shows DONE, is not busy, and shows no error or one with its code (R119). -/
theorem Ends.completes {o : Host.Outcome State Fault Refusal} (h : Ends s o) :
    ∃ t, o = .next t ∧ t.done = true ∧ t.inFlight = none ∧
      ((t.errCode = 0 ∧ t.err = s.err) ∨ ∃ e, t.errCode = CmdError.code e ∧ t.err = true) := by
  rcases h with ⟨e, rfl⟩ | ⟨u, rfl, hu⟩
  · exact ⟨_, rfl, rfl, rfl, .inr ⟨e, rfl, rfl⟩⟩
  · exact ⟨_, rfl, rfl, rfl, .inl ⟨rfl, hu.err⟩⟩

theorem State.busy_of_inFlight_none (h : s.inFlight = none) : s.busy = false := by rw [State.busy, h]; rfl

end Sys2Proof.Machine
end

section
/-! What bus traffic does to a command in flight (R350). -/

namespace Sys2Proof.Machine

variable {s t u : State}

/-- `t` holds the command in flight of `s` with its operands, and a clear DONE, ERR or ERRCODE of `s` is still clear. -/
structure HoldsCommand (s t : State) : Prop where
  operands : SameOperands s t
  inFlight : t.inFlight = s.inFlight
  rstN : t.rstN = s.rstN
  schedule : t.schedule = s.schedule
  done : s.done = false → t.done = false
  err : s.err = false → t.err = false
  errCode : s.errCode = 0 → t.errCode = 0

/-- A change of HAZ, the response port and the counter of free values alone. -/
theorem HoldsCommand.haz_response (s : State) (haz : Bool) (r : Response) (n : Nat) :
    HoldsCommand s { s with haz := haz, response := r, draws := n } :=
  ⟨⟨rfl, rfl, rfl, rfl, rfl, rfl, rfl, rfl⟩, rfl, rfl, rfl, id, id, id⟩

/-- A read, accepted busy or idle (R82, R350). -/
theorem HoldsCommand.busRead (s : State) (l : Loc) : HoldsCommand s (s.busRead l) := by
  unfold State.busRead
  split
  exacts [.haz_response s true _ _, .haz_response s s.haz _ s.draws]

/-- A write accepted while busy, unless it is a soft reset (R46, R341, R350). -/
theorem HoldsCommand.busWrite {l : Loc} {w : Word} (hb : s.busy = true) (hn : ¬ (l = .ctrl ∧ w.getLsbD 1 = true)) :
    HoldsCommand s (s.busWrite l w) := by
  cases hd : l.droppedBusy with
  | true =>
    rw [State.busWrite, hb, hd]
    exact .haz_response s true _ s.draws
  | false =>
    rw [State.busWrite, hb, hd]
    cases l with
    | ctrl =>
      have hsrst : w.getLsbD 1 = false := by simpa using hn
      rw [State.writeLoc, State.writeCtrl, hsrst]
      exact ⟨⟨rfl, rfl, rfl, rfl, rfl, rfl, rfl, rfl⟩, rfl, rfl, rfl, id, id, id⟩
    | status =>
      refine ⟨⟨rfl, rfl, rfl, rfl, rfl, rfl, rfl, rfl⟩, rfl, rfl, rfl, fun h => ?_, fun h => ?_, fun h => ?_⟩
      · exact (State.ackStatus_done s w).trans (by rw [h, Bool.false_and])
      · exact (State.ackStatus_err s w).trans (by rw [h, Bool.false_and])
      · exact (State.ackStatus_errCode s w).trans (by rw [h, ite_self])
    | cmd | curve | vDigit | ptDigit | ptFlags => cases hd
    | _ => exact .haz_response s s.haz _ s.draws

/-- A soft reset abandons the command in flight (R341). -/
theorem busWrite_softReset_busy (s : State) {w : Word} (hw : w.getLsbD 1 = true) :
    (s.busWrite .ctrl w).busy = false := by
  have hd : Loc.ctrl.droppedBusy = false := rfl
  rw [State.busWrite, hd, Bool.and_false, State.writeLoc, State.writeCtrl, hw]
  rfl

/-- A transaction at a busy machine answers a state that holds the command, unless it is a soft reset (R350). -/
theorem step_bus_holdsCommand {tr : Transaction} {rest : List Event} (hr : s.rstN = true) (hb : s.busy = true)
    (hs : s.schedule = .bus tr :: rest) (hn : NotSoftReset tr) :
    ∃ t, step s = .next t ∧ HoldsCommand { s with schedule := rest } t := by
  cases hc : busCheck tr with
  | error e => exact ⟨_, step_error hr hs hc, .haz_response _ s.haz _ s.draws⟩
  | ok l =>
    cases hk : tr.kind with
    | read => exact ⟨_, step_read hr hs hk hc, .busRead _ l⟩
    | write =>
      refine ⟨_, step_write hr hs hk hc, .busWrite hb ?_⟩
      rintro ⟨rfl, hw⟩
      exact hn ⟨hk, hc, hw⟩

/-- A step that leaves a busy machine busy leaves the operands and the word in flight (R53, R117). -/
theorem step_busy_holds (h : step s = .next t) (hb : s.busy = true) (hb' : t.busy = true) :
    SameOperands s t ∧ t.inFlight = s.inFlight := by
  have same : ∀ u : State, HoldsCommand { s with schedule := s.schedule.tail } u →
      SameOperands s u ∧ u.inFlight = s.inFlight := fun u hu => ⟨hu.operands, hu.inFlight⟩
  rcases step_cases h with ⟨-, rfl⟩ | ⟨w, -, -, hw⟩ | ⟨tr, -, -, hbus⟩ | ⟨-, rfl⟩ | ⟨-, rfl⟩
  case inl => exact ⟨⟨rfl, rfl, rfl, rfl, rfl, rfl, rfl, rfl⟩, rfl⟩
  case inr.inl =>
    obtain ⟨u, hu, -, hfl, -⟩ := (runWord_ends w _).completes
    cases hu.symm.trans hw
    rw [State.busy_of_inFlight_none hfl] at hb'
    cases hb'
  case inr.inr.inl =>
    rcases hbus with ⟨e, -, rfl⟩ | ⟨l, -, -, rfl⟩ | ⟨l, -, -, rfl⟩
    · exact ⟨⟨rfl, rfl, rfl, rfl, rfl, rfl, rfl, rfl⟩, rfl⟩
    · exact same _ (.busRead _ l)
    · refine same _ (.busWrite hb ?_)
      rintro ⟨rfl, hw⟩
      rw [busWrite_softReset_busy _ hw] at hb'
      cases hb'
  case inr.inr.inr.inl => exact ⟨⟨rfl, rfl, rfl, rfl, rfl, rfl, rfl, rfl⟩, rfl⟩
  case inr.inr.inr.inr =>
    unfold resetRises at hb' ⊢
    split
    · exact ⟨⟨rfl, rfl, rfl, rfl, rfl, rfl, rfl, rfl⟩, rfl⟩
    · next hpin =>
      rw [if_neg hpin] at hb'
      cases hb'

end Sys2Proof.Machine
end

section
/-! No command reads or writes CTRL.IE, HAZ, the pin, the schedule, the response port or the counter of free values: two
machines that differ in these alone end a command alike (R117). -/

namespace Sys2Proof.Machine

/-- `s` with the fields that no command touches taken from `c`. -/
def State.withControl (s c : State) : State :=
  { s with ie := c.ie, haz := c.haz, rstN := c.rstN, schedule := c.schedule, response := c.response, draws := c.draws }

theorem State.withControl_valV (s c : State) (i : VReg) : (s.withControl c).valV i = s.valV i := rfl
theorem State.withControl_getPT (s c : State) (i : PReg) : (s.withControl c).getPT i = s.getPT i := rfl
theorem State.withControl_field (s c : State) : (s.withControl c).field = s.field := rfl

theorem sameResults_withControl (s c : State) : SameResults s (s.withControl c) :=
  ⟨rfl, rfl, rfl, rfl, rfl, rfl, rfl, rfl, rfl, rfl, rfl, rfl⟩

/-- Machines with the same results differ in the control fields alone. -/
theorem SameResults.exists_withControl {s t : State} (h : SameResults s t) : ∃ c, t = s.withControl c := by
  obtain ⟨hv, hpt, htbl, hnaf, hlen, hctx, hazero, hord, hdone, herr, hcode, hfl⟩ := h
  exact ⟨t, State.ext_fields hv hpt htbl hnaf hlen hctx rfl hdone herr rfl hcode hazero hord hfl rfl rfl rfl rfl⟩

theorem SameResults.trans {s t u : State} (h : SameResults s t) (h' : SameResults t u) : SameResults s u := by
  obtain ⟨c, rfl⟩ := h.exists_withControl
  obtain ⟨d, rfl⟩ := h'.exists_withControl
  exact sameResults_withControl s d

/-- The outcome `o'` is the next state of `o` with the fields that no command touches taken from `c`. -/
def Mirrors (c : State) (o o' : Host.Outcome State Fault Refusal) : Prop :=
  ∃ t, o = .next t ∧ o' = .next (t.withControl c)

section
variable {c s u u' : State} {k k' l l' : Host.Outcome State Fault Refusal}

theorem Mirrors.raise (e : CmdError) : Mirrors c (raise e s) (raise e (s.withControl c)) := ⟨_, rfl, rfl⟩

theorem Mirrors.succeed (h : u' = u.withControl c) : Mirrors c (succeed u) (succeed u') := h ▸ ⟨_, rfl, rfl⟩

theorem Mirrors.ite {p : Prop} [Decidable p] (hk : Mirrors c k k') (hl : Mirrors c l l') :
    Mirrors c (if p then k else l) (if p then k' else l') := by
  split
  exacts [hk, hl]

theorem Mirrors.needCtx (h : Mirrors c k k') : Mirrors c (needCtx s k) (needCtx (s.withControl c) k') :=
  .ite h (.raise _)

theorem Mirrors.needBelow {a : Nat} (h : Mirrors c k k') :
    Mirrors c (needBelow s a k) (needBelow (s.withControl c) a k') := .needCtx (.ite (.raise _) h)

theorem Mirrors.needBothBelow {a b : Nat} (h : Mirrors c k k') :
    Mirrors c (needBothBelow s a b k) (needBothBelow (s.withControl c) a b k') := .needCtx (.ite (.raise _) h)

theorem Mirrors.needPoint {n : PointNeed} {p : Point} (h : Mirrors c k k') :
    Mirrors c (needPoint s n p k) (needPoint (s.withControl c) n p k') :=
  .needCtx (.ite (.raise _) (.ite (.raise _) h))

theorem Mirrors.needTwoPoints {n m : PointNeed} {p q : Point} (h : Mirrors c k k') :
    Mirrors c (needTwoPoints s n p m q k) (needTwoPoints (s.withControl c) n p m q k') :=
  .needCtx (.ite (.raise _) (.ite (.raise _) (.ite (.raise _) (.ite (.raise _) h))))

end

theorem valRange_withControl (s c : State) (a : VReg) (n : Nat) : (s.withControl c).valRange a n = s.valRange a n := by
  induction n with
  | zero => rfl
  | succ n ih => rw [State.valRange, ih, State.withControl_valV, State.valRange]

theorem setRange_withControl (s c : State) (a : VReg) (k : Nat) (ys : List Nat) :
    (s.withControl c).setRange a k ys = (s.setRange a k ys).withControl c := by
  induction ys generalizing s k with
  | nil => rfl
  | cons y ys ih => exact ih (s.setV (regPlus a k) y) (k + 1)

/-- A command on a machine with other control fields ends as it does here, and leaves those fields (R117). -/
theorem exec_mirrors (i : Instr) (s c : State) : Mirrors c (exec i s) (exec i (s.withControl c)) := by
  cases i with
  | nop => exact .succeed rfl
  | mov rd ra => exact .succeed rfl
  | madd rd ra rb => exact .needBothBelow (.succeed rfl)
  | msub rd ra rb => exact .needBothBelow (.succeed rfl)
  | mred rd ra => exact .needCtx (.succeed rfl)
  | minv rd ra rb => exact .ite (.raise _) (.ite (.raise _) (.succeed rfl))
  | binv rd ra n1 mont =>
    simp only [exec, execBinv, valRange_withControl]
    exact .ite (.raise _) (.needCtx (.ite (.raise _) (.ite (.raise _) (.succeed (setRange_withControl ..)))))
  | mctx ra => exact .ite (.raise _) (.succeed rfl)
  | mmul rd ra rb => exact .needBothBelow (.succeed rfl)
  | mtom rd ra => exact .needBelow (.succeed rfl)
  | mfrom rd ra => exact .needBelow (.succeed rfl)
  | mexp rd ra rb => exact .needCtx (.succeed rfl)
  | pmov rd ra => exact .succeed rfl
  | pdbl rd ra => exact .needPoint (.succeed rfl)
  | pmadd rd ra rb => exact .needTwoPoints (.succeed rfl)
  | pmdadd rd ra rb => exact .needTwoPoints (.succeed rfl)
  | pneg rd ra => exact .needPoint (.succeed rfl)
  | ptoj rd ra => exact .needPoint (.succeed rfl)
  | ptoa rd ra =>
    refine .needPoint ?_
    rw [State.withControl_field, State.withControl_getPT]
    cases toA s.field (s.getPT ra) with
    | none => exact .raise _
    | some p => exact .succeed rfl
  | ptom rd ra => exact .needPoint (.succeed rfl)
  | pfrom rd ra => exact .needPoint (.succeed rfl)
  | naf ra w => exact .ite (.raise _) (.succeed rfl)
  | ptab ra w =>
    refine .needPoint (.ite (.raise _) ?_)
    rw [State.withControl_field, State.withControl_getPT]
    cases table s.field (s.getPT ra) w.val with
    | none => exact .raise _
    | some t => exact .succeed rfl
  | smul rd ra rb mont =>
    refine .needPoint (.ite (.succeed rfl) (.ite (.raise _) ?_))
    rw [State.withControl_field, State.withControl_getPT, State.withControl_valV]
    cases smul s.field (s.getPT ra) (s.valV rb) mont with
    | none => exact .raise _
    | some r => exact .succeed rfl

/-- A command word ends alike on machines that differ in their control fields (R117). -/
theorem runWord_mirrors (w : Word) (s c : State) : Mirrors c (runWord w s) (runWord w (s.withControl c)) := by
  unfold runWord
  split
  exacts [.raise _, exec_mirrors ..]

/-- Two machines with the same registers and STATUS outcome end a command word with the same results. -/
theorem runWord_sameResults {s t : State} (w : Word) (h : SameResults s t) :
    ∃ r u, runWord w s = .next r ∧ runWord w t = .next u ∧ SameResults r u := by
  obtain ⟨c, rfl⟩ := h.exists_withControl
  obtain ⟨r, hr, hu⟩ := runWord_mirrors w s c
  exact ⟨r, _, hr, hu, sameResults_withControl r c⟩

end Sys2Proof.Machine
end

section
/-! Any transactions before a completion leave its outcome (R87, R117, R120, R350). -/

namespace Sys2Proof.Machine

/-- A machine out of reset with `w` in flight and a STATUS as its issue left it (R116). -/
structure InFlight (w : Word) (s : State) : Prop where
  rstN : s.rstN = true
  inFlight : s.inFlight = some w
  done : s.done = false
  err : s.err = false
  errCode : s.errCode = 0

theorem InFlight.busy {w : Word} {s : State} (h : InFlight w s) : s.busy = true := by
  rw [State.busy, h.inFlight]
  rfl

theorem HoldsCommand.keepsInFlight {w : Word} {s t : State} (h : HoldsCommand s t) (hs : InFlight w s) : InFlight w t :=
  ⟨h.rstN.trans hs.rstN, h.inFlight.trans hs.inFlight, h.done hs.done, h.err hs.err, h.errCode hs.errCode⟩

theorem HoldsCommand.sameResults {w : Word} {s t : State} (h : HoldsCommand s t) (hs : InFlight w s) :
    SameResults s t := by
  obtain ⟨hv, hpt, htbl, hnaf, hlen, hctx, hazero, hord⟩ := h.operands
  have ht := h.keepsInFlight hs
  exact ⟨hv, hpt, htbl, hnaf, hlen, hctx, hazero, hord, ht.done.trans hs.done.symm, ht.err.trans hs.err.symm,
    ht.errCode.trans hs.errCode.symm, h.inFlight⟩

/-- Running through transactions and the completion gives the results of running the word at once. -/
theorem stepsFrom_busy_traffic {w : Word} (ts : List Transaction) (s : State) (hs : InFlight w s)
    (hn : ∀ t ∈ ts, NotSoftReset t) (hsched : s.schedule = ts.map .bus ++ [.completes]) :
    ∃ r u, runWord w s = .next r ∧ stepsFrom (ts.length + 1) s = .next u ∧ SameResults r u := by
  induction ts generalizing s with
  | nil =>
    have hstep : step s = runWord w (s.withControl { s with schedule := [] }) :=
      step_completes hs.rstN hsched hs.inFlight
    obtain ⟨r, u, hr, hu, hru⟩ := runWord_sameResults w (sameResults_withControl s { s with schedule := [] })
    refine ⟨r, u, hr, ?_, hru⟩
    rw [List.length_nil, stepsFrom, hstep, hu]
    rfl
  | cons tr ts ih =>
    obtain ⟨s1, hstep, hholds⟩ := step_bus_holdsCommand hs.rstN hs.busy hsched (hn tr (.head _))
    have hs0 : InFlight w { s with schedule := ts.map Event.bus ++ [.completes] } :=
      ⟨hs.rstN, hs.inFlight, hs.done, hs.err, hs.errCode⟩
    obtain ⟨r1, u, hr1, hu, hru⟩ :=
      ih s1 (hholds.keepsInFlight hs0) (fun t ht => hn t (.tail _ ht)) hholds.schedule
    have hsame : SameResults s s1 := hholds.sameResults hs0
    obtain ⟨r, r1', hr, hr1', hrr⟩ := runWord_sameResults w hsame
    cases hr1.symm.trans hr1'
    refine ⟨r, u, hr, ?_, hrr.trans hru⟩
    rw [List.length_cons, stepsFrom, hstep]
    exact hu

end Sys2Proof.Machine
end

section
/-! The statements of 30_encoding.md about the life of a command, settled. -/

open Sys2Proof Sys2Proof.Machine

/-- Settles O5: the step that completes a command is `runWord`, which decode's answer selects. -/
theorem stepRunsTheCommandInFlight : Obligations.StepRunsTheCommandInFlight :=
  ⟨fun _ _ _ _ hr hf hs hd => (step_completes hr hs hf).trans (runWord_ok hd),
    fun _ _ _ hr hf hs hd => (step_in_flight hr hs hf).trans (runWord_ok hd),
    fun _ _ _ _ hr hf hs hd => (step_completes hr hs hf).trans (runWord_error hd),
    fun _ _ _ hr hf hs hd => (step_in_flight hr hs hf).trans (runWord_error hd),
    fun s w _ hd => (step_withFetchWord s w).trans (runWord_ok hd)⟩

/-- Settles O6: CMD is a writable location, and its own effect is the issue. -/
theorem cmdWriteIssuesWhileIdle : Obligations.CmdWriteIssuesWhileIdle := by
  intro s c rest hr hb hs
  exact ⟨_, step_write_at_offset (l := .cmd) hr hb rfl hs, rfl, rfl, rfl, rfl, rfl, rfl, rfl,
    ⟨rfl, rfl, rfl, rfl, rfl, rfl, rfl, rfl⟩, rfl, rfl, rfl, rfl⟩

/-- Settles O7, by the two ends of a command word. -/
theorem everyCommandWordCompletes : Obligations.EveryCommandWordCompletes := by
  intro w s
  have hends := runWord_ends w s
  obtain ⟨t, ht, hdone, hfl, hcode⟩ := hends.completes
  exact ⟨t, ht, hdone, State.busy_of_inFlight_none hfl, hfl, hcode, hends.keepsControl ht⟩

/-- Settles O59, by the cases of a step. -/
theorem operandsAreHeldWhileBusy : Obligations.OperandsAreHeldWhileBusy := fun _ _ => step_busy_holds

/-- Settles O60, by induction on the transactions: each leaves what the command reads, and the command reads
nothing else. -/
theorem busyTrafficDoesNotChangeTheOutcome : Obligations.BusyTrafficDoesNotChangeTheOutcome :=
  fun s _ ts hr hf hdone herr hcode hn hs => stepsFrom_busy_traffic ts s ⟨hr, hf, hdone, herr, hcode⟩ hn hs
end

section
/-! The basic and modular commands (R130–R136): what each writes, and the difference that MSUB computes. -/

namespace Sys2Proof.Machine

/-- A command that writes one value register's contents and succeeds leaves everything else: contents are the number that
they hold (R33, R131). -/
theorem wroteOnlyV_putV {s : State} (rd : VReg) (x : Value) :
    WroteOnlyV s (s.putV rd x).completeOk (fun r => r = rd) := by
  have h := wroteOnlyV_setV (s := s) rd x.toNat
  rwa [State.setV, BitVec.ofNat_toNat, BitVec.setWidth_eq] at h

/-- A residue of a register's number, modulo any number, fits a register: written and read after completion (R134, R137). -/
theorem completeOk_setV_mod_valV (s : State) (rd ra : VReg) (m : Nat) :
    (s.setV rd (s.valV ra % m)).completeOk.valV rd = s.valV ra % m := by
  rw [State.completeOk_valV, State.valV_setV_self]
  exact (Nat.mod_le _ _).trans_lt (s.getV ra).isLt

/-- Adding the complement m − b is subtracting b modulo m (R133). -/
theorem add_complement_mod {a b m : Nat} (hb : b ≤ m) :
    ((a + (m - b)) % m : Nat) = ((a : Int) - (b : Int)) % (m : Int) := by
  have h : ((a + (m - b) : Nat) : Int) = (a - b) + m := by omega
  rw [Int.natCast_mod, h, Int.add_emod_right]

end Sys2Proof.Machine
end

section
/-! The errors that a command can end with: those whose "raised by" column in R301 names it, and E_NOCTX before any other
(R135, R174, R202). -/

namespace Sys2Proof.Machine

/-- STATUS shows no error, or an error that R301 lists for the command `i`. -/
def ShowsListedError (i : Instr) (t : State) : Prop :=
  t.errCode = 0 ∨ ∃ e, raises e i = true ∧ t.errCode = CmdError.code e

section
variable {i : Instr} {s u : State} {e : CmdError} {k : Host.Outcome State Fault Refusal}

theorem listed_succeed : Yields (succeed u) (ShowsListedError i) := .succeed (.inl rfl)

theorem listed_raise (h : raises e i = true) : Yields (raise e s) (ShowsListedError i) := .raise (.inr ⟨e, h, rfl⟩)

theorem listed_needCtx (hc : raises .noctx i = true) (hk : Yields k (ShowsListedError i)) :
    Yields (needCtx s k) (ShowsListedError i) := .ite (fun _ => hk) fun _ => listed_raise hc

theorem listed_needBelow {a : Nat} (hc : raises .noctx i = true) (hr : raises .range i = true)
    (hk : Yields k (ShowsListedError i)) : Yields (needBelow s a k) (ShowsListedError i) :=
  listed_needCtx hc (.ite (fun _ => listed_raise hr) fun _ => hk)

theorem listed_needBothBelow {a b : Nat} (hc : raises .noctx i = true) (hr : raises .range i = true)
    (hk : Yields k (ShowsListedError i)) : Yields (needBothBelow s a b k) (ShowsListedError i) :=
  listed_needCtx hc (.ite (fun _ => listed_raise hr) fun _ => hk)

/-- E_PTSTATE has to be listed only where the requirement can fail: PNEG asks nothing of its operand (R302). -/
theorem listed_needPoint {n : PointNeed} {p : Point} (hc : raises .noctx i = true)
    (hp : n.metBy p = false → raises .ptstate i = true) (hr : raises .range i = true)
    (hk : Yields k (ShowsListedError i)) : Yields (needPoint s n p k) (ShowsListedError i) :=
  listed_needCtx hc (.ite (fun h => listed_raise (hp (by simpa using h))) fun _ =>
    .ite (fun _ => listed_raise hr) fun _ => hk)

theorem listed_needTwoPoints {n m : PointNeed} {p q : Point} (hc : raises .noctx i = true)
    (hp : raises .ptstate i = true) (hr : raises .range i = true) (hk : Yields k (ShowsListedError i)) :
    Yields (needTwoPoints s n p m q k) (ShowsListedError i) :=
  listed_needCtx hc (.ite (fun _ => listed_raise hp) fun _ => .ite (fun _ => listed_raise hp) fun _ =>
    .ite (fun _ => listed_raise hr) fun _ => .ite (fun _ => listed_raise hr) fun _ => hk)

end

/-- Every command shows no error but those of R301's rows for it. -/
theorem exec_showsListedError (i : Instr) (s : State) : Yields (exec i s) (ShowsListedError i) := by
  cases i with
  | nop => exact listed_succeed
  | mov rd ra => exact listed_succeed
  | madd rd ra rb => exact listed_needBothBelow rfl rfl listed_succeed
  | msub rd ra rb => exact listed_needBothBelow rfl rfl listed_succeed
  | mred rd ra => exact listed_needCtx rfl listed_succeed
  | minv rd ra rb =>
    exact .ite (fun _ => listed_raise rfl) fun _ => .ite (fun _ => listed_raise rfl) fun _ => listed_succeed
  | binv rd ra n1 mont =>
    exact .ite (fun _ => listed_raise rfl) fun _ => listed_needCtx rfl (.ite (fun _ => listed_raise rfl) fun _ =>
      .ite (fun _ => listed_raise rfl) fun _ => listed_succeed)
  | mctx ra => exact .ite (fun _ => listed_raise rfl) fun _ => listed_succeed
  | mmul rd ra rb => exact listed_needBothBelow rfl rfl listed_succeed
  | mtom rd ra => exact listed_needBelow rfl rfl listed_succeed
  | mfrom rd ra => exact listed_needBelow rfl rfl listed_succeed
  | mexp rd ra rb => exact listed_needCtx rfl listed_succeed
  | pmov rd ra => exact listed_succeed
  | pdbl rd ra => exact listed_needPoint rfl (fun _ => rfl) rfl listed_succeed
  | pmadd rd ra rb => exact listed_needTwoPoints rfl rfl rfl listed_succeed
  | pmdadd rd ra rb => exact listed_needTwoPoints rfl rfl rfl listed_succeed
  | pneg rd ra => exact listed_needPoint rfl (fun h => nomatch h) rfl listed_succeed
  | ptoj rd ra => exact listed_needPoint rfl (fun _ => rfl) rfl listed_succeed
  | ptoa rd ra =>
    refine listed_needPoint rfl (fun _ => rfl) rfl ?_
    split
    exacts [listed_raise rfl, listed_succeed]
  | ptom rd ra => exact listed_needPoint rfl (fun _ => rfl) rfl listed_succeed
  | pfrom rd ra => exact listed_needPoint rfl (fun _ => rfl) rfl listed_succeed
  | naf ra w => exact .ite (fun _ => listed_raise rfl) fun _ => listed_succeed
  | ptab ra w =>
    refine listed_needPoint rfl (fun _ => rfl) rfl (.ite (fun _ => listed_raise rfl) fun _ => ?_)
    split
    exacts [listed_raise rfl, listed_succeed]
  | smul rd ra rb mont =>
    refine listed_needPoint rfl (fun _ => rfl) rfl (.ite (fun _ => listed_succeed) fun _ =>
      .ite (fun _ => listed_raise rfl) fun _ => ?_)
    split
    exacts [listed_raise rfl, listed_succeed]

/-- The codes of R301 are distinct. -/
theorem CmdError.code_injective : Function.Injective CmdError.code := by
  intro a b
  cases a <;> cases b <;> decide

/-- No code of R301 is that of E_NONE. -/
theorem CmdError.code_ne_zero (e : CmdError) : CmdError.code e ≠ 0 := by cases e <;> decide

/-- An error that a command's STATUS shows is one that R301 lists for it. -/
theorem raises_of_errCode {i : Instr} {s t : State} {e : CmdError} (h : exec i s = .next t)
    (he : t.errCode = CmdError.code e) : raises e i = true := by
  rcases exec_showsListedError i s t h with h0 | ⟨e', hl, he'⟩
  · exact absurd (he.symm.trans h0) (CmdError.code_ne_zero e)
  · exact CmdError.code_injective (he'.symm.trans he) ▸ hl

/-- Without a context, a command that needs one ends with E_NOCTX before any other check; BINV's ranges are a check of
decode, which comes before (R105, R135). -/
theorem exec_noctx {i : Instr} {s : State} (hwf : WellFormed i = true) (hi : raises .noctx i = true)
    (hv : s.ctx.valid = false) : exec i s = raise .noctx s := by
  cases i with
  | nop | mov | minv | mctx | pmov | naf => cases hi
  | binv rd ra n1 mont =>
    have hfit : (rangeFits ra n1 && rangeFits rd n1) = true := hwf
    rw [exec, execBinv, hfit]
    exact needCtx_none hv
  | _ => exact needCtx_none hv

end Sys2Proof.Machine
end

section
/-! The statements of 40_modular.md, settled. -/

open Sys2Proof Sys2Proof.Machine

/-- Settles O9: the checks of MADD are those of R136, and its sum is reduced. -/
theorem maddAddsModulo : Obligations.MaddAddsModulo := fun rd _ _ _ =>
  ⟨needCtx_none, needBothBelow_range, fun hv ha hb =>
    ⟨_, needBothBelow_ok hv ha hb, completeOk_setV_valV rd _ (Nat.mod_lt _ (Nat.zero_lt_of_lt ha)),
      wroteOnlyV_setV rd _⟩⟩

/-- Settles O10: MSUB adds the complement of b, which is below m. -/
theorem msubSubtractsModulo : Obligations.MsubSubtractsModulo := by
  intro rd ra rb s
  refine ⟨needCtx_none, needBothBelow_range, fun hv ha hb =>
    ⟨_, needBothBelow_ok hv ha hb, ?_, wroteOnlyV_setV rd _⟩⟩
  rw [completeOk_setV_valV rd _ (Nat.mod_lt _ (Nat.zero_lt_of_lt ha))]
  exact add_complement_mod hb.le

/-- Settles O41: the context check stands first, and each command raises only the errors that R301 lists for it. -/
theorem contextIsCheckedFirst : Obligations.ContextIsCheckedFirst := by
  refine ⟨fun _ _ => exec_noctx, fun i s t hi h hcode => ?_⟩
  have hraises : raises .noctx i = true := raises_of_errCode h hcode
  rw [hi] at hraises
  cases hraises

/-- Settles O8: NOP and MOV have no check, and MOV's one write is the register copied. -/
theorem nopAndMovComplete : Obligations.NopAndMovComplete := by
  refine ⟨fun s => ⟨_, rfl, ?_⟩, fun rd ra s => ⟨_, rfl, ?_, wroteOnlyV_putV rd _⟩⟩
  · exact ⟨fun _ _ => rfl, rfl, ⟨rfl, rfl, rfl⟩, rfl, ⟨rfl, rfl, rfl, rfl, rfl, rfl, rfl, rfl⟩, rfl, rfl, rfl, rfl⟩
  · rw [State.completeOk_getV, State.getV_putV, if_pos rfl]

/-- Settles O11: a context is all that MRED checks. -/
theorem mredReducesAnyValue : Obligations.MredReducesAnyValue := fun rd ra s =>
  ⟨needCtx_none, fun hv => ⟨_, needCtx_ok hv, completeOk_setV_mod_valV s rd ra _, wroteOnlyV_setV rd _⟩⟩
end

section
/-! The arithmetic of inverses: MINV's inverse of any number, BINV's outputs by their products, and the batched inversion
(R150–R155). -/

namespace Sys2Proof.Machine

/-- Reducing a number modulo n keeps its gcd with n. -/
theorem gcd_mod_self_left (a n : Nat) : Nat.gcd (a % n) n = Nat.gcd a n :=
  (Nat.gcd_rec n a).symm.trans (Nat.gcd_comm n a)

/-- A number of any size that is coprime to n: the inverse of its residue is in 1..n−1 and is an inverse of it (R152). -/
theorem inv_mod_spec {a n : Nat} (hn : 2 ≤ n) (hg : Nat.gcd a n = 1) :
    1 ≤ inv (a % n) n ∧ inv (a % n) n < n ∧ a * inv (a % n) n % n = 1 := by
  obtain ⟨hlt, hmul⟩ := inv_spec (Nat.mod_lt a (by omega)) hn ((gcd_mod_self_left a n).trans hg)
  rw [Nat.mod_mul_mod] at hmul
  refine ⟨Nat.pos_of_ne_zero fun h0 => ?_, hlt, hmul⟩
  rw [h0] at hmul
  simp at hmul

theorem eeaInv_eq_some {a n : Nat} (h : Nat.gcd a n = 1) : eeaInv a n = some (inv a n) := by
  obtain ⟨x, hx⟩ := Option.isSome_iff_exists.mp ((eeaInv_isSome a n).mpr h)
  rw [inv, hx, Option.getD_some]

theorem eeaInv_eq_none {a n : Nat} (h : Nat.gcd a n ≠ 1) : eeaInv a n = none :=
  Option.not_isSome_iff_eq_none.mp fun hs => h ((eeaInv_isSome a n).mp hs)

theorem fmul_comm (f : FieldCtx) (d : Bool) (a b : Nat) : fmul f d a b = fmul f d b a := by
  simp only [fmul, montMul, Nat.mul_comm a b]

namespace SoundField

variable {f : FieldCtx} {R : Nat} (h : SoundField f R)
include h

theorem two_le : 2 ≤ f.p := Nat.le_of_succ_le h.three_le

/-! ### One output of BINV (R155) -/

theorem lt_binvElement (d : Bool) {x : Nat} (hx : x < f.p) (hg : Nat.gcd x f.p = 1) : binvElement f d x < f.p := by
  cases d
  · exact (inv_spec hx h.two_le hg).1
  · exact Nat.mod_lt _ h.p_pos

/-- The product that fixes an output of BINV, in Z/p: 1 in the standard domain and R² in the Montgomery domain (R155). -/
theorem cast_mul_binvElement (d : Bool) {x : Nat} (hx : x < f.p) (hg : Nat.gcd x f.p = 1) :
    (x : ZMod f.p) * (binvElement f d x : Nat) = if d then (R : ZMod f.p) ^ 2 else 1 := by
  have hi := h.cast_mul_inv hx hg
  cases d
  · exact hi
  · simp only [binvElement, if_true, ZMod.natCast_mod, Nat.cast_mul, h.cast_r2]
    rw [← mul_assoc, hi, one_mul]

/-- The same product as a residue. -/
theorem mul_binvElement_mod (d : Bool) {x : Nat} (hx : x < f.p) (hg : Nat.gcd x f.p = 1) :
    x * binvElement f d x % f.p = if d then R ^ 2 % f.p else 1 := by
  have hc := h.cast_mul_binvElement d hx hg
  cases d
  · exact (mod_eq_iff.mpr (by simpa using hc)).trans (Nat.mod_eq_of_lt h.two_le)
  · exact mod_eq_iff.mpr (by simpa using hc)

/-- A residue with that product is the output of BINV: an invertible factor cancels (R150). -/
theorem eq_binvElement (d : Bool) {x y : Nat} (hx : x < f.p) (hg : Nat.gcd x f.p = 1) (hy : y < f.p)
    (e : (x : ZMod f.p) * y = if d then (R : ZMod f.p) ^ 2 else 1) : y = binvElement f d x :=
  eq_of_cast hy (h.lt_binvElement d hx hg)
    (((ZMod.isUnit_iff_coprime x f.p).mpr hg).mul_left_cancel (e.trans (h.cast_mul_binvElement d hx hg).symm))

/-! ### The products of a batch (R153) -/

/-- A product of a domain is invertible exactly when both factors are. -/
theorem gcd_fmul_eq_one (d : Bool) (a b : Nat) :
    Nat.gcd (fmul f d a b) f.p = 1 ↔ Nat.gcd a f.p = 1 ∧ Nat.gcd b f.p = 1 := by
  have hk : IsUnit (if d then (f.rInv : ZMod f.p) else 1) := by
    cases d
    · exact isUnit_one
    · exact .of_mul_eq_one _ h.cast_rInv_mul_R
  have hunit (n : Nat) : Nat.gcd n f.p = 1 ↔ IsUnit (n : ZMod f.p) := (ZMod.isUnit_iff_coprime n f.p).symm
  rw [hunit, hunit, hunit, cast_fmul, IsUnit.mul_iff, IsUnit.mul_iff, and_iff_left hk]

theorem foldl_fmul_lt (d : Bool) (xs : List Nat) {acc : Nat} (ha : acc < f.p) : xs.foldl (fmul f d) acc < f.p := by
  induction xs generalizing acc with
  | nil => exact ha
  | cons x xs ih => exact ih (h.lt_fmul d acc x)

/-- The product of the batch is invertible exactly when every input is. -/
theorem gcd_foldl_fmul_eq_one (d : Bool) (xs : List Nat) (acc : Nat) :
    Nat.gcd (xs.foldl (fmul f d) acc) f.p = 1 ↔ ∀ x ∈ acc :: xs, Nat.gcd x f.p = 1 := by
  induction xs generalizing acc with
  | nil => simp
  | cons x xs ih => rw [List.foldl_cons, ih]; simp [h.gcd_fmul_eq_one, and_assoc]

omit h in
/-- The last of the prefix products is the product of the whole batch. -/
theorem prefixProducts_getLastD (d : Bool) (xs : List Nat) (acc n : Nat) :
    (prefixProducts f d acc xs).getLastD n = xs.foldl (fmul f d) acc := by
  induction xs generalizing acc n with
  | nil => rfl
  | cons x xs ih => exact (List.getLastD_cons ..).trans (ih ..)

/-! ### The back-substitution (R153) -/

/-- The one inversion of the batch, with its correction by R3 in the Montgomery domain, gives BINV's output for the number
inverted. -/
theorem corrected_inv (d : Bool) {x : Nat} (hx : x < f.p) (hg : Nat.gcd x f.p = 1) :
    (if d then montMul f (Machine.inv x f.p) f.r3 else Machine.inv x f.p) = binvElement f d x := by
  cases d
  · rfl
  · refine h.eq_binvElement true hx hg (h.lt_montMul _ _) ?_
    simp only [if_true, cast_montMul, h.cast_r3]
    linear_combination (R : ZMod f.p) ^ 3 * f.rInv * h.cast_mul_inv hx hg + (R : ZMod f.p) ^ 2 * h.cast_R_mul_rInv

/-- What one step of the back-substitution turns on: BINV's output for a product, times one factor, is its output for the
other. -/
theorem fmul_binvElement_fmul (d : Bool) {a b : Nat} (ha : a < f.p) (hga : Nat.gcd a f.p = 1)
    (hgb : Nat.gcd b f.p = 1) : fmul f d (binvElement f d (fmul f d a b)) b = binvElement f d a := by
  refine h.eq_binvElement d ha hga (h.lt_fmul _ _ _) ?_
  rw [← h.cast_mul_binvElement d (h.lt_fmul d a b) ((h.gcd_fmul_eq_one d a b).mpr ⟨hga, hgb⟩), cast_fmul, cast_fmul]
  ring

omit h in
/-- A pair at the end of the list is the last one that the loop meets. -/
theorem backSubstitute_append {d : Bool} {ps : List (Nat × Nat)} {t t' : Nat} {ys ys' : List Nat} (x pre : Nat)
    (e : backSubstitute f d t ps ys = t' :: ys') :
    backSubstitute f d t (ps ++ [(x, pre)]) ys = fmul f d t' x :: fmul f d t' pre :: ys' := by
  induction ps generalizing t ys with
  | nil =>
    cases e
    rfl
  | cons p ps ih => exact ih e

/-- From BINV's output for the product of the batch, the loop finds its outputs for the inputs. -/
theorem backSubstitute_binvElement (d : Bool) (xs : List Nat) (acc : Nat) (ys : List Nat)
    (hlt : ∀ x ∈ acc :: xs, x < f.p) (hg : ∀ x ∈ acc :: xs, Nat.gcd x f.p = 1) :
    backSubstitute f d (binvElement f d (xs.foldl (fmul f d) acc)) (xs.zip (prefixProducts f d acc xs)).reverse ys =
      (acc :: xs).map (binvElement f d) ++ ys := by
  induction xs generalizing acc with
  | nil => rfl
  | cons x xs ih =>
    simp only [List.forall_mem_cons] at hlt hg
    obtain ⟨hacc, hx, hlt⟩ := hlt
    obtain ⟨gacc, gx, hg⟩ := hg
    have hrest := ih (fmul f d acc x) (List.forall_mem_cons.mpr ⟨h.lt_fmul d acc x, hlt⟩)
      (List.forall_mem_cons.mpr ⟨(h.gcd_fmul_eq_one d acc x).mpr ⟨gacc, gx⟩, hg⟩)
    have hacc' := h.fmul_binvElement_fmul d hacc gacc gx
    have hx' := h.fmul_binvElement_fmul d hx gx gacc
    rw [fmul_comm f d x acc] at hx'
    rw [prefixProducts, List.zip_cons_cons, List.reverse_cons, List.foldl_cons, backSubstitute_append x acc hrest,
      hacc', hx']
    rfl

theorem batchInv_eq_some (d : Bool) {xs : List Nat} (hlt : ∀ x ∈ xs, x < f.p) (hg : ∀ x ∈ xs, Nat.gcd x f.p = 1) :
    batchInv f d xs = some (xs.map (binvElement f d)) := by
  cases xs with
  | nil => rfl
  | cons x xs =>
    have hgp : Nat.gcd (xs.foldl (fmul f d) x) f.p = 1 := (h.gcd_foldl_fmul_eq_one d xs x).mpr hg
    have hp : xs.foldl (fmul f d) x < f.p := h.foldl_fmul_lt d xs (hlt x (.head _))
    simp only [batchInv, prefixProducts_getLastD, eeaInv_eq_some hgp, h.corrected_inv d hp hgp,
      h.backSubstitute_binvElement d xs x [] hlt hg, List.append_nil]

theorem batchInv_eq_none (d : Bool) {xs : List Nat} (hx : ∃ x ∈ xs, Nat.gcd x f.p ≠ 1) : batchInv f d xs = none := by
  cases xs with
  | nil =>
    obtain ⟨x, hx, -⟩ := hx
    cases hx
  | cons x xs =>
    have hgp : Nat.gcd (xs.foldl (fmul f d) x) f.p ≠ 1 := fun hone => by
      obtain ⟨y, hy, hne⟩ := hx
      exact hne ((h.gcd_foldl_fmul_eq_one d xs x).mp hone y hy)
    simp only [batchInv, prefixProducts_getLastD, eeaInv_eq_none hgp]

end SoundField

end Sys2Proof.Machine
end

section
/-! The inverse commands on the registers: BINV's checks on the range that it reads, and the range that it writes (R152,
R155). -/

namespace Sys2Proof.Machine

/-- A number below one that a register holds, written and read after completion (R137). -/
theorem completeOk_setV_valV_of_lt {s : State} (rd rb : VReg) {n : Nat} (h : n < s.valV rb) :
    (s.setV rd n).completeOk.valV rd = n := by
  rw [State.completeOk_valV, State.valV_setV_self _ _ _ (h.trans (s.getV rb).isLt)]

/-- Some number that BINV reads has a property when some register of the range has it (R155). -/
theorem exists_mem_valRange (s : State) (a : VReg) (n : Nat) (P : Nat → Prop) :
    (∃ x ∈ s.valRange a n, P x) ↔ ∃ k < n, P (s.valV (regPlus a k)) := by
  have hnone := not_congr (forall_mem_valRange s a n fun x => ¬ P x)
  push Not at hnone
  exact hnone

section
variable {s : State} {rd ra : VReg} {n1 : Fin 32} {mont : Bool}

theorem exec_binv_operand (hwf : WellFormed (.binv rd ra n1 mont) = false) :
    exec (.binv rd ra n1 mont) s = raise .operand s := by
  have hfit : (rangeFits ra n1 && rangeFits rd n1) = false := hwf
  rw [exec, execBinv, hfit]
  rfl

/-- The checks of a batch that decode accepts, with a context, said of the registers read (R155). -/
theorem exec_binv (hwf : WellFormed (.binv rd ra n1 mont) = true) (hv : s.ctx.valid = true) :
    exec (.binv rd ra n1 mont) s =
      if ∃ k ≤ n1.val, s.modulus ≤ s.valV (regPlus ra k) then raise .range s
      else if ∃ k ≤ n1.val, Nat.gcd (s.valV (regPlus ra k)) s.modulus ≠ 1 then raise .noinv s
      else succeed (s.setRange rd 0 ((s.valRange ra (n1.val + 1)).map (binvElement s.field mont))) := by
  have hfit : (rangeFits ra n1 && rangeFits rd n1) = true := hwf
  simp [exec, execBinv, hfit, hv, exists_mem_valRange]

section
variable (hfit : rangeFits rd n1 = true)
include hfit

/-- A command that writes a range of value registers and succeeds leaves everything else (R119, R155). -/
theorem wroteOnlyV_setRange {ys : List Nat} (hlen : ys.length = n1.val + 1) :
    WroteOnlyV s (s.setRange rd 0 ys).completeOk (fun r => rd.val ≤ r.val ∧ r.val ≤ rd.val + n1.val) := by
  obtain ⟨hpt, htbl, hnaf, hnafLen, hctx⟩ := setRange_others s rd 0 ys
  have hdata := DataStep.setRange s rd 0 ys
  have hfit : rd.val + (n1.val + 1) ≤ 32 := by simpa [rangeFits] using hfit
  refine ⟨fun r hr => ?_, hpt, ⟨htbl, hnaf, hnafLen⟩, hctx, (Ends.succeed hdata).keepsControl rfl, rfl,
    rfl, hdata.err, rfl⟩
  rw [State.completeOk_getV, setRange_getV s rd ys 0 (by omega), if_neg (by omega)]

/-- The numbers of a range read, each sent through `g` to a number below the modulus: the k-th, read after completion from
the k-th destination (R155). -/
theorem completeOk_setRange_valV {g : Nat → Nat} {k : Nat} (hk : k ≤ n1.val)
    (hg : g (s.valV (regPlus ra k)) < s.modulus) :
    (s.setRange rd 0 ((s.valRange ra (n1.val + 1)).map g)).completeOk.valV (regPlus rd k) =
      g (s.valV (regPlus ra k)) := by
  have hfit : rd.val + (n1.val + 1) ≤ 32 := by simpa [rangeFits] using hfit
  have hlen : ((s.valRange ra (n1.val + 1)).map g).length = n1.val + 1 := by rw [List.length_map, valRange_length]
  have hreg := regPlus_val rd k (by omega)
  have hidx : (regPlus rd k).val - (rd.val + 0) = k := by omega
  rw [State.completeOk_valV, State.valV, setRange_getV _ _ _ _ (by omega), if_pos (by omega), hidx,
    List.getD_eq_getElem _ _ (by omega), List.getElem_map, valRange_getElem, BitVec.toNat_ofNat]
  exact Nat.mod_eq_of_lt (hg.trans s.ctx.m.isLt)

end

end

end Sys2Proof.Machine
end

section
/-! The statements of 41_inverse.md, settled. -/

open Sys2Proof Sys2Proof.Machine

/-- Settles O12: MINV's checks speak of the residue of a, whose gcd with n is that of a. -/
theorem minvGivesTheInverse : Obligations.MinvGivesTheInverse := by
  intro rd ra rb s
  refine ⟨fun hn => if_pos hn, fun hn hg => ?_, fun hn hg => ?_⟩
  · rw [← gcd_mod_self_left] at hg
    exact (if_neg (by omega)).trans (if_pos hg)
  · obtain ⟨hpos, hlt, hmul⟩ := inv_mod_spec hn hg
    rw [← gcd_mod_self_left] at hg
    refine ⟨_, (if_neg (by omega)).trans (if_neg (not_not.mpr hg)), ?_⟩
    rw [completeOk_setV_valV_of_lt rd rb hlt]
    exact ⟨hpos, hlt, hmul, wroteOnlyV_setV rd _⟩

/-- Settles O13: the checks are said of the registers read, and each destination holds its own output. -/
theorem binvInvertsEveryInput : Obligations.BinvInvertsEveryInput := by
  intro rd ra n1 mont s x
  refine ⟨exec_binv_operand, fun hwf hv => exec_noctx hwf rfl hv, fun hwf hv hx => ?_, fun hwf hv hlt hx => ?_,
    fun hwf hv hs hx => ?_⟩
  · rw [exec_binv hwf hv, if_pos hx]
  · rw [exec_binv hwf hv, if_neg fun ⟨k, hk, hle⟩ => Nat.not_le.mpr (hlt k hk) hle, if_pos hx]
  · have hfield := s.soundField hv hs
    obtain ⟨-, hrd⟩ : rangeFits ra n1 = true ∧ rangeFits rd n1 = true := (Bool.and_eq_true ..).mp hwf
    have hexec : exec (.binv rd ra n1 mont) s =
        succeed (s.setRange rd 0 ((s.valRange ra (n1.val + 1)).map (binvElement s.field mont))) := by
      rw [exec_binv hwf hv, if_neg fun ⟨k, hk, hle⟩ => Nat.not_le.mpr (hx k hk).1 hle,
        if_neg fun ⟨k, hk, hne⟩ => hne (hx k hk).2]
    refine ⟨_, hexec, fun k hk => ?_, wroteOnlyV_setRange hrd (by rw [List.length_map, valRange_length])⟩
    obtain ⟨hlt, hg⟩ := hx k hk
    have hout := hfield.lt_binvElement mont hlt hg
    rw [completeOk_setRange_valV hrd hk hout]
    exact ⟨hout, hfield.mul_binvElement_mod mont hlt hg⟩

/-- Settles O14: the batch's one inversion gives BINV's output for the product, and the loop takes it apart. -/
theorem batchedInversionGivesTheInverses : Obligations.BatchedInversionGivesTheInverses :=
  fun _ az mont _ hv hs hlt =>
    ⟨(hs.field hv az).batchInv_eq_some mont hlt, (hs.field hv az).batchInv_eq_none mont⟩
end

section
/-! What each part of a step does to the invariant (R39, R116, R119, R170, R301). -/

namespace Sys2Proof.Machine

variable {s t : State}

/-! ### STATUS (R45, R46, R116, R119) -/

/-- The codes of R301 are 1..8. -/
theorem CmdError.code_le (e : CmdError) : (CmdError.code e).toNat ≤ 8 := by cases e <;> decide

/-- A command that began with ERR = 0, as every issue leaves it, ends with a sound STATUS: a success keeps ERR (R119). -/
theorem Ends.statusSound {o : Host.Outcome State Fault Refusal} (h : Ends s o) (herr : s.err = false)
    (ht : o = .next t) : t.StatusSound := by
  obtain ⟨u, hu, -, hfl, hcode⟩ := h.completes
  cases hu.symm.trans ht
  have hidle : t.busy = true → t.done = false ∧ t.err = false := by
    rw [State.busy_of_inFlight_none hfl]
    rintro ⟨⟩
  rcases hcode with ⟨hc, he⟩ | ⟨e, hc, he⟩
  · exact ⟨by simp [hc], by simp [hc, he, herr], hidle⟩
  · exact ⟨hc ▸ CmdError.code_le e, iff_of_true he (hc ▸ CmdError.code_ne_zero e), hidle⟩

/-- An acknowledgement clears ERR and ERRCODE together (R46). -/
theorem State.StatusSound.ackStatus (h : s.StatusSound) (w : Word) : (s.ackStatus w).StatusSound := by
  obtain ⟨hle, hiff, hbusy⟩ := h
  refine ⟨?_, ?_, fun hb => ?_⟩
  · rw [State.ackStatus_errCode]
    split
    exacts [by decide, hle]
  · rw [State.ackStatus_errCode, State.ackStatus_err]
    cases w.getLsbD 2 <;> simp [hiff]
  · obtain ⟨hd, he⟩ := hbusy hb
    simp [hd, he]

/-- An issue clears DONE, ERR and ERRCODE (R116). -/
theorem issue_statusSound (s : State) (c : Word) : (s.issue c).StatusSound :=
  ⟨Nat.zero_le 8, by simp, fun _ => ⟨rfl, rfl⟩⟩

/-! ### NAFLEN (R39) -/

/-- The digits of a successful SMUL are those of wNAF(k, w) (R271). -/
theorem smul_digits {f : FieldCtx} {p : Point} {k : Nat} {mont : Bool} {r : SmulResult}
    (h : smul f p k mont = some r) : r.digits = wnaf k (windowWidth f.p) := by
  simp only [smul] at h
  split at h
  · cases h
  · split at h
    · cases h
    · cases h
      rfl

/-- Writing the digits of a register keeps NAFLEN at most NAFMAX (R262, R263). -/
theorem setNaf_nafLen_le (s : State) (x : Value) (w : Nat) :
    (s.setNaf (wnaf x.toNat w)).nafLen.toNat ≤ Config.nafMax :=
  (setNaf_nafLen_toNat s x w).trans_le (wnaf_length_le_nafMax x w)

/-- Every command keeps NAFLEN at most NAFMAX: NAF and SMUL write the digits of a register (R262, R274). -/
theorem exec_nafLen_le (i : Instr) (h : s.nafLen.toNat ≤ Config.nafMax) :
    Yields (exec i s) fun t => t.nafLen.toNat ≤ Config.nafMax := by
  cases hw : writesNaf i with
  | false =>
    intro t ht
    exact ((exec_keepsOthers i s t ht).naf hw).2 ▸ h
  | true =>
    cases i with
    | naf ra w => exact .ite (fun _ => .raise h) fun _ => .succeed (setNaf_nafLen_le s (s.getV ra) w.val)
    | smul rd ra rb mont =>
      refine .check (needPoint_cases ..) (fun _ => h)
        (.ite (fun _ => .succeed h) fun _ => .ite (fun _ => .raise h) fun _ => ?_)
      split
      · exact .raise h
      · next r hr =>
        rw [smul_digits hr]
        exact .succeed (setNaf_nafLen_le (s.setTbl (r.tbl.map Point.toTblEntry)) (s.getV rb) _)
    | _ => cases hw

/-! ### The parts of a step -/

/-- The values of R57 make an empty context, a clear STATUS and no digits. -/
theorem Cleared.sound (h : Cleared t) : t.Sound := by
  refine ⟨fun hv => ?_, ⟨?_, ?_, fun hb => ?_⟩, ?_⟩
  · rw [h.valid] at hv
    cases hv
  · simp [h.errCode]
  · simp [h.errCode, h.err]
  · rw [State.busy_of_inFlight_none h.inFlight] at hb
    cases hb
  · simp [h.nafLen]

/-- The end of a command word keeps a sound context: MCTX loads the one of its modulus (R170). -/
theorem runWord_ctxSound {w : Word} (h : s.ctx.Sound) (ht : runWord w s = .next t) : t.ctx.Sound := by
  rcases runWord_ctx ht with hc | ⟨ra, -, h3, hodd, hc⟩
  · exact hc ▸ h
  · rw [hc]
    exact fun _ => ⟨h3, hodd, rfl⟩

theorem runWord_nafLen_le {w : Word} (h : s.nafLen.toNat ≤ Config.nafMax) (ht : runWord w s = .next t) :
    t.nafLen.toNat ≤ Config.nafMax := by
  unfold runWord at ht
  split at ht
  · cases ht
    exact h
  · exact exec_nafLen_le _ h t ht

/-- The end of the command in flight keeps the invariant: while busy, ERR is 0 (R116, R119). -/
theorem State.Sound.runWord {w : Word} (h : s.Sound) (hf : s.inFlight = some w) (ht : runWord w s = .next t) :
    t.Sound := by
  obtain ⟨hctx, ⟨-, -, hbusy⟩, hlen⟩ := h
  have hb : s.busy = true := by rw [State.busy, hf]; rfl
  exact ⟨runWord_ctxSound hctx ht, (runWord_ends w s).statusSound (hbusy hb).2 ht, runWord_nafLen_le hlen ht⟩

theorem State.Sound.busRead (h : s.Sound) (l : Loc) : (s.busRead l).Sound := by
  unfold State.busRead
  split
  exacts [h, h]

/-- A write keeps the invariant: of the locations only CTRL, STATUS and CMD touch what it speaks of (R44, R46, R47). -/
theorem State.Sound.busWrite (h : s.Sound) (l : Loc) (w : Word) : (s.busWrite l w).Sound := by
  obtain ⟨hctx, hstatus, hlen⟩ := h
  unfold State.busWrite
  split
  · exact ⟨hctx, hstatus, hlen⟩
  · cases l with
    | ctrl =>
      rw [State.writeLoc, State.writeCtrl]
      split
      exacts [(cleared_applyReset s _ _).sound, ⟨hctx, hstatus, hlen⟩]
    | status => exact ⟨hctx, hstatus.ackStatus w, hlen⟩
    | cmd => exact ⟨hctx, issue_statusSound s w, hlen⟩
    | _ => exact ⟨hctx, hstatus, hlen⟩

theorem State.Sound.resetRises (h : s.Sound) : (resetRises s).Sound := by
  unfold Machine.resetRises
  split
  exacts [h, (cleared_applyReset s true s.response).sound]

/-- Every step keeps the invariant, by the cases of a step (R305). -/
theorem State.Sound.step (h : s.Sound) (ht : step s = .next t) : t.Sound := by
  have hrest : State.Sound { s with schedule := s.schedule.tail } := h
  rcases step_cases ht with ⟨-, rfl⟩ | ⟨w, -, hf, hw⟩ | ⟨tr, -, -, hbus⟩ | ⟨-, rfl⟩ | ⟨-, rfl⟩
  case inl => exact hrest
  case inr.inl => exact hrest.runWord hf hw
  case inr.inr.inl =>
    rcases hbus with ⟨e, -, rfl⟩ | ⟨l, -, -, rfl⟩ | ⟨l, -, -, rfl⟩
    exacts [hrest, hrest.busRead l, hrest.busWrite l _]
  case inr.inr.inr.inl => exact hrest
  case inr.inr.inr.inr => exact hrest.resetRises

end Sys2Proof.Machine
end

section
/-! The context of a modulus (R170) and the Montgomery product: its defining equation, and its two conversions (R172, R176,
R177). -/

namespace Sys2Proof.Machine

/-- The digit count of a modulus is the least one that covers it (R8). -/
theorem digitCount_least (x : Nat) : digitCount x = 1 ∨ radix (digitCount x - 1) ≤ x := by
  unfold digitCount
  cases hb : bitLen x with
  | zero => exact .inl rfl
  | succ n =>
    right
    calc radix (max 1 ((n + 1 + 31) / 32) - 1) ≤ 2 ^ n := Nat.pow_le_pow_right (by decide) (by omega)
      _ ≤ x := two_pow_le_of_bitLen hb

namespace SoundField

variable {f : FieldCtx} {R : Nat} (h : SoundField f R)
include h

/-- `MontMul(a, b) · R ≡ a · b` (R172). -/
theorem montMul_mul_R_mod (a b : Nat) : montMul f a b * R % f.p = a * b % f.p := by
  apply mod_eq_iff.mpr
  push_cast
  rw [cast_montMul, mul_assoc, h.cast_rInv_mul_R, mul_one]

/-- The equation fixes MontMul among the residues (R172). -/
theorem eq_montMul {x a b : Nat} (hx : x < f.p) (e : (R : ZMod f.p) * x = a * b) : x = montMul f a b := by
  apply eq_of_cast hx (h.lt_montMul a b)
  rw [cast_montMul, ← e]
  linear_combination -(x : ZMod f.p) * h.cast_R_mul_rInv

/-- MontMul by R2 is a product with R (R176). -/
theorem montMul_r2 (a : Nat) : montMul f a f.r2 = a * R % f.p := by
  apply eq_of_cast (h.lt_montMul _ _) (Nat.mod_lt _ h.p_pos)
  rw [cast_montMul, h.cast_r2, ZMod.natCast_mod, Nat.cast_mul]
  linear_combination (a : ZMod f.p) * R * h.cast_R_mul_rInv

/-- MontMul by 1 gives the residue whose product with R is a (R177). -/
theorem montMul_one_mul_R_mod {a : Nat} (ha : a < f.p) : montMul f a 1 * R % f.p = a := by
  rw [h.montMul_mul_R_mod, Nat.mul_one, Nat.mod_eq_of_lt ha]

end SoundField

end Sys2Proof.Machine
end

section
/-! The CIOS multiplier computes the Montgomery product (R172, R173). -/

namespace Sys2Proof.Machine

/-! ### Digits (R13) -/

theorem digitBase_pos : 0 < digitBase := Nat.two_pow_pos 32

theorem radix_eq_digitBase_pow (s : Nat) : radix s = digitBase ^ s := pow_mul 2 32 s

@[simp] theorem length_digitsOf (x n : Nat) : (digitsOf x n).length = n := by
  induction n generalizing x with
  | zero => rfl
  | succ n ih => rw [digitsOf, List.length_cons, ih]

theorem lt_digitBase_of_mem_digitsOf {x n d : Nat} (h : d ∈ digitsOf x n) : d < digitBase := by
  induction n generalizing x with
  | zero => cases h
  | succ n ih =>
    rcases List.mem_cons.mp h with rfl | h
    exacts [Nat.mod_lt _ digitBase_pos, ih h]

/-- The digits of a number spell it, as far as they cover it. -/
theorem digitsValue_digitsOf (x n : Nat) : digitsValue (digitsOf x n) = x % digitBase ^ n := by
  induction n generalizing x with
  | zero => exact (Nat.mod_one x).symm
  | succ n ih => rw [digitsOf, digitsValue, ih, pow_succ', Nat.mod_mul]

theorem digitsValue_digitsOf_of_lt {x n : Nat} (h : x < digitBase ^ n) : digitsValue (digitsOf x n) = x :=
  (digitsValue_digitsOf x n).trans (Nat.mod_eq_of_lt h)

theorem digitsValue_append_singleton (ds : List Nat) (d : Nat) :
    digitsValue (ds ++ [d]) = digitsValue ds + digitBase ^ ds.length * d := by
  induction ds with
  | nil => simp [digitsValue]
  | cons x xs ih =>
    rw [List.cons_append, digitsValue, ih, digitsValue, List.length_cons, pow_succ']
    ring

theorem digitsValue_replicate_zero (n : Nat) : digitsValue (List.replicate n 0) = 0 := by
  induction n with
  | zero => rfl
  | succ n ih => rw [List.replicate_succ, digitsValue, ih, Nat.mul_zero]

/-! ### The passes of a round (R173) -/

theorem macPass_length (y : Nat) {as ts : List Nat} (c : Nat) (h : as.length = ts.length) :
    (macPass y as ts c).1.length = ts.length := by
  induction as generalizing ts c with
  | nil =>
    obtain rfl := List.length_eq_zero_iff.mp h.symm
    rfl
  | cons a as ih =>
    obtain ⟨t, ts, rfl⟩ := List.exists_cons_of_length_eq_add_one h.symm
    rw [macPass, List.length_cons, List.length_cons, ih _ (Nat.succ.inj h)]

/-- A pass adds a multiple of one number to another; the last carry stands above the digits. -/
theorem macPass_value (y : Nat) {as ts : List Nat} (c : Nat) (h : as.length = ts.length) :
    digitsValue (macPass y as ts c).1 + digitBase ^ ts.length * (macPass y as ts c).2 =
      digitsValue ts + y * digitsValue as + c := by
  induction as generalizing ts c with
  | nil =>
    obtain rfl := List.length_eq_zero_iff.mp h.symm
    simp [macPass, digitsValue]
  | cons a as ih =>
    obtain ⟨t, ts, rfl⟩ := List.exists_cons_of_length_eq_add_one h.symm
    have hrest := ih ((t + a * y + c) / digitBase) (Nat.succ.inj h)
    have hdigit := Nat.mod_add_div (t + a * y + c) digitBase
    simp only [macPass, digitsValue, List.length_cons, pow_succ']
    linear_combination digitBase * hrest + hdigit

/-- The reduction digit makes the lowest digit of the reduction pass 0, since m · m′ ≡ −1 (R171, R173). -/
theorem reduction_digit {m mp : Nat} (hmp : m * mp % digitBase = digitBase - 1) (d : Nat) :
    (d + m * (d * mp % digitBase)) % digitBase = 0 := by
  have hone : digitBase ∣ m * mp + 1 := by
    rw [Nat.dvd_iff_mod_eq_zero, Nat.add_mod, hmp]
    rfl
  have hq : d + m * (d * mp % digitBase) ≡ d * (m * mp + 1) [MOD digitBase] :=
    calc d + m * (d * mp % digitBase) ≡ d + m * (d * mp) [MOD digitBase] := ((Nat.mod_modEq ..).mul_left m).add_left d
      _ = d * (m * mp + 1) := by ring
  exact hq.trans (Nat.modEq_zero_iff_dvd.mpr (hone.mul_left d))

theorem digitsValue_mod_digitBase (ds : List Nat) : digitsValue ds % digitBase = ds.headD 0 % digitBase := by
  cases ds with
  | nil => rfl
  | cons d ds => exact Nat.add_mul_mod_self_left ..

theorem macPass_reduction_headD {ms ts : List Nat} {mp : Nat} (h : ms.length = ts.length)
    (hmp : digitsValue ms * mp % digitBase = digitBase - 1) :
    (macPass (ts.headD 0 * mp % digitBase) ms ts 0).1.headD 0 = 0 := by
  cases ms with
  | nil => rfl
  | cons m ms =>
    obtain ⟨t, ts, rfl⟩ := List.exists_cons_of_length_eq_add_one h.symm
    rw [Nat.mul_mod, digitsValue_mod_digitBase, ← Nat.mul_mod] at hmp
    exact reduction_digit hmp t

/-- The shift by one digit divides by the base: the lowest digit is 0, and the carry `c` goes into the digits above. -/
theorem shift_value {ds : List Nat} {n : Nat} (hlen : ds.length = n + 1) (hz : ds.headD 0 = 0) (hi c : Nat) :
    digitBase * digitsValue ((ds.tail ++ [(hi % digitBase + c) % digitBase]) ++
        [hi / digitBase + (hi % digitBase + c) / digitBase]) =
      digitsValue ds + digitBase ^ (n + 1) * (hi + c) := by
  obtain ⟨d, ds, rfl⟩ := List.exists_cons_of_length_eq_add_one hlen
  obtain rfl : d = 0 := hz
  obtain rfl : ds.length = n := Nat.succ.inj hlen
  have hsum := Nat.mod_add_div (hi % digitBase + c) digitBase
  have hhi := Nat.mod_add_div hi digitBase
  simp only [List.tail_cons, digitsValue_append_singleton, List.length_append, List.length_singleton, digitsValue,
    pow_succ']
  linear_combination digitBase * digitBase ^ ds.length * (hsum + hhi)

/-! ### The rounds (R173) -/

/-- The number in the accumulator of CIOS. -/
def CiosAcc.value (t : CiosAcc) : Nat := digitsValue (t.low ++ [t.top])

section
variable {as ms : List Nat} {mp n : Nat} (has : as.length = n + 1) (hms : ms.length = n + 1)
  (hmp : digitsValue ms * mp % digitBase = digitBase - 1)
include has hms

theorem ciosRound_low_length (bi : Nat) {t : CiosAcc} (ht : t.low.length = n + 1) :
    (ciosRound as ms mp bi t).low.length = n + 1 := by
  have hmul := macPass_length bi 0 (has.trans ht.symm)
  simp only [ciosRound, List.length_append, List.length_tail, List.length_singleton]
  rw [macPass_length _ _ (by omega), hmul, ht]
  rfl

include hmp

/-- One round adds a digit's product and a multiple of m, and divides by the base. -/
theorem ciosRound_value (bi : Nat) {t : CiosAcc} (ht : t.low.length = n + 1) :
    ∃ q < digitBase, digitBase * (ciosRound as ms mp bi t).value =
      t.value + bi * digitsValue as + q * digitsValue ms := by
  have hlen := macPass_length bi 0 (has.trans ht.symm)
  have hmul := macPass_value bi 0 (has.trans ht.symm)
  set mul := macPass bi as t.low 0
  have hms' : ms.length = mul.1.length := by omega
  set q := mul.1.headD 0 * mp % digitBase
  have hred := macPass_value q 0 hms'
  have hshift := shift_value ((macPass_length q 0 hms').trans (hlen.trans ht)) (macPass_reduction_headD hms' hmp)
    (t.top + mul.2) (macPass q ms mul.1 0).2
  refine ⟨q, Nat.mod_lt _ digitBase_pos, hshift.trans ?_⟩
  rw [CiosAcc.value, digitsValue_append_singleton]
  rw [hlen] at hred
  rw [ht] at hmul hred ⊢
  linear_combination hred + hmul

/-- The loop adds the product with its digits and a multiple of m, and divides by the base once for each digit; and an
accumulator below a + m stays there. -/
theorem ciosLoop_value (bs : List Nat) (hbs : ∀ b ∈ bs, b < digitBase) {t : CiosAcc} (ht : t.low.length = n + 1)
    (hlt : t.value < digitsValue as + digitsValue ms) :
    (ciosLoop as ms mp bs t).value < digitsValue as + digitsValue ms ∧
      ∃ k, digitBase ^ bs.length * (ciosLoop as ms mp bs t).value =
        t.value + digitsValue bs * digitsValue as + k * digitsValue ms := by
  induction bs generalizing t with
  | nil => exact ⟨hlt, 0, by simp [ciosLoop, digitsValue]⟩
  | cons b bs ih =>
    obtain ⟨hb, hbs⟩ := List.forall_mem_cons.mp hbs
    obtain ⟨q, hq, hround⟩ := ciosRound_value has hms hmp b ht
    have hlt' : (ciosRound as ms mp b t).value < digitsValue as + digitsValue ms := by
      have hba := Nat.mul_le_mul_right (digitsValue as) (Nat.succ_le_of_lt hb)
      have hqm := Nat.mul_le_mul_right (digitsValue ms) (Nat.succ_le_of_lt hq)
      apply Nat.lt_of_mul_lt_mul_left (a := digitBase)
      linarith
    obtain ⟨hend, k, hk⟩ := ih hbs (ciosRound_low_length has hms b ht) hlt'
    refine ⟨hend, q + digitBase * k, ?_⟩
    rw [ciosLoop, List.length_cons, digitsValue, pow_succ']
    linear_combination digitBase * hk + hround

end

/-! ### The multiplier (R173) -/

namespace SoundField

variable {f : FieldCtx} {s : Nat} (h : SoundField f (radix s))
include h

/-- The final conditional subtraction reduces a number below 2m whose product with R is a·b. -/
theorem final_subtraction {u a b : Nat} (hu : u < f.p + f.p) (e : (radix s : ZMod f.p) * u = a * b) :
    (if f.p ≤ u then u - f.p else u) = montMul f a b := by
  split
  · next hle =>
    refine h.eq_montMul (by omega) ?_
    rw [Nat.cast_sub hle, ZMod.natCast_self, sub_zero, e]
  · exact h.eq_montMul (by omega) e

/-- CIOS over all the digits of a modulus gives MontMul (R173). -/
theorem cios_eq_montMul {mp a b : Nat} (hs : 1 ≤ s) (hp : f.p < radix s)
    (hmp : f.p * mp % digitBase = digitBase - 1) (ha : a < f.p) (hb : b < f.p) :
    cios f.p s mp a b = montMul f a b := by
  obtain ⟨n, rfl⟩ : ∃ n, s = n + 1 := ⟨s - 1, by omega⟩
  rw [radix_eq_digitBase_pow] at hp
  have va := digitsValue_digitsOf_of_lt (ha.trans hp)
  have vb := digitsValue_digitsOf_of_lt (hb.trans hp)
  have vp := digitsValue_digitsOf_of_lt hp
  have v0 : CiosAcc.value ⟨List.replicate (n + 1) 0, 0⟩ = 0 := by
    rw [CiosAcc.value, digitsValue_append_singleton, digitsValue_replicate_zero, Nat.mul_zero]
  obtain ⟨hlt, k, hk⟩ := ciosLoop_value (length_digitsOf a (n + 1)) (length_digitsOf f.p (n + 1)) (vp.symm ▸ hmp)
    (digitsOf b (n + 1)) (fun _ => lt_digitBase_of_mem_digitsOf) (t := ⟨List.replicate (n + 1) 0, 0⟩)
    List.length_replicate (by omega)
  rw [va, vp] at hlt
  rw [length_digitsOf, v0, va, vb, vp, ← radix_eq_digitBase_pow] at hk
  have hcast := congrArg (Nat.cast : Nat → ZMod f.p) hk
  push_cast at hcast
  rw [ZMod.natCast_self, mul_zero, add_zero, zero_add, mul_comm (b : ZMod f.p)] at hcast
  exact h.final_subtraction (hlt.trans (Nat.add_lt_add_right ha f.p)) hcast

end SoundField

end Sys2Proof.Machine
end

section
/-! The statements of 42_montgomery.md, settled, and the invariant of a sound context. -/

open Sys2Proof Sys2Proof.Machine

/-- Settles O51, by the cases of a step. -/
theorem stepKeepsTheInvariant : Obligations.StepKeepsTheInvariant := fun _ _ => State.Sound.step

/-- Settles O15: MCTX loads `contextFor`, whose fields are those of R170. -/
theorem mctxLoadsTheContext : Obligations.MctxLoadsTheContext := by
  intro ra s
  refine ⟨fun hm => if_pos hm, fun h3 hodd => ⟨(s.setCtx (contextFor (s.getV ra))).completeOk, if_neg (by omega), ?_⟩⟩
  have hpos : 0 < (s.getV ra).toNat := by rw [← State.valV]; omega
  have hs : (contextFor (s.getV ra)).s.toNat = digitCount (s.valV ra) := contextFor_s _
  have hmp : (contextFor (s.getV ra)).mp.toNat = mPrime (s.valV ra) := contextFor_mp _ hodd
  simp only [State.completeOk_ctx, State.setCtx_ctx, hs, hmp]
  exact ⟨rfl, rfl, digitCount_pos _, digitCount_le _, lt_radix_digitCount _, digitCount_least _,
    (mul_mPrime _ hodd).1, contextFor_r1 _ hpos, contextFor_r2 _ hpos, contextFor_r3 _ hpos, rfl, rfl, ⟨rfl, rfl, rfl⟩,
    ⟨rfl, rfl, rfl, rfl, rfl, rfl, rfl, rfl⟩, rfl, rfl, rfl, rfl⟩

/-- Settles O16, by the equation that fixes MontMul. -/
theorem mmulIsTheMontgomeryProduct : Obligations.MmulIsTheMontgomeryProduct := by
  intro rd ra rb s
  refine ⟨needCtx_none, needBothBelow_range, fun hv hs ha hb => ?_⟩
  have hfield := s.soundField hv hs
  have hlt := hfield.lt_montMul (s.valV ra) (s.valV rb)
  refine ⟨_, needBothBelow_ok hv ha hb, ?_⟩
  rw [completeOk_setV_valV rd _ hlt]
  exact ⟨hlt, hfield.montMul_mul_R_mod _ _, wroteOnlyV_setV rd _⟩

/-- Settles O17: R2 is R² modulo m. -/
theorem mtomMultipliesByTheRadix : Obligations.MtomMultipliesByTheRadix := by
  intro rd ra s
  refine ⟨needCtx_none, needBelow_range, fun hv hs ha => ?_⟩
  have hfield := s.soundField hv hs
  refine ⟨_, needBelow_ok hv ha, ?_, wroteOnlyV_setV rd _⟩
  rw [completeOk_setV_valV rd _ (hfield.lt_montMul _ _)]
  exact hfield.montMul_r2 _

/-- Settles O18: the Montgomery product with 1 is divided by R. -/
theorem mfromDividesByTheRadix : Obligations.MfromDividesByTheRadix := by
  intro rd ra s
  refine ⟨needCtx_none, needBelow_range, fun hv hs ha => ?_⟩
  have hfield := s.soundField hv hs
  have hlt := hfield.lt_montMul (s.valV ra) 1
  refine ⟨_, needBelow_ok hv ha, ?_⟩
  rw [completeOk_setV_valV rd _ hlt]
  exact ⟨hlt, hfield.montMul_one_mul_R_mod ha, wroteOnlyV_setV rd _⟩

/-- Settles O19: the result of MTOM is reduced, so MFROM accepts it, and the two products cancel. -/
theorem mfromAfterMtomIsIdentity : Obligations.MfromAfterMtomIsIdentity := by
  intro rd rd' ra s hv hs ha
  have hfield := s.soundField hv hs
  set x := montMul s.field (s.valV ra) s.field.r2
  have hx : x < s.modulus := hfield.lt_montMul _ _
  set t := (s.setV rd x).completeOk
  have hval : t.valV rd = x := completeOk_setV_valV rd x hx
  refine ⟨t, (t.setV rd' (montMul s.field (t.valV rd) 1)).completeOk, needBelow_ok hv ha,
    needBelow_ok (s := t) hv (hval.trans_lt hx), ?_⟩
  rw [completeOk_setV_valV (s := t) rd' _ (hfield.lt_montMul _ _), hval]
  exact hfield.montMul_one_montMul_r2 ha

/-- Settles O20: the window loop computes the power of the reduced base. -/
theorem mexpIsTheModularPower : Obligations.MexpIsTheModularPower := by
  intro rd ra rb s
  refine ⟨needCtx_none, fun hv hs => ?_⟩
  have hfield := s.soundField hv hs
  have hpow : mexp s.field (s.valV ra % s.modulus) (s.valV rb) = s.valV ra ^ s.valV rb % s.modulus :=
    (hfield.mexp_eq _ _).trans (Nat.pow_mod ..).symm
  refine ⟨_, needCtx_ok hv, ?_, wroteOnlyV_setV rd _⟩
  rw [hpow]
  exact completeOk_setV_valV rd _ (Nat.mod_lt _ hfield.p_pos)

/-- Settles O21: the digits of a sound context cover its modulus, and m′ makes the reduction digit. -/
theorem ciosGivesMontMul : Obligations.CiosGivesMontMul := by
  intro c az a b hv hc ha hb
  obtain ⟨-, hodd, hctx⟩ := hc hv
  have hs : c.s.toNat = digitCount c.m.toNat := by rw [hctx]; exact contextFor_s _
  have hmp : c.mp.toNat = mPrime c.m.toNat := by rw [hctx]; exact contextFor_mp _ hodd
  refine (hc.field hv az).cios_eq_montMul ?_ ?_ ?_ ha hb
  · rw [hs]
    exact digitCount_pos _
  · rw [hs]
    exact lt_radix_digitCount _
  · rw [hmp]
    exact (mul_mPrime _ hodd).1
end

section
/-! What the point commands' checks and ends do (R202, R203), and the results that are already in canonical form (R37). -/

namespace Sys2Proof.Machine

variable {s : State} {p : Point}

/-! ### The state and range checks (R202, R302) -/

namespace PointNeed

theorem metBy_any : any.metBy p = true := rfl

theorem metBy_jacobianMont (ha : p.aff = false) (hm : p.mont = true) : jacobianMont.metBy p = true := by
  simp [metBy, jacobianMont, ha, hm]

theorem metBy_affineMont (ha : p.aff = true) (hm : p.mont = true) : affineMont.metBy p = true := by
  simp [metBy, affineMont, ha, hm]

theorem metBy_affine (ha : p.aff = true) : affine.metBy p = true := by simp [metBy, affine, ha]

theorem metBy_jacobian (ha : p.aff = false) : jacobian.metBy p = true := by simp [metBy, jacobian, ha]

theorem metBy_standard (hm : p.mont = false) : standard.metBy p = true := by simp [metBy, standard, hm]

theorem metBy_montgomery (hm : p.mont = true) : montgomery.metBy p = true := by simp [metBy, montgomery, hm]

end PointNeed

/-- A finite operand with a coordinate that is not reduced fails the range check (R202). -/
theorem Point.inRange_unreduced {m : Nat} (hi : p.inf = false)
    (h : m ≤ p.x.toNat ∨ m ≤ p.y.toNat ∨ (p.aff = false ∧ m ≤ p.z.toNat)) : p.inRange m = false := by
  rw [← Bool.not_eq_true]
  intro hr
  obtain ⟨hx, hy, hz⟩ := Point.inRange_finite hi hr
  rcases h with h | h | ⟨ha, h⟩
  · omega
  · omega
  · have := hz ha
    omega

theorem needTwoPoints_range {k : Host.Outcome State Fault Refusal} {na nb : PointNeed} {q : Point}
    (h : s.ctx.valid = true) (hp : na.metBy p = true) (hq : nb.metBy q = true)
    (hr : p.inRange s.modulus = false ∨ q.inRange s.modulus = false) : needTwoPoints s na p nb q k = raise .range s := by
  rcases hr with hr | hr
  · simp [needTwoPoints, h, hp, hq, hr]
  · simp [needTwoPoints, h, hp, hq, hr]

/-! ### The end of a point command (R119, R203) -/

/-- A point command that succeeds answers a next state with its result, in canonical form, in PT[rd], and the frame. -/
theorem exists_next_of_succeedPoint {o : Host.Outcome State Fault Refusal} {rd : PReg} (h : o = succeedPoint s rd p) :
    ∃ t, o = .next t ∧ t.getPT rd = p.canonical ∧ WroteOnlyPT s t (fun r => r = rd) :=
  ⟨_, h, completeOk_setPT_getPT rd _, wroteOnlyPT_setPT rd _⟩

/-- A one-operand point command whose checks pass ends with the result `q`. -/
theorem exists_next_of_needPoint {n : PointNeed} (rd : PReg) (q : Point) (hv : s.ctx.valid = true)
    (hn : n.metBy p = true) (hr : p.inRange s.modulus = true) :
    ∃ t, needPoint s n p (succeedPoint s rd q) = .next t ∧ t.getPT rd = q.canonical ∧ WroteOnlyPT s t (fun r => r = rd) :=
  exists_next_of_succeedPoint (needPoint_ok hv hn hr)

/-! ### The canonical form (R37, R203) -/

theorem Point.canonical_coords_of_inf (h : p.inf = true) : p.canonical.x = 0 ∧ p.canonical.y = 0 ∧ p.canonical.z = 0 := by
  rw [Point.canonical, if_pos h]
  exact ⟨rfl, rfl, rfl⟩

theorem Point.canonical_of_finite (h : p.inf = false) :
    p.canonical = { p with z := if p.aff then 0 else p.z } := by
  rw [Point.canonical, if_neg (ne_true_of_eq_false h)]
  split <;> rfl

@[simp] theorem canonical_infPoint (aff mont : Bool) : (infPoint aff mont).canonical = infPoint aff mont := rfl

@[simp] theorem canonical_jacobian (mont : Bool) (x y z : Nat) :
    (jacobian mont x y z).canonical = jacobian mont x y z := rfl

@[simp] theorem canonical_affine (mont : Bool) (x y : Nat) : (affine mont x y).canonical = affine mont x y := rfl

@[simp] theorem dbl_canonical (f : FieldCtx) (q : Point) : (dbl f q).canonical = dbl f q := by
  unfold dbl
  split
  exacts [canonical_infPoint .., canonical_jacobian ..]

@[simp] theorem toJ_canonical (f : FieldCtx) (a : Point) : (toJ f a).canonical = toJ f a := by
  unfold toJ
  split
  exacts [canonical_infPoint .., canonical_jacobian ..]

@[simp] theorem convert_canonical (f : FieldCtx) (k : Nat) (mont : Bool) (p : Point) :
    (convert f k mont p).canonical = convert f k mont p := by
  unfold convert
  split
  · rfl
  · cases p.aff <;> rfl

end Sys2Proof.Machine
end

section
/-! What NEG, toJ, toA and the two conversions compute, flag by flag and coordinate by coordinate (R206, R210, R211, R219,
R220). -/

namespace Sys2Proof.Machine

/-! ### The flags of the results -/

theorem dbl_inf (f : FieldCtx) (q : Point) : (dbl f q).inf = q.inf := by
  unfold dbl
  split
  · next hi => exact hi.symm
  · next hi => exact (Bool.eq_false_of_not_eq_true hi).symm

theorem toJ_inf (f : FieldCtx) (a : Point) : (toJ f a).inf = a.inf := by
  unfold toJ
  split
  · next hi => exact hi.symm
  · next hi => exact (Bool.eq_false_of_not_eq_true hi).symm

theorem negPoint_flags (f : FieldCtx) (p : Point) :
    (negPoint f p).inf = p.inf ∧ (negPoint f p).aff = p.aff ∧ (negPoint f p).mont = p.mont := by
  unfold negPoint
  split
  · next hi => exact ⟨hi.symm, rfl, rfl⟩
  · exact ⟨rfl, rfl, rfl⟩

theorem convert_flags (f : FieldCtx) (k : Nat) (mont : Bool) (p : Point) :
    (convert f k mont p).inf = p.inf ∧ (convert f k mont p).aff = p.aff ∧ (convert f k mont p).mont = mont := by
  unfold convert
  split
  · next hi => exact ⟨hi.symm, rfl, rfl⟩
  · next hi => exact ⟨(Bool.eq_false_of_not_eq_true hi).symm, rfl, rfl⟩

/-! ### The coordinates of the results -/

section
variable {f : FieldCtx} {p : Point}

/-- NEG keeps X and Z of a finite point with a reduced Y, and its Y is the residue that adds up to 0 with the old one (R210). -/
theorem negPoint_of_finite (hi : p.inf = false) (hp : f.p < 2 ^ 4096) (hy : p.y.toNat < f.p) :
    (negPoint f p).x = p.x ∧ (negPoint f p).z = p.z ∧ (negPoint f p).y.toNat < f.p ∧
      (p.y.toNat + (negPoint f p).y.toNat) % f.p = 0 := by
  have hlt : (f.p - p.y.toNat) % f.p < f.p := Nat.mod_lt _ (Nat.zero_lt_of_lt hy)
  have hfit : (BitVec.ofNat 4096 ((f.p - p.y.toNat) % f.p)).toNat = (f.p - p.y.toNat) % f.p := by
    rw [BitVec.toNat_ofNat, Nat.mod_eq_of_lt (hlt.trans hp)]
  rw [negPoint, if_neg (ne_true_of_eq_false hi)]
  dsimp only
  rw [hfit, Nat.add_mod_mod, Nat.add_sub_cancel' hy.le, Nat.mod_self]
  exact ⟨rfl, rfl, hlt, rfl⟩

theorem toJ_of_finite (hi : p.inf = false) :
    toJ f p = jacobian p.mont p.x.toNat p.y.toNat (fone f p.mont) := if_neg (ne_true_of_eq_false hi)

theorem convert_of_inf (k : Nat) (mont : Bool) (hi : p.inf = true) : convert f k mont p = infPoint p.aff mont := if_pos hi

end

namespace SoundField

variable {f : FieldCtx} {R : Nat} (h : SoundField f R) {p : Point}
include h

/-- A conversion multiplies each coordinate that a finite record holds (R219, R220). -/
theorem convert_coords_of_finite (k : Nat) (mont : Bool) (hi : p.inf = false) :
    (convert f k mont p).x.toNat = montMul f p.x.toNat k ∧ (convert f k mont p).y.toNat = montMul f p.y.toNat k ∧
      (convert f k mont p).z.toNat = if p.aff then 0 else montMul f p.z.toNat k := by
  rw [convert, if_neg (ne_true_of_eq_false hi)]
  refine ⟨h.toNat_ofNat (h.lt_montMul _ _), h.toNat_ofNat (h.lt_montMul _ _), ?_⟩
  dsimp only
  split
  · exact BitVec.toNat_zero
  · exact h.toNat_ofNat (h.lt_montMul _ _)

/-- A converted point passes the range check of the next command (R202). -/
theorem convert_inRange (k : Nat) (mont : Bool) : (convert f k mont p).inRange f.p = true := by
  cases hi : p.inf with
  | true => rw [convert_of_inf k mont hi]; rfl
  | false =>
    obtain ⟨hx, hy, hz⟩ := h.convert_coords_of_finite k mont hi
    cases ha : p.aff <;> simp [Point.inRange, hx, hy, hz, h.lt_montMul, convert_flags, ha]

/-- The two conversions cancel on a reduced standard point, up to its canonical form (R220). -/
theorem fromm_tom (hm : p.mont = false) (hr : p.inRange f.p = true) : fromm f (tom f p) = p.canonical := by
  obtain ⟨ti, ta, -⟩ := convert_flags f f.r2 true p
  cases hi : p.inf with
  | true =>
    rw [fromm, tom, convert_of_inf _ _ (ti.trans hi), ta, Point.canonical, if_pos hi, infPoint, hi, hm]
  | false =>
    obtain ⟨hx, hy, hz⟩ := Point.inRange_finite hi hr
    obtain ⟨tx, ty, tz⟩ := h.convert_coords_of_finite f.r2 true hi
    rw [fromm, convert, tom, if_neg (ne_true_of_eq_false (ti.trans hi)), tx, ty, tz, ta, h.montMul_one_montMul_r2 hx,
      h.montMul_one_montMul_r2 hy, Point.canonical_of_finite hi, hi, hm]
    cases ha : p.aff
    · simp [h.montMul_one_montMul_r2 (hz ha)]
    · simp

/-- `toA` divides by the powers of Z: the multiplication of the point's domain by them gives X and Y back (R211). -/
theorem toA_fmul_powers (hi : p.inf = false) (ha : p.aff = false) (hr : p.inRange f.p = true)
    (hg : Nat.gcd p.z.toNat f.p = 1) :
    ∃ x y : Nat, toA f p = some (affine p.mont x y) ∧ x < f.p ∧ y < f.p ∧
      fmul f p.mont x (fmul f p.mont p.z.toNat p.z.toNat) = p.x.toNat ∧
      fmul f p.mont y (fmul f p.mont p.z.toNat (fmul f p.mont p.z.toNat p.z.toNat)) = p.y.toNat := by
  obtain ⟨hX, hY, hZ⟩ := Point.inRange_finite hi hr
  obtain ⟨x, y, e, hx, hy, ex, ey⟩ := h.toA_finite hi (hZ ha) hg
  refine ⟨x, y, e, hx, hy, eq_of_cast (h.lt_fmul _ _ _) hX ?_, eq_of_cast (h.lt_fmul _ _ _) hY ?_⟩
  · simp only [cast_fmul]
    linear_combination ex
  · simp only [cast_fmul]
    linear_combination ey

end SoundField

/-! ### PTOA's two ends (R218) -/

section
variable {s : State} {rd ra : PReg} (hv : s.ctx.valid = true) (ha : (s.getPT ra).aff = false)
  (hr : (s.getPT ra).inRange s.modulus = true)
include hv ha hr

theorem exec_ptoa_none (e : toA s.field (s.getPT ra) = none) : exec (.ptoa rd ra) s = raise .noinv s := by
  rw [exec, execPtoa, needPoint_ok hv (PointNeed.metBy_jacobian ha) hr, e]

theorem exec_ptoa_some {p : Point} (e : toA s.field (s.getPT ra) = some p) :
    exec (.ptoa rd ra) s = succeedPoint s rd p := by
  rw [exec, execPtoa, needPoint_ok hv (PointNeed.metBy_jacobian ha) hr, e]

end

end Sys2Proof.Machine
end

section
/-! The point formulas: their results are reduced records, they follow the rules of the tangent and of the chord, and mixed
addition is the full one (R205, R207, R208). -/

namespace Sys2Proof.Machine

/-! ### The affine rules, in a commutative ring -/

section
variable {K : Type*} [CommRing K]

/-- The doubling triple of (xZ², yZ³, Z), in affine terms, is the tangent rule for the slope l (R205). -/
theorem tangent_rule {X Y Z a M x y l x3 y3 z3 : K} (hM : M = 3 * X ^ 2 + a * Z ^ 4) (hz3 : z3 = 2 * Y * Z)
    (hx3 : x3 = M ^ 2 - 8 * X * Y ^ 2) (hy3 : y3 = M * (4 * X * Y ^ 2 - x3) - 8 * Y ^ 4)
    (hx : x * Z ^ 2 = X) (hy : y * Z ^ 3 = Y) (hl : l * (2 * y) = 3 * x ^ 2 + a) :
    x3 = (l ^ 2 - 2 * x) * z3 ^ 2 ∧ y3 = (l * (x - (l ^ 2 - 2 * x)) - y) * z3 ^ 3 := by
  have hslope : M = l * (2 * y) * Z ^ 4 := by rw [hM, hl, ← hx]; ring
  have hx3' : x3 = (l ^ 2 - 2 * x) * z3 ^ 2 := by rw [hx3, hz3, hslope, ← hx, ← hy]; ring
  refine ⟨hx3', ?_⟩
  rw [hy3, hx3', hz3, hslope, ← hx, ← hy]
  ring

/-- The addition triple of (xz², yz³, z) and (x'z'², y'z'³, z'), in affine terms, is the chord rule for the slope l (R208). -/
theorem chord_rule {X Y z X' Y' z' u v x y x' y' l x3 y3 z3 : K} (hu : u = X' * z ^ 2 - X * z' ^ 2)
    (hv : v = Y' * z ^ 3 - Y * z' ^ 3) (hz3 : z3 = z * z' * u)
    (hx3 : x3 = v ^ 2 - u ^ 3 - 2 * (X * z' ^ 2) * u ^ 2)
    (hy3 : y3 = v * (X * z' ^ 2 * u ^ 2 - x3) - Y * z' ^ 3 * u ^ 3)
    (hx : x * z ^ 2 = X) (hy : y * z ^ 3 = Y) (hx' : x' * z' ^ 2 = X') (hy' : y' * z' ^ 3 = Y')
    (hl : l * (x' - x) = y' - y) :
    x3 = (l ^ 2 - x - x') * z3 ^ 2 ∧ y3 = (l * (x - (l ^ 2 - x - x')) - y) * z3 ^ 3 := by
  have hu' : u = (x' - x) * (z * z') ^ 2 := by rw [hu, ← hx, ← hx']; ring
  have hslope : v = l * (x' - x) * (z * z') ^ 3 := by rw [hv, hl, ← hy, ← hy']; ring
  have hx3' : x3 = (l ^ 2 - x - x') * z3 ^ 2 := by rw [hx3, hz3, hslope, hu', ← hx]; ring
  refine ⟨hx3', ?_⟩
  rw [hy3, hx3', hz3, hslope, hu', ← hx, ← hy]
  ring

end

namespace SoundField

variable {f : FieldCtx} {R : Nat} (h : SoundField f R)
include h

/-! ### Reduced results -/

theorem jacobian_inRange (mont : Bool) {x y z : Nat} (hx : x < f.p) (hy : y < f.p) (hz : z < f.p) :
    (jacobian mont x y z).inRange f.p = true := by
  simp [Point.inRange, jacobian, -BitVec.toNat_ofNat, h.toNat_ofNat, hx, hy, hz]

theorem dbl_inRange (q : Point) : (dbl f q).inRange f.p = true := by
  unfold dbl
  split
  · rfl
  · exact h.jacobian_inRange _ (h.lt_fsub _ _) (h.lt_fsub _ _) (h.lt_fscale _ _)

theorem jacAdd_inRange {q q' : Point} (hq : q.inf = false) (hq' : q'.inf = false) :
    (jacAdd f q q').inRange f.p = true := by
  rw [jacAdd, if_neg (ne_true_of_eq_false hq), if_neg (ne_true_of_eq_false hq')]
  dsimp only
  split
  · split
    · exact h.dbl_inRange q
    · rfl
  · exact h.jacobian_inRange _ (h.lt_fsub _ _) (h.lt_fsub _ _) (h.lt_montMul _ _)

/-! ### Mixed addition (R207) -/

/-- MADD_ is JADD with the affine operand made Jacobian: its Z is R1, and MontMul by R1 changes no reduced number. -/
theorem mixedAdd_eq_jacAdd {q a : Point} (hq : q.inRange f.p = true) (hqa : q.aff = false) (hm : a.mont = true) :
    mixedAdd f q a = jacAdd f q (toJ f a) := by
  cases hqi : q.inf with
  | true => rw [mixedAdd, jacAdd, if_pos hqi, if_pos hqi]
  | false =>
    have hqf := ne_true_of_eq_false hqi
    cases hai : a.inf with
    | true =>
      rw [mixedAdd, jacAdd, if_neg hqf, if_neg hqf, if_pos hai, if_pos ((toJ_inf f a).trans hai)]
    | false =>
      obtain ⟨hx, hy, hz⟩ := Point.inRange_finite hqi hq
      have hone : (BitVec.ofNat 4096 f.r1).toNat = f.r1 := h.toNat_ofNat h.lt_r1
      rw [mixedAdd, jacAdd, if_neg hqf, if_neg hqf, if_neg (ne_true_of_eq_false hai),
        if_neg (ne_true_of_eq_false ((toJ_inf f a).trans hai)), toJ_of_finite hai]
      simp only [jacobian, fone, hm, if_true, hone, h.montMul_r1 h.lt_r1, h.montMul_r1 hx, h.montMul_r1 hy,
        h.montMul_r1 (hz hqa), BitVec.ofNat_toNat, BitVec.setWidth_eq]

end SoundField

end Sys2Proof.Machine
end

section
/-! The statements of 43_point.md, settled. -/

open Sys2Proof Sys2Proof.Machine

/-- Settles O23: the state check passes, and the range check fails at the coordinate that is not reduced. -/
theorem unreducedCoordinateRaisesRange : Obligations.UnreducedCoordinateRaisesRange := by
  intro rd ra rb s hv a b unreduced
  have hout {p : Point} (hp : unreduced p) : p.inRange s.modulus = false := Point.inRange_unreduced hp.1 hp.2
  refine ⟨fun hu => ?_, fun ha hm hb hbm hu => ?_⟩
  · have hone {need k} (hn : PointNeed.metBy need a = true) : needPoint s need a k = raise .range s :=
      needPoint_range hv hn (hout hu)
    exact ⟨hone PointNeed.metBy_any, fun ha hm => hone (PointNeed.metBy_jacobianMont ha hm),
      fun ha => hone (PointNeed.metBy_affine ha), fun ha => hone (PointNeed.metBy_jacobian ha),
      fun hm => hone (PointNeed.metBy_standard hm), fun hm => hone (PointNeed.metBy_montgomery hm),
      fun ha hm _ => hone (PointNeed.metBy_affineMont ha hm), fun ha _ _ => hone (PointNeed.metBy_affine ha)⟩
  · have htwo {k} : needTwoPoints s .jacobianMont a .affineMont b k = raise .range s :=
      needTwoPoints_range hv (PointNeed.metBy_jacobianMont ha hm) (PointNeed.metBy_affineMont hb hbm) (hu.imp hout hout)
    exact ⟨htwo, htwo⟩

/-- Settles O24: PMOV checks nothing. -/
theorem pmovCopiesVerbatim : Obligations.PmovCopiesVerbatim := fun rd _ _ =>
  ⟨_, rfl, completeOk_setPT_getPT rd _, wroteOnlyPT_setPT rd _⟩

/-- Settles O25: DBL's result is in canonical form. -/
theorem pdblDoubles : Obligations.PdblDoubles := by
  intro rd ra s hv ha hm hr
  obtain ⟨t, ht, hpt, hframe⟩ := exists_next_of_needPoint rd (dbl s.field (s.getPT ra)) hv
    (PointNeed.metBy_jacobianMont ha hm) hr
  obtain ⟨haff, hmont⟩ := dbl_flags s.field (s.getPT ra)
  rw [dbl_canonical] at hpt
  refine ⟨t, ht, hpt, ?_⟩
  rw [hpt]
  exact ⟨dbl_inf _ _, haff, hmont, hframe⟩

/-- Settles O26: MDADD's own cases are those of R209, and canonical form keeps the flags. -/
theorem pmaddAndPmdaddAdd : Obligations.PmaddAndPmdaddAdd := by
  intro rd ra rb s hv ha hm hb hbm hra hrb f q a
  have hadd {p : Point} (hflags : p.aff = false ∧ p.mont = true) :
      ∃ t, needTwoPoints s .jacobianMont q .affineMont a (succeedPoint s rd p) = .next t ∧ t.getPT rd = p.canonical ∧
        (t.getPT rd).aff = false ∧ (t.getPT rd).mont = true ∧ WroteOnlyPT s t (fun r => r = rd) := by
    obtain ⟨t, ht, hpt, hframe⟩ := exists_next_of_succeedPoint (needTwoPoints_ok (k := succeedPoint s rd p) hv
      (PointNeed.metBy_jacobianMont ha hm) (PointNeed.metBy_affineMont hb hbm) hra hrb)
    obtain ⟨-, haff, hmont⟩ := canonical_flags p
    refine ⟨t, ht, hpt, ?_⟩
    rw [hpt]
    exact ⟨haff.trans hflags.1, hmont.trans hflags.2, hframe⟩
  exact ⟨hadd (mixedAdd_flags f ha hm hbm), hadd (mixedDoubleAdd_flags f ha hm hbm)⟩

/-- Settles O27, by the doubling formula in represented coordinates and the tangent rule. -/
theorem doublingFollowsTheTangentRule : Obligations.DoublingFollowsTheTangentRule := by
  intro c az q hv hc f r X Y Z M
  have hfield := hc.field hv az
  refine ⟨fun hi => if_pos hi, fun hi => ?_⟩
  obtain ⟨hinf, haff, hmont, hz, hx, hy⟩ := hfield.dbl_represented hi
  exact ⟨hinf, haff, hmont, hfield.dbl_inRange q, hz, hx, hy, fun x y l => tangent_rule rfl hz hx hy⟩

/-- Settles O28, by the cases of JADD in represented coordinates and the chord rule. -/
theorem additionFollowsTheChordRule : Obligations.AdditionFollowsTheChordRule := by
  intro c az q q' hv hc f r z z' U S u v
  have hfield := hc.field hv az
  refine ⟨fun hi => if_pos hi, fun hi hi' => ?_, fun hi hi' => ?_,
    fun a hq hqa _ _ hm => hfield.mixedAdd_eq_jacAdd hq hqa hm⟩
  · exact (if_neg (ne_true_of_eq_false hi)).trans (if_pos hi')
  · obtain ⟨hdbl, hinfinite, hadd⟩ := hfield.jacAdd_cases hi hi'
    refine ⟨hdbl, hinfinite, fun hu => ?_⟩
    obtain ⟨hinf, haff, hmont, hz, hx, hy⟩ := hadd hu
    exact ⟨hinf, haff, hmont, hfield.jacAdd_inRange hi hi', hz, hx, hy,
      fun x y x' y' l => chord_rule rfl rfl hz hx hy⟩

/-- Settles O29: the new Y is the complement of the old one, and canonical form drops the Z of an affine point. -/
theorem pnegNegatesY : Obligations.PnegNegatesY := by
  intro rd ra s hv hr p
  obtain ⟨t, ht, hpt, hframe⟩ := exists_next_of_needPoint rd (negPoint s.field p) hv
    PointNeed.metBy_any hr
  obtain ⟨ninf, naff, nmont⟩ := negPoint_flags s.field p
  obtain ⟨cinf, caff, cmont⟩ := canonical_flags (negPoint s.field p)
  refine ⟨t, ht, ?_⟩
  rw [hpt]
  refine ⟨cinf.trans ninf, caff.trans naff, cmont.trans nmont, fun hi => Point.canonical_coords_of_inf (ninf.trans hi),
    fun hi => ?_, hframe⟩
  obtain ⟨-, hy, -⟩ := Point.inRange_finite hi hr
  obtain ⟨nx, nz, nlt, nsum⟩ := negPoint_of_finite (f := s.field) hi s.ctx.m.isLt hy
  rw [Point.canonical_of_finite (ninf.trans hi)]
  dsimp only
  rw [naff, nz]
  exact ⟨nx, nlt, nsum, rfl⟩

/-- Settles O30: toJ's Z is the one of the point's domain. -/
theorem ptojMakesJacobian : Obligations.PtojMakesJacobian := by
  intro rd ra s hv ha hr p
  obtain ⟨t, ht, hpt, hframe⟩ := exists_next_of_needPoint rd (toJ s.field p) hv
    (PointNeed.metBy_affine ha) hr
  obtain ⟨haff, hmont⟩ := toJ_flags s.field p
  refine ⟨t, ht, ?_⟩
  rw [hpt, toJ_canonical]
  refine ⟨toJ_inf _ _, haff, hmont, fun hi => ?_, fun hi => ?_, hframe⟩
  · rw [toJ, if_pos hi]
    exact ⟨rfl, rfl, rfl⟩
  · rw [toJ_of_finite hi]
    refine ⟨BitVec.ofNat_toNat .., BitVec.ofNat_toNat .., ?_⟩
    cases p.mont
    · rfl
    · exact BitVec.ofNat_toNat ..

/-- Settles O31, by the cases of toA: infinity, no inverse of Z, and the division by its powers. -/
theorem ptoaDividesByPowersOfZ : Obligations.PtoaDividesByPowersOfZ := by
  intro rd ra s hv hs ha hr q mul
  refine ⟨fun hi hg => exec_ptoa_none hv ha hr ((toA_eq_none _ _).mpr ?_), fun hcase => ?_⟩
  · rintro (h | h)
    · exact ne_true_of_eq_false hi h
    · exact hg h
  cases hi : q.inf with
  | true =>
    obtain ⟨t, ht, hpt, hframe⟩ := exists_next_of_succeedPoint (rd := rd) (exec_ptoa_some hv ha hr (toA_inf hi))
    refine ⟨t, ht, ?_⟩
    rw [hpt]
    exact ⟨rfl, rfl, rfl, rfl, fun _ => ⟨rfl, rfl⟩, nofun, hframe⟩
  | false =>
    have hfield := s.soundField hv hs
    have hg : Nat.gcd q.z.toNat s.modulus = 1 := hcase.resolve_left (ne_true_of_eq_false hi)
    obtain ⟨x, y, e, hx, hy, ex, ey⟩ := hfield.toA_fmul_powers hi ha hr hg
    obtain ⟨t, ht, hpt, hframe⟩ := exists_next_of_succeedPoint (rd := rd) (exec_ptoa_some hv ha hr e)
    refine ⟨t, ht, ?_⟩
    rw [hpt, canonical_affine, affine]
    dsimp only
    rw [hfield.toNat_ofNat hx, hfield.toNat_ofNat hy]
    exact ⟨rfl, rfl, rfl, rfl, nofun, fun _ => ⟨hx, hy, ex, ey⟩, hframe⟩

/-- Settles O32: MontMul by R2 is a product with R. -/
theorem ptomConvertsToMontgomery : Obligations.PtomConvertsToMontgomery := by
  intro rd ra s hv hs hm hr p r
  have hfield := s.soundField hv hs
  obtain ⟨t, ht, hpt, hframe⟩ := exists_next_of_needPoint rd (tom s.field p) hv
    (PointNeed.metBy_standard hm) hr
  obtain ⟨hinf, haff, hmont⟩ := convert_flags s.field s.field.r2 true p
  refine ⟨t, ht, ?_⟩
  rw [hpt, tom, convert_canonical]
  refine ⟨hinf, haff, hmont, fun hi => ?_, fun hi => ?_, hframe⟩
  · rw [convert_of_inf _ _ hi]
    exact ⟨rfl, rfl, rfl⟩
  · obtain ⟨hx, hy, hz⟩ := hfield.convert_coords_of_finite s.field.r2 true hi
    rw [hx, hy, hz]
    simp only [hfield.montMul_r2]
    exact ⟨rfl, rfl, rfl⟩

/-- Settles O33: MontMul by 1 gives the residue whose product with R is its operand. -/
theorem pfromConvertsToStandard : Obligations.PfromConvertsToStandard := by
  intro rd ra s hv hs hm hr p r
  have hfield := s.soundField hv hs
  obtain ⟨t, ht, hpt, hframe⟩ := exists_next_of_needPoint rd (fromm s.field p) hv
    (PointNeed.metBy_montgomery hm) hr
  obtain ⟨hinf, haff, hmont⟩ := convert_flags s.field 1 false p
  refine ⟨t, ht, ?_⟩
  rw [hpt, fromm, convert_canonical]
  refine ⟨hinf, haff, hmont, fun hi => ?_, fun hi => ?_, hframe⟩
  · rw [convert_of_inf _ _ hi]
    exact ⟨rfl, rfl, rfl⟩
  · obtain ⟨lx, ly, lz⟩ := Point.inRange_finite hi hr
    obtain ⟨hx, hy, hz⟩ := hfield.convert_coords_of_finite 1 false hi
    rw [hx, hy]
    refine ⟨hfield.lt_montMul _ _, hfield.montMul_one_mul_R_mod lx, hfield.lt_montMul _ _,
      hfield.montMul_one_mul_R_mod ly, fun ha => ?_, fun ha => ?_⟩
    · rw [if_pos ha] at hz
      exact BitVec.eq_of_toNat_eq (hz.trans BitVec.toNat_zero.symm)
    · rw [hz, if_neg (ne_true_of_eq_false ha)]
      exact ⟨hfield.lt_montMul _ _, hfield.montMul_one_mul_R_mod (lz ha)⟩

/-- Settles O34: PTOM's result is a reduced Montgomery point, so PFROM accepts it, and the two conversions cancel. -/
theorem pfromAfterPtomIsIdentity : Obligations.PfromAfterPtomIsIdentity := by
  intro rd rd' ra s hv hs hm hr
  have hfield := s.soundField hv hs
  set p := tom s.field (s.getPT ra)
  set t := (s.setPT rd p.canonical).completeOk
  have hpt : t.getPT rd = p := (completeOk_setPT_getPT rd _).trans (convert_canonical ..)
  have hmont : (t.getPT rd).mont = true := by
    obtain ⟨-, -, hmont⟩ := convert_flags s.field s.field.r2 true (s.getPT ra)
    rw [hpt]
    exact hmont
  have hrange : (t.getPT rd).inRange t.modulus = true := by
    rw [hpt]
    exact hfield.convert_inRange _ _
  obtain ⟨u, hu, hresult, -⟩ := exists_next_of_needPoint (s := t) rd' (fromm t.field (t.getPT rd)) hv
    (PointNeed.metBy_montgomery hmont) hrange
  refine ⟨t, u, needPoint_ok hv (PointNeed.metBy_standard hm) hr, hu, ?_⟩
  rw [hresult, fromm, convert_canonical, ← fromm, hpt]
  exact hfield.fromm_tom hm hr

end

section
/-! The width-w NAF, round by round (R260), and the properties of its digits (R263). -/

namespace Sys2Proof.Machine

/-! ### One round of the loop (R260) -/

/-- What one round of wNAF does to a number `k`: it takes off the digit `d` and halves; and a nonzero digit is odd, below
2^(w−1) in magnitude, and leaves a multiple of 2^(w−1). -/
structure WnafRound (w k : Nat) (d : Int) (k' : Nat) : Prop where
  value : (k : Int) = d + 2 * k'
  nonzero : d ≠ 0 → d % 2 = 1 ∧ |d| < 2 ^ (w - 1) ∧ 2 ^ (w - 1) ∣ k'

@[simp] theorem wnafLoop_zero (w fuel : Nat) : wnafLoop w fuel 0 = [] := by
  cases fuel with
  | zero => rfl
  | succ fuel => rw [wnafLoop, if_pos rfl]

/-- A round on an odd number: its digit is odd too. -/
theorem WnafRound.of_odd {w k k' : Nat} {d : Int} (hodd : k % 2 = 1) (hv : (k : Int) = d + 2 * k')
    (hd : |d| < 2 ^ (w - 1)) (hdvd : 2 ^ (w - 1) ∣ k') : WnafRound w k d k' :=
  ⟨hv, fun _ => ⟨by omega, hd, hdvd⟩⟩

/-- What a number holds beside its residue modulo 2^w is twice a multiple of 2^(w−1). -/
theorem exists_eq_two_mul_add_mod {w : Nat} (hw : 1 ≤ w) (k : Nat) : ∃ x, 2 ^ (w - 1) ∣ x ∧ k = 2 * x + k % 2 ^ w :=
  ⟨2 ^ (w - 1) * (k / 2 ^ w), Dvd.intro _ rfl, by
    rw [← mul_assoc, ← pow_succ', Nat.sub_add_cancel hw, Nat.div_add_mod]⟩

/-- The loop on a number above 0 does one round of wNAF (R260). -/
theorem exists_wnafRound {w k : Nat} (fuel : Nat) (hw : 2 ≤ w) (hk : 0 < k) :
    ∃ d k', wnafLoop w (fuel + 1) k = d :: wnafLoop w fuel k' ∧ WnafRound w k d k' := by
  rw [wnafLoop, if_neg hk.ne']
  split
  · next hodd =>
    obtain ⟨x, hdvd, hx⟩ := exists_eq_two_mul_add_mod (one_le_two.trans hw) k
    have hlt : k % 2 ^ w < 2 ^ w := Nat.mod_lt k (Nat.two_pow_pos w)
    have hpow : 2 ^ w = 2 * 2 ^ (w - 1) := (mul_pow_sub_one (by omega) 2).symm
    have heven : 2 ∣ 2 ^ (w - 1) := dvd_pow_self 2 (by omega)
    have hcast : ((2 ^ w : Nat) : Int) = 2 ^ w ∧ ((2 ^ (w - 1) : Nat) : Int) = 2 ^ (w - 1) := by simp
    dsimp only
    split
    · have hrest : (k + (2 ^ w - k % 2 ^ w)) / 2 = x + 2 ^ (w - 1) := by omega
      rw [hrest]
      exact ⟨_, _, rfl, .of_odd hodd (by omega) (abs_lt.mpr (by omega)) (hdvd.add (dvd_refl _))⟩
    · have hrest : (k - k % 2 ^ w) / 2 = x := by omega
      rw [hrest]
      exact ⟨_, _, rfl, .of_odd hodd (by omega) (abs_lt.mpr (by omega)) hdvd⟩
  · exact ⟨0, k / 2, rfl, by omega, fun h => absurd rfl h⟩

namespace WnafRound

variable {w k k' : Nat} {d : Int} (h : WnafRound w k d k')
include h

/-- A round on an even number gives the digit 0: a nonzero one is odd. -/
theorem digit_eq_zero (hk : k % 2 = 0) : d = 0 := by
  by_contra hd
  obtain ⟨hodd, -, -⟩ := h.nonzero hd
  have := h.value
  omega

/-- Below k + 2^(w−1) lies twice what a nonzero digit leaves, since the digit is above −2^(w−1). -/
theorem two_mul_rest_lt (hd : d ≠ 0) : 2 * k' < k + 2 ^ (w - 1) := by
  obtain ⟨-, hlt, -⟩ := h.nonzero hd
  have hneg := (abs_lt.mp hlt).1
  have hv := h.value
  zify
  omega

/-- A nonzero digit leaves nothing of a number up to 2^(w−1): it would leave a multiple of 2^(w−1). -/
theorem rest_eq_zero (hd : d ≠ 0) (hk : k ≤ 2 ^ (w - 1)) : k' = 0 := by
  have hlt := h.two_mul_rest_lt hd
  obtain ⟨-, -, hdvd⟩ := h.nonzero hd
  exact Nat.eq_zero_of_dvd_of_lt hdvd (by omega)

/-- A round halves a bound that is a power of 2. -/
theorem rest_le {n : Nat} (hk : k ≤ 2 ^ (n + 1)) : k' ≤ 2 ^ n := by
  by_cases hd : d = 0
  · have hv := h.value
    rw [pow_succ'] at hk
    omega
  rcases Nat.lt_or_ge n (w - 1) with hn | hn
  · rw [h.rest_eq_zero hd (hk.trans (Nat.pow_le_pow_right two_pos hn))]
    exact Nat.zero_le _
  · have hlt := h.two_mul_rest_lt hd
    obtain ⟨-, -, q, rfl⟩ := h.nonzero hd
    obtain ⟨e, rfl⟩ := Nat.exists_eq_add_of_le hn
    rw [pow_succ'] at hk
    rw [pow_add] at hk ⊢
    have hq : 2 ^ (w - 1) * (2 * q) < 2 ^ (w - 1) * (2 * 2 ^ e + 1) := by linarith
    have := Nat.lt_of_mul_lt_mul_left hq
    exact Nat.mul_le_mul_left _ (by omega)

/-- The round on 1 is the last one. -/
theorem rest_eq_zero_of_le_one (hk : 0 < k) (hk1 : k ≤ 1) : k' = 0 := by
  have hv := h.value
  by_cases hd : d = 0
  · omega
  · exact h.rest_eq_zero hd (hk1.trans Nat.one_le_two_pow)

end WnafRound

/-! ### The digits (R263) -/

/-- The lists that rounds of wNAF can make of a number, until none of it is left. -/
inductive IsWnaf (w : Nat) : Nat → List Int → Prop
  | nil : IsWnaf w 0 []
  | cons {k k' : Nat} {d : Int} {ds : List Int} (hk : 0 < k) (hd : WnafRound w k d k') (hds : IsWnaf w k' ds) :
      IsWnaf w k (d :: ds)

/-- One round more than the exponent of the bound is enough for the loop to end. -/
theorem isWnaf_wnafLoop {w : Nat} (hw : 2 ≤ w) {n k : Nat} (hk : k ≤ 2 ^ n) : IsWnaf w k (wnafLoop w (n + 1) k) := by
  induction n generalizing k with
  | zero =>
    rcases Nat.eq_zero_or_pos k with rfl | hpos
    · rw [wnafLoop_zero]
      exact .nil
    · obtain ⟨d, k', e, hd⟩ := exists_wnafRound 0 hw hpos
      obtain rfl := hd.rest_eq_zero_of_le_one hpos hk
      rw [e, wnafLoop_zero]
      exact .cons hpos hd .nil
  | succ n ih =>
    rcases Nat.eq_zero_or_pos k with rfl | hpos
    · rw [wnafLoop_zero]
      exact .nil
    · obtain ⟨d, k', e, hd⟩ := exists_wnafRound (n + 1) hw hpos
      rw [e]
      exact .cons hpos hd (ih (hd.rest_le hk))

theorem isWnaf_wnaf {w : Nat} (hw : 2 ≤ w) (k : Nat) : IsWnaf w k (wnaf k w) :=
  isWnaf_wnafLoop hw (lt_two_pow_bitLen k).le

namespace IsWnaf

variable {w k : Nat} {ds : List Int}

theorem eq_nil (h : IsWnaf w 0 ds) : ds = [] := by
  cases h with
  | nil => rfl
  | cons hk => cases hk

theorem nafValue_eq (h : IsWnaf w k ds) : nafValue ds = k := by
  induction h with
  | nil => rfl
  | cons _ hd _ ih => rw [nafValue, ih, hd.value]

theorem odd_and_bounded (h : IsWnaf w k ds) : ∀ d ∈ ds, d ≠ 0 → d % 2 = 1 ∧ |d| < 2 ^ (w - 1) := by
  induction h with
  | nil => simp
  | cons _ hd _ ih =>
    refine List.forall_mem_cons.mpr ⟨fun hne => ?_, ih⟩
    obtain ⟨hodd, hlt, -⟩ := hd.nonzero hne
    exact ⟨hodd, hlt⟩

/-- A multiple of 2^m begins with m zeros. -/
theorem getD_eq_zero (h : IsWnaf w k ds) {m j : Nat} (hm : 2 ^ m ∣ k) (hj : j < m) : ds.getD j 0 = 0 := by
  induction h generalizing m j with
  | nil => simp
  | @cons k k' d ds _ hd _ ih =>
    obtain ⟨m, rfl⟩ : ∃ n, m = n + 1 := ⟨m - 1, by omega⟩
    have heven : k % 2 = 0 := Nat.mod_eq_zero_of_dvd ((Dvd.intro_left _ (pow_succ 2 m).symm).trans hm)
    have hd0 := hd.digit_eq_zero heven
    cases j with
    | zero => simpa using hd0
    | succ j =>
      have hv := hd.value
      obtain rfl : k = 2 * k' := by omega
      rw [pow_succ'] at hm
      simpa using ih (Nat.dvd_of_mul_dvd_mul_left two_pos hm) (by omega)

theorem nonzero_apart (h : IsWnaf w k ds) {i j : Nat} (hij : i < j) (hj : j < i + w) (hi : ds.getD i 0 ≠ 0) :
    ds.getD j 0 = 0 := by
  induction h generalizing i j with
  | nil => simp
  | cons _ hd hds ih =>
    obtain ⟨j, rfl⟩ : ∃ n, j = n + 1 := ⟨j - 1, by omega⟩
    rw [List.getD_cons_succ]
    cases i with
    | zero =>
      obtain ⟨-, -, hdvd⟩ := hd.nonzero (by simpa using hi)
      exact hds.getD_eq_zero hdvd (by omega)
    | succ i => exact ih (Nat.lt_of_succ_lt_succ hij) (by omega) (by simpa using hi)

/-- The top digit is what is left of the number in the last round. -/
theorem getLastD_pos (h : IsWnaf w k ds) (hk : 0 < k) (a : Int) : 0 < ds.getLastD a := by
  induction h generalizing a with
  | nil => cases hk
  | @cons k k' d ds _ hd hds ih =>
    rw [List.getLastD_cons]
    rcases Nat.eq_zero_or_pos k' with rfl | hk'
    · have hv := hd.value
      rw [hds.eq_nil, List.getLastD_nil]
      omega
    · exact ih hk' d

end IsWnaf

end Sys2Proof.Machine
end

section
/-! The points of TABLE(P, w), entry by entry, and the batched normalisation that gives the same entries (R265, R267). -/

namespace Sys2Proof.Machine

/-! ### toA of a list (R211, R265) -/

section
variable {f : FieldCtx} {q r : Point} {qs ts : List Point}

/-- A result of toA is the affine infinity or an affine record, in the domain of its operand (R211). -/
theorem toA_eq_some_cases (h : toA f q = some r) : r = infPoint true q.mont ∨ ∃ x y, r = affine q.mont x y := by
  unfold toA at h
  split at h
  · exact .inl (Option.some.inj h).symm
  · split at h
    · cases h
    · exact .inr ⟨_, _, (Option.some.inj h).symm⟩

theorem toA_flags (h : toA f q = some r) : r.aff = true ∧ r.mont = q.mont := by
  rcases toA_eq_some_cases h with rfl | ⟨x, y, rfl⟩ <;> exact ⟨rfl, rfl⟩

theorem toA_canonical (h : toA f q = some r) : r.canonical = r := by
  rcases toA_eq_some_cases h with rfl | ⟨x, y, rfl⟩ <;> rfl

theorem toAAll_length (h : toAAll f qs = some ts) : ts.length = qs.length := by
  induction qs generalizing ts with
  | nil =>
    cases h
    rfl
  | cons q qs ih =>
    rw [toAAll_cons] at h
    obtain ⟨p, -, hp⟩ := Option.bind_eq_some_iff.mp h
    obtain ⟨ps, hps, rfl⟩ := Option.map_eq_some_iff.mp hp
    rw [List.length_cons, ih hps, List.length_cons]

end

/-! ### The chain of odd multiples (R265) -/

/-- J[i] of TABLE(P, w): the odd multiple 2i + 1 of P in Jacobian form (R265). -/
def tablePoint (f : FieldCtx) (p : Point) (i : Nat) : Point :=
  (fun q => jacAdd f q (dbl f (toJ f p)))^[i] (toJ f p)

theorem tablePoint_flags (f : FieldCtx) {p : Point} (hm : p.mont = true) (i : Nat) :
    (tablePoint f p i).aff = false ∧ (tablePoint f p i).mont = true := by
  induction i with
  | zero =>
    obtain ⟨haff, hmont⟩ := toJ_flags f p
    exact ⟨haff, hmont.trans hm⟩
  | succ i ih =>
    obtain ⟨haff, hmont⟩ := ih
    obtain ⟨daff, dmont⟩ := dbl_flags f (toJ f p)
    rw [tablePoint, Function.iterate_succ_apply']
    exact jacAdd_flags f haff hmont daff dmont

theorem tableChain_getElem? (f : FieldCtx) (p : Point) {n i : Nat} (h : i + 1 < n) :
    (tableChain f p n)[i]? = some (tablePoint f p (i + 1)) := by
  rw [tableChain, oddChain_getElem? _ _ _ _ (by omega), tablePoint, Function.iterate_succ_apply]

/-! ### The table (R265) -/

section
variable {f : FieldCtx} {p : Point} {w : Nat} {ts : List Point}

theorem table_of_inf (w : Nat) (hi : p.inf = true) :
    table f p w = some (List.replicate (2 ^ (w - 2)) (infPoint true true)) := if_pos hi

theorem table_of_finite (w : Nat) (hi : p.inf = false) :
    table f p w =
      (toAAll f (tableChain f p (2 ^ (w - 2)))).map (affine true p.x.toNat p.y.toNat :: ·) := by
  rw [table, if_neg (ne_true_of_eq_false hi)]
  cases toAAll f (tableChain f p (2 ^ (w - 2))) <;> rfl

/-- TABLE has no result exactly when toA has none of some J[i] (R265). -/
theorem table_eq_none (hi : p.inf = false) :
    table f p w = none ↔ ∃ i, 1 ≤ i ∧ i < 2 ^ (w - 2) ∧ toA f (tablePoint f p i) = none := by
  rw [table_of_finite w hi, Option.map_eq_none_iff, toAAll_eq_none]
  constructor
  · rintro ⟨q, hq, hnone⟩
    obtain ⟨i, hget⟩ := List.mem_iff_getElem?.mp hq
    obtain ⟨hlt, -⟩ := List.getElem?_eq_some_iff.mp hget
    rw [tableChain, oddChain_length] at hlt
    cases (tableChain_getElem? f p (by omega)).symm.trans hget
    exact ⟨i + 1, by omega, by omega, hnone⟩
  · rintro ⟨i, h1, hn, hnone⟩
    obtain ⟨i, rfl⟩ : ∃ j, i = j + 1 := ⟨i - 1, by omega⟩
    exact ⟨_, List.mem_of_getElem? (tableChain_getElem? f p hn), hnone⟩

/-- TABLE has a result for an infinite point, and for a finite one when the Z of every finite J[i] is invertible (R265). -/
theorem exists_table (h : p.inf = true ∨
    ∀ i, 1 ≤ i → i < 2 ^ (w - 2) → (tablePoint f p i).inf = true ∨ Nat.gcd (tablePoint f p i).z.toNat f.p = 1) :
    ∃ ts, table f p w = some ts := by
  cases hi : p.inf with
  | true => exact ⟨_, table_of_inf w hi⟩
  | false =>
    refine Option.ne_none_iff_exists'.mp fun hno => ?_
    obtain ⟨i, h1, hn, hnone⟩ := (table_eq_none hi).mp hno
    exact (toA_eq_none f _).mp hnone (h.resolve_left (ne_true_of_eq_false hi) i h1 hn)

theorem table_length (h : table f p w = some ts) : ts.length = 2 ^ (w - 2) := by
  cases hi : p.inf with
  | true =>
    cases (table_of_inf w hi).symm.trans h
    exact List.length_replicate
  | false =>
    rw [table_of_finite w hi] at h
    obtain ⟨rs, hrs, rfl⟩ := Option.map_eq_some_iff.mp h
    have := Nat.two_pow_pos (w - 2)
    rw [List.length_cons, toAAll_length hrs, tableChain, oddChain_length]
    omega

/-- The first entry of a finite point's table is the point, and each other one is toA of its J[i] (R265). -/
theorem table_getElem? (hi : p.inf = false) (h : table f p w = some ts) :
    ts[0]? = some (affine true p.x.toNat p.y.toNat) ∧
      ∀ i, 1 ≤ i → i < 2 ^ (w - 2) → ts[i]? = toA f (tablePoint f p i) := by
  rw [table_of_finite w hi] at h
  obtain ⟨rs, hrs, rfl⟩ := Option.map_eq_some_iff.mp h
  refine ⟨rfl, fun i h1 hn => ?_⟩
  obtain ⟨i, rfl⟩ : ∃ j, i = j + 1 := ⟨i - 1, by omega⟩
  rw [List.getElem?_cons_succ, toAAll_getElem? hrs, tableChain_getElem? f p hn, Option.bind_some]

/-- Every entry is an affine Montgomery point (R266). -/
theorem table_flags (hm : p.mont = true) (h : table f p w = some ts) : ∀ e ∈ ts, e.aff = true ∧ e.mont = true := by
  cases hi : p.inf with
  | true =>
    cases (table_of_inf w hi).symm.trans h
    intro e he
    rw [List.eq_of_mem_replicate he]
    exact ⟨rfl, rfl⟩
  | false =>
    intro e he
    obtain ⟨h0, hs⟩ := table_getElem? hi h
    obtain ⟨i, hget⟩ := List.mem_iff_getElem?.mp he
    obtain ⟨hlt, -⟩ := List.getElem?_eq_some_iff.mp hget
    rw [table_length h] at hlt
    rcases Nat.eq_zero_or_pos i with rfl | hpos
    · cases h0.symm.trans hget
      exact ⟨rfl, rfl⟩
    · obtain ⟨haff, hmont⟩ := toA_flags ((hs i hpos hlt).symm.trans hget)
      exact ⟨haff, hmont.trans (tablePoint_flags f hm i).2⟩

end

/-! ### The batched normalisation (R267) -/

/-- The Zs of the finite points, which the batch inverts (R267). -/
def finiteZs (js : List Point) : List Nat := (js.filter fun j => !j.inf).map fun j => j.z.toNat

theorem finiteZs_cons_of_inf {j : Point} (js : List Point) (h : j.inf = true) : finiteZs (j :: js) = finiteZs js := by
  simp [finiteZs, h]

theorem finiteZs_cons_of_finite {j : Point} (js : List Point) (h : j.inf = false) :
    finiteZs (j :: js) = j.z.toNat :: finiteZs js := by
  simp [finiteZs, h]

theorem mem_finiteZs {js : List Point} {z : Nat} : z ∈ finiteZs js ↔ ∃ j ∈ js, j.inf = false ∧ j.z.toNat = z := by
  simp [finiteZs, and_assoc]

theorem normalise_cons_of_inf {f : FieldCtx} {j : Point} (js : List Point) (zs : List Nat) (h : j.inf = true) :
    normalise f (j :: js) zs = infPoint true true :: normalise f js zs := by
  simp [normalise, h]

theorem normalise_cons_of_finite {f : FieldCtx} {j : Point} (js : List Point) (z : Nat) (zs : List Nat)
    (h : j.inf = false) :
    normalise f (j :: js) (z :: zs) =
      affine true (montMul f j.x.toNat (montMul f z z)) (montMul f j.y.toNat (montMul f (montMul f z z) z)) ::
        normalise f js zs := by
  simp [normalise, h]

/-- toA fails for some point exactly when some Z of the batch has no inverse (R267). -/
theorem toAAll_eq_none_iff_finiteZs (f : FieldCtx) (js : List Point) :
    toAAll f js = none ↔ ∃ z ∈ finiteZs js, Nat.gcd z f.p ≠ 1 := by
  rw [toAAll_eq_none]
  constructor
  · rintro ⟨j, hj, hnone⟩
    obtain ⟨hi, hg⟩ := not_or.mp ((toA_eq_none f j).mp hnone)
    exact ⟨_, mem_finiteZs.mpr ⟨j, hj, Bool.eq_false_of_not_eq_true hi, rfl⟩, hg⟩
  · rintro ⟨z, hz, hg⟩
    obtain ⟨j, hj, hi, rfl⟩ := mem_finiteZs.mp hz
    exact ⟨j, hj, (toA_eq_none f j).mpr (not_or.mpr ⟨ne_true_of_eq_false hi, hg⟩)⟩

namespace SoundField

variable {f : FieldCtx} {R : Nat} (h : SoundField f R)
include h

/-- toA of a finite Montgomery point multiplies by the powers of BINV's output for its Z (R155, R211). -/
theorem toA_eq_affine_binvElement {q : Point} (hi : q.inf = false) (hm : q.mont = true) (hz : q.z.toNat < f.p)
    (hg : Nat.gcd q.z.toNat f.p = 1) :
    let zi := binvElement f true q.z.toNat
    toA f q = some (affine true (montMul f q.x.toNat (montMul f zi zi))
      (montMul f q.y.toNat (montMul f (montMul f zi zi) zi))) := by
  intro zi
  have hzi : montMul f (Machine.inv q.z.toNat f.p) f.r3 = zi := h.corrected_inv true hz hg
  rw [← hzi, toA, if_neg (ne_true_of_eq_false hi), if_neg (not_not.mpr hg), hm]
  rfl

/-- The normalisation with the inverses of the batch gives toA of each point (R267). -/
theorem toAAll_eq_normalise {js : List Point} (hm : ∀ j ∈ js, j.mont = true) (hlt : ∀ z ∈ finiteZs js, z < f.p)
    (hg : ∀ z ∈ finiteZs js, Nat.gcd z f.p = 1) :
    toAAll f js = some (normalise f js ((finiteZs js).map (binvElement f true))) := by
  induction js with
  | nil => rfl
  | cons j js ih =>
    obtain ⟨hjm, hm⟩ := List.forall_mem_cons.mp hm
    cases hi : j.inf with
    | true =>
      rw [finiteZs_cons_of_inf js hi] at hlt hg ⊢
      rw [toAAll_cons, toA_inf hi, ih hm hlt hg, hjm, normalise_cons_of_inf js _ hi]
      rfl
    | false =>
      rw [finiteZs_cons_of_finite js hi] at hlt hg ⊢
      obtain ⟨hz, hlt⟩ := List.forall_mem_cons.mp hlt
      obtain ⟨hgz, hg⟩ := List.forall_mem_cons.mp hg
      rw [toAAll_cons, h.toA_eq_affine_binvElement hi hjm hz hgz, ih hm hlt hg, List.map_cons,
        normalise_cons_of_finite js _ _ hi]
      rfl

/-- One inversion for the whole batch does what toA does for each point, and fails when it does (R267). -/
theorem batchNormalise_eq_toAAll {js : List Point}
    (hjs : ∀ j ∈ js, j.aff = false ∧ j.mont = true ∧ j.inRange f.p = true) :
    batchNormalise f js = toAAll f js := by
  have hlt : ∀ z ∈ finiteZs js, z < f.p := by
    intro z hz
    obtain ⟨j, hj, hi, rfl⟩ := mem_finiteZs.mp hz
    obtain ⟨haff, -, hr⟩ := hjs j hj
    obtain ⟨-, -, hz⟩ := Point.inRange_finite hi hr
    exact hz haff
  rw [batchNormalise, ← finiteZs]
  by_cases hg : ∀ z ∈ finiteZs js, Nat.gcd z f.p = 1
  · have hm : ∀ j ∈ js, j.mont = true := fun j hj => by
      obtain ⟨-, hmont, -⟩ := hjs j hj
      exact hmont
    rw [h.batchInv_eq_some true hlt hg, h.toAAll_eq_normalise hm hlt hg]
  · push Not at hg
    rw [h.batchInv_eq_none true hg, (toAAll_eq_none_iff_finiteZs f js).mpr hg]

end SoundField

end Sys2Proof.Machine
end

section
/-! The scalar commands' ends: NAF's width check, the table written by PTAB, and the three results of SMUL (R261, R262, R266,
R270, R271, R274). -/

namespace Sys2Proof.Machine

variable {s : State}

/-! ### NAF and PTAB (R261, R266) -/

theorem widthOk_eq_true {w : Nat} (h2 : 2 ≤ w) (h6 : w ≤ 6) : widthOk w = true := by
  simp [widthOk, Config.wMin, Config.wMax, h2, h6]

theorem widthOk_eq_false {w : Nat} (h : w < 2 ∨ 6 < w) : widthOk w = false := by
  simp only [widthOk, Config.wMin, Config.wMax, Bool.and_eq_false_iff, decide_eq_false_iff_not, not_le]
  exact h

theorem exec_naf_width {ra : VReg} {w : Fin 16} (hw : w.val < 2 ∨ 6 < w.val) : exec (.naf ra w) s = raise .width s := by
  rw [exec, execNaf, widthOk_eq_false hw]
  rfl

theorem exec_naf_ok {ra : VReg} {w : Fin 16} (h2 : 2 ≤ w.val) (h6 : w.val ≤ 6) :
    exec (.naf ra w) s = succeed (s.setNaf (wnaf (s.valV ra) w.val)) := by
  rw [exec, execNaf, widthOk_eq_true h2 h6]
  rfl

section
variable {ra : PReg} {w : Fin 16} (hv : s.ctx.valid = true) (ha : (s.getPT ra).aff = true)
  (hm : (s.getPT ra).mont = true) (hr : (s.getPT ra).inRange s.modulus = true)
include hv ha hm hr

theorem exec_ptab_width (hw : w.val < 2 ∨ 6 < w.val) : exec (.ptab ra w) s = raise .width s := by
  rw [exec, execPtab, needPoint_ok hv (PointNeed.metBy_affineMont ha hm) hr, widthOk_eq_false hw]
  rfl

theorem exec_ptab_none (h2 : 2 ≤ w.val) (h6 : w.val ≤ 6) (e : table s.field (s.getPT ra) w.val = none) :
    exec (.ptab ra w) s = raise .noinv s := by
  rw [exec, execPtab, needPoint_ok hv (PointNeed.metBy_affineMont ha hm) hr, widthOk_eq_true h2 h6, e]
  rfl

theorem exec_ptab_some (h2 : 2 ≤ w.val) (h6 : w.val ≤ 6) {ts : List Point}
    (e : table s.field (s.getPT ra) w.val = some ts) :
    exec (.ptab ra w) s = succeed (s.setTbl (ts.map Point.toTblEntry)) := by
  rw [exec, execPtab, needPoint_ok hv (PointNeed.metBy_affineMont ha hm) hr, widthOk_eq_true h2 h6, e]
  rfl

end

/-- The table's first entries after the points of a list are written to it are those points (R266). -/
theorem setTbl_getTbl_of_lt (s : State) {ts : List Point} (j : Fin 16) (h : j.val < ts.length) :
    ∃ e, ts[j.val]? = some e ∧ (s.setTbl (ts.map Point.toTblEntry)).getTbl j = e.toTblEntry := by
  refine ⟨_, List.getElem?_eq_getElem h, ?_⟩
  rw [setTbl_getTbl _ _ _ TblEntry.zero, List.length_map, if_pos h, List.getD_eq_getElem?_getD, List.getElem?_map,
    List.getElem?_eq_getElem h]
  rfl

/-- The other entries of the table stay (R266). -/
theorem setTbl_getTbl_of_le (s : State) {ts : List Point} (j : Fin 16) (h : ts.length ≤ j.val) :
    (s.setTbl (ts.map Point.toTblEntry)).getTbl j = s.getTbl j := by
  rw [setTbl_getTbl _ _ _ TblEntry.zero, List.length_map, if_neg (Nat.not_lt.mpr h)]

/-! ### The scan (R272) -/

/-- Every entry that a digit can select is in the Montgomery domain, the default of a look-up too (R268). -/
theorem tableEntry_mont {ts : List Point} (h : ∀ e ∈ ts, e.mont = true) (k : Nat) : (tableEntry ts k).mont = true := by
  rw [tableEntry, List.getD_eq_getElem?_getD]
  cases hget : ts[k / 2]? with
  | none => rfl
  | some e => exact h e (List.mem_of_getElem? hget)

/-- The scan keeps a Jacobian Montgomery point (R272). -/
theorem scan_flags (f : FieldCtx) {ts : List Point} (h : ∀ e ∈ ts, e.mont = true) (ds : List Int) :
    (scan f ts ds).aff = false ∧ (scan f ts ds).mont = true := by
  induction ds with
  | nil => exact ⟨rfl, rfl⟩
  | cons d ds ih =>
    obtain ⟨haff, hmont⟩ := ih
    rw [scan, scanStep]
    split
    · exact dbl_flags ..
    split
    · exact mixedDoubleAdd_flags f haff hmont (tableEntry_mont h _)
    · obtain ⟨-, -, hneg⟩ := negPoint_flags f (tableEntry ts (-d).toNat)
      exact mixedDoubleAdd_flags f haff hmont (hneg.trans (tableEntry_mont h _))

/-! ### SMUL (R270, R271) -/

section
variable {f : FieldCtx} {p : Point} {k : Nat} {mont : Bool} {ts : List Point} {r : Point}

/-- The operand of SMUL in the Montgomery domain, from which the table is built (R271). -/
def montForm (f : FieldCtx) (p : Point) : Point := if p.mont then p else tom f p

theorem montForm_mont (f : FieldCtx) (p : Point) : (montForm f p).mont = true := by
  unfold montForm
  split
  · next hm => exact hm
  · obtain ⟨-, -, hmont⟩ := convert_flags f f.r2 true p
    exact hmont

theorem smul_eq_bind (f : FieldCtx) (p : Point) (k : Nat) (mont : Bool) :
    smul f p k mont = (table f (montForm f p) (windowWidth f.p)).bind fun ts =>
      (toA f (scan f ts (wnaf k (windowWidth f.p)))).map fun r =>
        { tbl := ts, digits := wnaf k (windowWidth f.p), point := if mont then r else fromm f r } := by
  rw [smul, ← montForm]
  cases table f (montForm f p) (windowWidth f.p) with
  | none => rfl
  | some ts =>
    dsimp only [Option.bind_some]
    cases toA f (scan f ts (wnaf k (windowWidth f.p))) <;> rfl

theorem smul_eq_none (h : ∀ ts, table f (montForm f p) (windowWidth f.p) = some ts →
    toA f (scan f ts (wnaf k (windowWidth f.p))) = none) : smul f p k mont = none := by
  rw [smul_eq_bind, Option.bind_eq_none_iff]
  exact fun ts hts => Option.map_eq_none_iff.mpr (h ts hts)

theorem smul_eq_some (hts : table f (montForm f p) (windowWidth f.p) = some ts)
    (hr : toA f (scan f ts (wnaf k (windowWidth f.p))) = some r) :
    smul f p k mont = some { tbl := ts, digits := wnaf k (windowWidth f.p), point := if mont then r else fromm f r } := by
  rw [smul_eq_bind, hts, Option.bind_some, hr, Option.map_some]

/-- SMUL's result is an affine point of the domain that M asks for, in canonical form (R203, R271). -/
theorem smul_point_flags {w : Nat} (hts : table f (montForm f p) w = some ts)
    (hr : toA f (scan f ts (wnaf k w)) = some r) :
    let q := if mont then r else fromm f r
    q.canonical = q ∧ q.aff = true ∧ q.mont = mont := by
  obtain ⟨haff, hmont⟩ := toA_flags hr
  cases mont with
  | true =>
    have hentries : ∀ e ∈ ts, e.mont = true := fun e he => by
      obtain ⟨-, hm⟩ := table_flags (montForm_mont f p) hts e he
      exact hm
    obtain ⟨-, hscan⟩ := scan_flags f hentries (wnaf k w)
    exact ⟨toA_canonical hr, haff, hmont.trans hscan⟩
  | false =>
    obtain ⟨-, caff, cmont⟩ := convert_flags f 1 false r
    exact ⟨convert_canonical .., caff.trans haff, cmont⟩

end

section
variable {rd ra : PReg} {rb : VReg} {mont : Bool} (hv : s.ctx.valid = true) (ha : (s.getPT ra).aff = true)
  (hr : (s.getPT ra).inRange s.modulus = true)
include hv ha hr

theorem exec_smul_early (h : (s.getPT ra).inf = true ∨ s.valV rb = 0) :
    exec (.smul rd ra rb mont) s = succeedPoint s rd (infPoint true mont) :=
  (needPoint_ok hv (PointNeed.metBy_affine ha) hr).trans (if_pos h)

variable (hi : (s.getPT ra).inf = false) (hk : 0 < s.valV rb)
include hi hk

omit hv ha hr in
theorem not_smul_early : ¬ ((s.getPT ra).inf = true ∨ s.valV rb = 0) :=
  not_or.mpr ⟨ne_true_of_eq_false hi, hk.ne'⟩

theorem exec_smul_range (h : s.valV s.ord ≤ s.valV rb) : exec (.smul rd ra rb mont) s = raise .range s :=
  (needPoint_ok hv (PointNeed.metBy_affine ha) hr).trans ((if_neg (not_smul_early hi hk)).trans (if_pos h))

theorem exec_smul_none (h : s.valV rb < s.valV s.ord) (e : smul s.field (s.getPT ra) (s.valV rb) mont = none) :
    exec (.smul rd ra rb mont) s = raise .noinv s := by
  rw [exec, execSmul, needPoint_ok hv (PointNeed.metBy_affine ha) hr, if_neg (not_smul_early hi hk),
    if_neg (Nat.not_le.mpr h), e]

/-- SMUL's three results are written together (R274). -/
theorem exec_smul_some (h : s.valV rb < s.valV s.ord) {w : Nat} {ts : List Point} {r : Point}
    (hw : windowWidth s.modulus = w) (hts : table s.field (montForm s.field (s.getPT ra)) w = some ts)
    (hres : toA s.field (scan s.field ts (wnaf (s.valV rb) w)) = some r) :
    exec (.smul rd ra rb mont) s =
      succeed (((s.setTbl (ts.map Point.toTblEntry)).setNaf (wnaf (s.valV rb) w)).setPT rd
        (if mont then r else fromm s.field r)) := by
  subst hw
  obtain ⟨hcanonical, -⟩ := smul_point_flags (mont := mont) hts hres
  rw [exec, execSmul, needPoint_ok hv (PointNeed.metBy_affine ha) hr, if_neg (not_smul_early hi hk),
    if_neg (Nat.not_le.mpr h), smul_eq_some hts hres]
  dsimp only
  rw [succeedPoint, hcanonical]
  rfl

end

end Sys2Proof.Machine
end

section
/-! What a command does with the buffers TBL, NAF and NAFLEN: it writes entries that do not depend on what the buffers held
(R38, R276). -/

namespace Sys2Proof.Machine

/-! ### The buffers, and writes to them -/

/-- The contents of TBL, NAF and NAFLEN (R38, R39, R51). -/
structure Buffers where
  tbl : Vector TblEntry 16
  naf : Vector Word 4097
  nafLen : BitVec 13

/-- What a command writes to the buffers: the first entries of TBL, the first of NAF, and perhaps NAFLEN (R262, R266). -/
structure BufferWrites where
  tbl : List TblEntry := []
  naf : List Word := []
  nafLen : Option (BitVec 13) := none

/-- The buffers after the writes. -/
def Buffers.after (b : Buffers) (w : BufferWrites) : Buffers :=
  { tbl := overwrite b.tbl w.tbl, naf := overwrite b.naf w.naf, nafLen := w.nafLen.getD b.nafLen }

/-- `s` with other buffers. -/
def State.withBuffers (s : State) (b : Buffers) : State := { s with tbl := b.tbl, naf := b.naf, nafLen := b.nafLen }

theorem State.withBuffers_valV (s : State) (b : Buffers) (i : VReg) : (s.withBuffers b).valV i = s.valV i := rfl
theorem State.withBuffers_getPT (s : State) (b : Buffers) (i : PReg) : (s.withBuffers b).getPT i = s.getPT i := rfl
theorem State.withBuffers_field (s : State) (b : Buffers) : (s.withBuffers b).field = s.field := rfl

theorem overwrite_nil {α : Type} {n : Nat} (old : Vector α n) : overwrite old [] = old := by
  ext j hj
  exact (overwrite_getElem old [] j hj).trans (dif_neg (Nat.not_lt_zero j))

/-- No writes leave the buffers. -/
theorem Buffers.after_none (b : Buffers) : b.after {} = b := by
  rw [Buffers.after, overwrite_nil, overwrite_nil, Option.getD_none]

/-- An entry of the buffers after writes is the written one where there is one. -/
theorem overwrite_getElem_getD {α : Type} {n : Nat} (old : Vector α n) (new : List α) (j : Fin n) :
    (overwrite old new)[j.val] = new[j.val]?.getD old[j.val] := by
  rw [overwrite_getElem]
  split
  · next h => rw [List.getElem?_eq_getElem h, Option.getD_some]
  · next h => rw [List.getElem?_eq_none (Nat.le_of_not_lt h), Option.getD_none]

/-! ### Commands do not read the buffers (R276) -/

/-- With buffers `b` the outcome `o' b` is the next state of `o`, but for the buffers: these are `b` after writes that do not
depend on `b`. -/
def IgnoresBuffers (o : Host.Outcome State Fault Refusal) (o' : Buffers → Host.Outcome State Fault Refusal) : Prop :=
  ∃ t w, o = .next t ∧ ∀ b, o' b = .next (t.withBuffers (b.after w))

namespace IgnoresBuffers

variable {s u : State} {u' : Buffers → State} {k l : Host.Outcome State Fault Refusal}
  {k' l' : Buffers → Host.Outcome State Fault Refusal}

theorem raise (e : CmdError) : IgnoresBuffers (raise e s) (fun b => raise e (s.withBuffers b)) :=
  ⟨_, {}, rfl, fun b => by rw [Buffers.after_none]; rfl⟩

/-- A success with the writes `w` to the buffers. -/
theorem succeed_writing (w : BufferWrites) (h : ∀ b, u' b = u.withBuffers (b.after w)) :
    IgnoresBuffers (succeed u) (fun b => succeed (u' b)) :=
  ⟨_, w, rfl, fun b => congrArg Machine.succeed (h b)⟩

theorem succeed (h : ∀ b, u' b = u.withBuffers b) : IgnoresBuffers (succeed u) (fun b => succeed (u' b)) :=
  succeed_writing {} fun b => by rw [h b, Buffers.after_none]

theorem ite {p : Prop} [Decidable p] (hk : IgnoresBuffers k k') (hl : IgnoresBuffers l l') :
    IgnoresBuffers (if p then k else l) (fun b => if p then k' b else l' b) := by
  split
  exacts [hk, hl]

theorem needCtx (h : IgnoresBuffers k k') :
    IgnoresBuffers (needCtx s k) (fun b => needCtx (s.withBuffers b) (k' b)) := .ite h (.raise _)

theorem needBelow {a : Nat} (h : IgnoresBuffers k k') :
    IgnoresBuffers (needBelow s a k) (fun b => needBelow (s.withBuffers b) a (k' b)) := .needCtx (.ite (.raise _) h)

theorem needBothBelow {a c : Nat} (h : IgnoresBuffers k k') :
    IgnoresBuffers (needBothBelow s a c k) (fun b => needBothBelow (s.withBuffers b) a c (k' b)) :=
  .needCtx (.ite (.raise _) h)

theorem needPoint {n : PointNeed} {p : Point} (h : IgnoresBuffers k k') :
    IgnoresBuffers (needPoint s n p k) (fun b => needPoint (s.withBuffers b) n p (k' b)) :=
  .needCtx (.ite (.raise _) (.ite (.raise _) h))

theorem needTwoPoints {n m : PointNeed} {p q : Point} (h : IgnoresBuffers k k') :
    IgnoresBuffers (needTwoPoints s n p m q k) (fun b => needTwoPoints (s.withBuffers b) n p m q (k' b)) :=
  .needCtx (.ite (.raise _) (.ite (.raise _) (.ite (.raise _) (.ite (.raise _) h))))

end IgnoresBuffers

theorem valRange_withBuffers (s : State) (b : Buffers) (a : VReg) (n : Nat) :
    (s.withBuffers b).valRange a n = s.valRange a n := by
  induction n with
  | zero => rfl
  | succ n ih => rw [State.valRange, ih, State.withBuffers_valV, State.valRange]

theorem setRange_withBuffers (s : State) (b : Buffers) (a : VReg) (k : Nat) (ys : List Nat) :
    (s.withBuffers b).setRange a k ys = (s.setRange a k ys).withBuffers b := by
  induction ys generalizing s k with
  | nil => rfl
  | cons y ys ih => exact ih (s.setV (regPlus a k) y) (k + 1)

/-- PTAB's writes to the buffers. -/
theorem setTbl_withBuffers (s : State) (b : Buffers) (ts : List TblEntry) :
    (s.withBuffers b).setTbl ts = (s.setTbl ts).withBuffers (b.after { tbl := ts }) := by
  rw [Buffers.after, overwrite_nil]
  rfl

/-- NAF's writes to the buffers. -/
theorem setNaf_withBuffers (s : State) (b : Buffers) (ds : List Int) :
    (s.withBuffers b).setNaf ds = (s.setNaf ds).withBuffers
      (b.after { naf := ds.map (BitVec.ofInt 32), nafLen := some (BitVec.ofNat 13 ds.length) }) := by
  rw [Buffers.after, overwrite_nil]
  rfl

/-- Every command ends the same whatever the buffers hold, and writes the same to them (R276). -/
theorem exec_ignoresBuffers (i : Instr) (s : State) : IgnoresBuffers (exec i s) (fun b => exec i (s.withBuffers b)) := by
  cases i with
  | nop => exact .succeed fun _ => rfl
  | mov rd ra => exact .succeed fun _ => rfl
  | madd rd ra rb => exact .needBothBelow (.succeed fun _ => rfl)
  | msub rd ra rb => exact .needBothBelow (.succeed fun _ => rfl)
  | mred rd ra => exact .needCtx (.succeed fun _ => rfl)
  | minv rd ra rb => exact .ite (.raise _) (.ite (.raise _) (.succeed fun _ => rfl))
  | binv rd ra n1 mont =>
    simp only [exec, execBinv, valRange_withBuffers]
    exact .ite (.raise _) (.needCtx (.ite (.raise _) (.ite (.raise _) (.succeed fun _ => setRange_withBuffers ..))))
  | mctx ra => exact .ite (.raise _) (.succeed fun _ => rfl)
  | mmul rd ra rb => exact .needBothBelow (.succeed fun _ => rfl)
  | mtom rd ra => exact .needBelow (.succeed fun _ => rfl)
  | mfrom rd ra => exact .needBelow (.succeed fun _ => rfl)
  | mexp rd ra rb => exact .needCtx (.succeed fun _ => rfl)
  | pmov rd ra => exact .succeed fun _ => rfl
  | pdbl rd ra => exact .needPoint (.succeed fun _ => rfl)
  | pmadd rd ra rb => exact .needTwoPoints (.succeed fun _ => rfl)
  | pmdadd rd ra rb => exact .needTwoPoints (.succeed fun _ => rfl)
  | pneg rd ra => exact .needPoint (.succeed fun _ => rfl)
  | ptoj rd ra => exact .needPoint (.succeed fun _ => rfl)
  | ptoa rd ra =>
    refine .needPoint ?_
    simp only [State.withBuffers_field, State.withBuffers_getPT]
    cases toA s.field (s.getPT ra) with
    | none => exact .raise _
    | some p => exact .succeed fun _ => rfl
  | ptom rd ra => exact .needPoint (.succeed fun _ => rfl)
  | pfrom rd ra => exact .needPoint (.succeed fun _ => rfl)
  | naf ra w => exact .ite (.raise _) (.succeed_writing _ fun b => setNaf_withBuffers s b (wnaf (s.valV ra) w.val))
  | ptab ra w =>
    refine .needPoint (.ite (.raise _) ?_)
    simp only [State.withBuffers_field, State.withBuffers_getPT]
    cases table s.field (s.getPT ra) w.val with
    | none => exact .raise _
    | some t => exact .succeed_writing _ fun _ => setTbl_withBuffers ..
  | smul rd ra rb mont =>
    refine .needPoint (.ite (.succeed fun _ => rfl) (.ite (.raise _) ?_))
    simp only [State.withBuffers_field, State.withBuffers_getPT, State.withBuffers_valV]
    cases smul s.field (s.getPT ra) (s.valV rb) mont with
    | none => exact .raise _
    | some r =>
      exact .succeed_writing
        { tbl := r.tbl.map Point.toTblEntry, naf := r.digits.map (BitVec.ofInt 32),
          nafLen := some (BitVec.ofNat 13 r.digits.length) } fun _ => rfl

end Sys2Proof.Machine
end

section
/-! The statements of 44_scalar.md, settled. -/

open Sys2Proof Sys2Proof.Machine

/-- Settles O35: the digits come from rounds of wNAF, and one more than the bits of k are enough. -/
theorem wnafProperties : Obligations.WnafProperties := by
  intro k w hw _
  have h := isWnaf_wnaf hw k
  refine ⟨h.nafValue_eq, h.odd_and_bounded, fun i j => h.nonzero_apart, fun hk => ⟨h.getLastD_pos hk 0, wnaf_length_le k w⟩,
    ?_, fun hk => ?_⟩
  · rintro rfl
    rw [h.eq_nil, List.length_nil]
  · exact (wnaf_length_le k w).trans (Nat.succ_le_succ (bitLen_le hk))

/-- Settles O36: the digits of a register fit the buffer and NAFLEN. -/
theorem nafWritesTheDigits : Obligations.NafWritesTheDigits := by
  intro ra w s
  refine ⟨exec_naf_width, fun h2 h6 => ?_⟩
  have ht := exec_naf_ok (s := s) (ra := ra) h2 h6
  exact ⟨_, ht, setNaf_nafLen_toNat s (s.getV ra) w.val, setNaf_getNaf s _, rfl, rfl, rfl, rfl,
    (exec_ends _ s).keepsControl ht, rfl, rfl, rfl, rfl⟩

/-- Settles O37: the table's entries are those of R265, and PTAB writes them in order. -/
theorem ptabWritesTheTable : Obligations.PtabWritesTheTable := by
  intro ra w s hv ha hm hr f p n d J infinity invertible
  refine ⟨exec_ptab_width hv ha hm hr, fun h2 h6 hi hninv => ?_, fun h2 h6 hcase => ?_⟩
  · have htable : table f p w.val = none := by
      simp only [invertible, not_forall] at hninv
      obtain ⟨i, h1, hn, hz⟩ := hninv
      exact (table_eq_none hi).mpr ⟨i, h1, hn, (toA_eq_none f _).mpr hz⟩
    exact ⟨htable, exec_ptab_none hv ha hm hr h2 h6 htable⟩
  obtain ⟨ts, hts⟩ : ∃ ts, table f p w.val = some ts := exists_table hcase
  have hlen : ts.length = n := table_length hts
  have ht := exec_ptab_some hv ha hm hr h2 h6 hts
  refine ⟨ts, _, hts, hlen, ht, fun hi i hlt => ?_, fun hi => ?_, fun j hj => ?_,
    fun j hj => setTbl_getTbl_of_le s j (hlen.trans_le hj), rfl, rfl, rfl, rfl, rfl, (exec_ends _ s).keepsControl ht,
    rfl, rfl, rfl, rfl⟩
  · cases (table_of_inf _ hi).symm.trans hts
    exact List.getElem?_replicate_of_lt hlt
  · obtain ⟨h0, hs⟩ := table_getElem? hi hts
    refine ⟨?_, fun i h1 hlt => (hs i h1 hlt).trans ?_⟩
    · rw [h0, affine, BitVec.ofNat_toNat, BitVec.ofNat_toNat, BitVec.setWidth_eq, BitVec.setWidth_eq]
    · split
      · next hinf =>
        obtain ⟨-, hmont⟩ := tablePoint_flags f (p := p) hm i
        rw [toA_inf (q := tablePoint f p i) hinf, hmont]
        rfl
      · rfl
  · obtain ⟨e, hget, hentry⟩ := setTbl_getTbl_of_lt s j (hj.trans_eq hlen.symm)
    obtain ⟨haff, hmont⟩ := table_flags hm hts e (List.mem_of_getElem? hget)
    exact ⟨e, hget, haff, hmont, hentry⟩

/-- Settles O38: the batch's outputs are those of BINV, and toA multiplies by their powers. -/
theorem batchedNormalisationGivesTheTable : Obligations.BatchedNormalisationGivesTheTable :=
  fun _ az _ hv hs hjs => (hs.field hv az).batchNormalise_eq_toAAll hjs

/-- Settles O39: the early result comes before the look at the order. -/
theorem smulEarlyResult : Obligations.SmulEarlyResult := fun rd _ _ _ _ hv ha hr h =>
  exists_next_of_succeedPoint (rd := rd) (exec_smul_early hv ha hr h)

/-- Settles O40: the scan is the fold of R272 over the digits, and its result, the table and the digits are written
together. -/
theorem smulWritesResultTableAndDigits : Obligations.SmulWritesResultTableAndDigits := by
  intro rd ra rb mont s hv ha hr hi hk f p k w pm infinity mdadd entry round result
  have hscan (ts : List Point) : toA f (scan f ts (wnaf k w)) = result ts := congrArg (toA f) (scan_eq_foldr ..)
  refine ⟨exec_smul_range hv ha hr hi hk, fun hlt hno => ?_, fun ts r hlt hts hres => ?_⟩
  · exact exec_smul_none hv ha hr hi hk hlt (smul_eq_none fun ts hts => (hscan ts).trans (hno ts hts))
  · have hres := (hscan ts).trans hres
    have hlen : ts.length = 2 ^ (w - 2) := table_length hts
    have ht := exec_smul_some (rd := rd) (mont := mont) hv ha hr hi hk hlt rfl hts hres
    obtain ⟨-, haff, hmont⟩ := smul_point_flags (mont := mont) hts hres
    refine ⟨_, ht, ?_⟩
    rw [completeOk_setPT_getPT]
    exact ⟨rfl, haff, hmont, fun j hj => setTbl_getTbl_of_lt s j (hj.trans_eq hlen.symm),
      fun j hj => setTbl_getTbl_of_le s j (hlen.trans_le hj), setNaf_nafLen_toNat s (s.getV rb) w, setNaf_getNaf _ _,
      rfl, fun i hne => (State.getPT_setPT _ rd i _).trans (if_neg (Ne.symm hne)), rfl, (exec_ends _ s).keepsControl ht,
      rfl, rfl, rfl, rfl⟩

/-- Settles O50: every command ends the same whatever the buffers hold, and its writes to them do not depend on that. -/
theorem oldTableAndDigitsAreNeverRead : Obligations.OldTableAndDigitsAreNeverRead := by
  intro i s
  obtain ⟨t, w, ht, hu⟩ := exec_ignoresBuffers i s
  refine ⟨t, fun j => w.tbl[j.val]?, fun j => w.naf[j.val]?, w.nafLen, ht, fun tbl naf len => ?_⟩
  exact ⟨_, hu ⟨tbl, naf, len⟩, rfl, rfl, rfl, rfl, rfl, rfl, rfl, rfl, overwrite_getElem_getD tbl w.tbl,
    overwrite_getElem_getD naf w.naf, rfl⟩
end

section
/-! What the errors of 60_exceptions.md rest on: when a point operand's AFF and MONT fail the table of R302, the errors
that no command and no word can show (R105, R301), and the state that an end with an error leaves (R300). -/

namespace Sys2Proof.Machine

/-! ### E_PTSTATE (R302) -/

section
variable {s : State} {p q : Point} {n m : PointNeed} {k : Host.Outcome State Fault Refusal}

namespace PointNeed

theorem not_metBy_jacobianMont (h : ¬ (p.aff = false ∧ p.mont = true)) : jacobianMont.metBy p = false :=
  Bool.eq_false_iff.mpr fun hmet => h (by simpa [metBy, jacobianMont] using hmet)

theorem not_metBy_affineMont (h : ¬ (p.aff = true ∧ p.mont = true)) : affineMont.metBy p = false :=
  Bool.eq_false_iff.mpr fun hmet => h (by simpa [metBy, affineMont] using hmet)

theorem not_metBy_affine (ha : p.aff = false) : affine.metBy p = false := by simp [metBy, affine, ha]

theorem not_metBy_jacobian (ha : p.aff = true) : jacobian.metBy p = false := by simp [metBy, jacobian, ha]

theorem not_metBy_standard (hm : p.mont = true) : standard.metBy p = false := by simp [metBy, standard, hm]

theorem not_metBy_montgomery (hm : p.mont = false) : montgomery.metBy p = false := by simp [metBy, montgomery, hm]

end PointNeed

/-- RB's requirement fails with the same error as RA's. -/
theorem needTwoPoints_ptstate (hv : s.ctx.valid = true) (h : n.metBy p = false ∨ m.metBy q = false) :
    needTwoPoints s n p m q k = raise .ptstate s := by
  rcases h with h | h
  · simp [needTwoPoints, hv, h]
  · simp [needTwoPoints, hv, h]

end

/-! ### The errors shown (R301) -/

/-- A command never shows an error that R301 does not list for it. -/
theorem errCode_ne_of_not_raises {e : CmdError} {i : Instr} {s t : State} (hi : raises e i = false)
    (h : exec i s = .next t) : t.errCode ≠ CmdError.code e := fun hcode =>
  Bool.false_ne_true (hi.symm.trans (raises_of_errCode h hcode))

theorem decode_error {w : Word} {e : CmdError} (h : decode w = .error e) : e = .illegal ∨ e = .operand := by
  rcases decode_cases w with ⟨hd, -⟩ | ⟨r, -, -, ⟨-, hd⟩ | ⟨-, i, hd, -⟩⟩
  · cases hd.symm.trans h
    exact .inl rfl
  · cases hd.symm.trans h
    exact .inr rfl
  · cases hd.symm.trans h

/-! ### The end of a command with an error (R300) -/

/-- A command that ends with ERRCODE not 0 is at the error completion of the state it ran in. -/
theorem Ends.eq_completeErr {s t : State} {o : Host.Outcome State Fault Refusal} (h : Ends s o) (ht : o = .next t)
    (hcode : t.errCode ≠ 0) : ∃ e, t = s.completeErr e := by
  rcases h with ⟨e, rfl⟩ | ⟨u, rfl, -⟩
  · cases ht
    exact ⟨e, rfl⟩
  · cases ht
    exact absurd rfl hcode

end Sys2Proof.Machine
end

section
/-! The statements of 60_exceptions.md, settled. -/

open Sys2Proof Sys2Proof.Machine

/-- Settles O22: each command's requirement is the table's, and the check of it follows that of the context; R301 lists
E_PTSTATE for neither PNEG nor PMOV. -/
theorem wrongPointStateRaisesPtstate : Obligations.WrongPointStateRaisesPtstate := by
  intro rd ra rb s hv a b
  have hone {need : PointNeed} {k} (h : need.metBy a = false) : needPoint s need a k = raise .ptstate s :=
    needPoint_ptstate hv h
  have htwo {k} (h : ¬ (a.aff = false ∧ a.mont = true) ∨ ¬ (b.aff = true ∧ b.mont = true)) :
      needTwoPoints s .jacobianMont a .affineMont b k = raise .ptstate s :=
    needTwoPoints_ptstate hv (h.imp PointNeed.not_metBy_jacobianMont PointNeed.not_metBy_affineMont)
  exact ⟨fun h => hone (PointNeed.not_metBy_jacobianMont h), fun h => ⟨htwo h, htwo h⟩,
    fun ha => hone (PointNeed.not_metBy_affine ha), fun ha => hone (PointNeed.not_metBy_jacobian ha),
    fun hm => hone (PointNeed.not_metBy_standard hm), fun hm => hone (PointNeed.not_metBy_montgomery hm),
    fun h _ => hone (PointNeed.not_metBy_affineMont h), fun ha _ _ => hone (PointNeed.not_metBy_affine ha),
    fun _ => errCode_ne_of_not_raises rfl, fun _ => errCode_ne_of_not_raises rfl⟩

/-- Settles O42: an end with an error writes STATUS alone. -/
theorem errorsArePrecise : Obligations.ErrorsArePrecise := by
  intro w s t h hcode
  obtain ⟨e, rfl⟩ := (runWord_ends w s).eq_completeErr h hcode
  exact ⟨e, rfl, rfl, rfl, rfl, ⟨rfl, rfl, rfl, rfl, rfl, rfl, rfl, rfl⟩, (runWord_ends w s).keepsControl h⟩

/-- Settles O43: a command word ends with ERRCODE 0 or with the code of an error that is listed. -/
theorem onlyListedErrorsAreRaised : Obligations.OnlyListedErrorsAreRaised := by
  refine ⟨rfl, fun _ _ _ _ => raises_of_errCode, fun _ _ => decode_error, fun w s t h => ?_⟩
  obtain ⟨u, hu, -, -, hcode⟩ := (runWord_ends w s).completes
  cases hu.symm.trans h
  rcases hcode with ⟨h0, -⟩ | ⟨e, he, -⟩
  · rw [h0]
    exact Nat.zero_le 8
  · rw [he]
    exact CmdError.code_le e
end

section
/-! The steps of a busy machine at an accepted transaction (R350). -/

namespace Sys2Proof.Machine

/-! ### The two lists of R350 -/

/-- The locations whose write is dropped while busy: CMD, CURVE and the V and PT windows. -/
theorem Loc.droppedBusy_iff (l : Loc) : l.droppedBusy = true ↔
    l = .cmd ∨ l = .curve ∨ (∃ i j, l = .vDigit i j) ∨ (∃ i c j, l = .ptDigit i c j) ∨ ∃ i, l = .ptFlags i := by
  cases l <;> simp [Loc.droppedBusy]

/-- The locations that read exactly while busy. -/
theorem Loc.readableBusy_iff (l : Loc) : l.readableBusy = true ↔
    l = .id ∨ l = .hwcfg ∨ l = .ctrl ∨ l = .status ∨ l = .cmd ∨ l = .curve := by
  cases l <;> simp [Loc.readableBusy]

/-! ### The schedule does not matter to reads and to CTRL -/

section
variable {s : State} {rest : List Event} {l : Loc} {w : Word}

theorem State.readLoc_with_schedule : ({ s with schedule := rest } : State).readLoc l = s.readLoc l := by
  cases l <;> rfl

theorem State.writeCtrl_with_schedule :
    ({ s with schedule := rest } : State).writeCtrl w = { s.writeCtrl w with schedule := rest } := by
  unfold State.writeCtrl
  split <;> rfl

/-! ### What reads and writes do while busy (R350) -/

theorem State.busWrite_busy_dropped (hb : s.busy = true) (hd : l.droppedBusy = true) :
    s.busWrite l w = { s with response := .okayWrite, haz := true } := by
  rw [State.busWrite, hb, hd]
  rfl

/-- A write that R350 does not drop has its idle effect, whether the machine is busy or idle. -/
theorem State.busWrite_not_dropped (hd : l.droppedBusy = false) :
    s.busWrite l w = { s.writeLoc w l with response := .okayWrite } := by
  rw [State.busWrite, hd, Bool.and_false]
  rfl

/-- A location that R350 lists reads as its word, whether the machine is busy or idle. -/
theorem State.busRead_readable (hl : l.readableBusy = true) :
    s.busRead l = { s with response := .okayRead (s.readLoc l) } := by
  rw [State.busRead, hl, Bool.not_true, Bool.and_false]
  rfl

/-- The word read is a free value (U3), so the counter of free values advances. -/
theorem State.busRead_busy_data (hb : s.busy = true) (hl : l.readableBusy = false) :
    s.busRead l = { s with response := .okayRead (Config.unspecified 32 s.draws .busRead), haz := true,
                           draws := s.draws + 1 } := by
  rw [State.busRead, hb, hl]
  rfl

end

/-! ### The steps (R350) -/

section
variable {s : State} {tr : Transaction} {l : Loc} {rest : List Event} (hr : s.rstN = true) (hb : s.busy = true)
  (hs : s.schedule = .bus tr :: rest) (hc : busCheck tr = .ok l)
include hr hs hc

theorem step_write_ctrl (hk : tr.kind = .write) (hl : l = .ctrl) :
    step s = .next { s.writeCtrl tr.wdata with schedule := rest, response := .okayWrite } := by
  subst hl
  rw [step_write hr hs hk hc, State.busWrite_not_dropped rfl, State.writeLoc, State.writeCtrl_with_schedule]

theorem step_write_status (hk : tr.kind = .write) (hl : l = .status) :
    step s = .next { s.ackStatus tr.wdata with schedule := rest, response := .okayWrite } := by
  subst hl
  rw [step_write hr hs hk hc, State.busWrite_not_dropped rfl]
  rfl

theorem step_read_readable (hk : tr.kind = .read) (hl : l.readableBusy = true) :
    step s = .next { s with schedule := rest, response := .okayRead (s.readLoc l) } := by
  rw [step_read hr hs hk hc, State.busRead_readable hl, State.readLoc_with_schedule]

include hb

theorem step_write_busy_dropped (hk : tr.kind = .write) (hd : l.droppedBusy = true) :
    step s = .next { s with schedule := rest, response := .okayWrite, haz := true } := by
  have hbusy : ({ s with schedule := rest } : State).busy = true := hb
  rw [step_write hr hs hk hc, State.busWrite_busy_dropped hbusy hd]

theorem step_read_busy_data (hk : tr.kind = .read) (hl : l.readableBusy = false) :
    ∃ v, step s =
      .next { s with schedule := rest, response := .okayRead v, haz := true, draws := s.draws + 1 } := by
  have hbusy : ({ s with schedule := rest } : State).busy = true := hb
  exact ⟨_, by rw [step_read hr hs hk hc, State.busRead_busy_data hbusy hl]⟩

end

end Sys2Proof.Machine
end

section
/-! The statements of 70_reset_and_hazards.md, settled. -/

open Sys2Proof Sys2Proof.Machine

/-- Settles O58: by the direction of the transaction and the list of R350 that its location is on. -/
theorem busyTimeRules : Obligations.BusyTimeRules := by
  intro s tr l rest hr hb hs hc
  simp only [← Loc.droppedBusy_iff, ← Loc.readableBusy_iff, Bool.not_eq_true]
  exact ⟨step_write_busy_dropped hr hb hs hc, step_write_ctrl hr hs hc, step_write_status hr hs hc,
    step_read_readable hr hs hc, step_read_busy_data hr hb hs hc⟩
end
